-- ==== Sys2Proof/Config.lean ====
section
/-!
DEFINITION. What an implementation of the scaled register codec fixes, and the free values.

The parameters PW, RW and FRAC of rule R6 of spec/00_scope.md, which the block takes as one record (`Config.Params`),
the register-map parameters of rules R101, R103 and R104 of spec/44_register_map_instances.md, and the content the
register byte space has at launch (rule R123 of spec/70_reset_and_hazards.md). A parameter with a default in the spec
is a definition; a parameter the spec gives no value is an opaque constant, so that no proof can see what it is.
-/

namespace Sys2Proof

/-- The implementation parameters of rule R6, each a field with the default that the rule gives. -/
structure Config.Params where
  /-- the width in bits of a physical value, two's complement -/
  PW   : Nat := 32
  /-- the width in bits of a resolution, unsigned and non-zero -/
  RW   : Nat := 16
  /-- the number of fractional bits the host reads in a physical value: a label that no rule depends on (rule R9) -/
  FRAC : Nat := 0
  deriving DecidableEq, Repr

/-- The constraints of rule R6 on the parameters: `PW >= 17` and `RW >= 1`. -/
def Config.admits (C : Config.Params) : Bool := decide (17 ≤ C.PW) && decide (1 ≤ C.RW)

/-- Every parameter at its default. -/
abbrev Config.standard : Config.Params := {}

/-- `PW` at its default. -/
abbrev Config.PW : Nat := Config.standard.PW

/-- `RW` at its default. -/
abbrev Config.RW : Nat := Config.standard.RW

/-- `OTGI_MAX` of rule R101: the upper end of the OTG current row, as the source's table writes it. -/
def Config.OTGI_MAX : BitVec Config.PW := 6400

/-- The value of `OTGI_MAX` for which rule R101 says that the row is `Fits`. -/
def Config.OTGI_MAX_REPAIRED : BitVec Config.PW := 6350

/-- `VINDPM_MAX` of rule R101: the upper end of the input voltage row, as the source's table writes it. -/
def Config.VINDPM_MAX : BitVec Config.PW := 19584

/-- The value of `VINDPM_MAX` for which rule R101 says that the row is `Fits`. -/
def Config.VINDPM_MAX_REPAIRED : BitVec Config.PW := 19520

/-- Which channel of a dual-value ADC register is sub-field 0: the first named channel, or the second. -/
inductive Config.ChannelOrder where
  /-- the first named channel is sub-field 0, the low byte -/
  | firstNamedLow
  /-- the second named channel is sub-field 0, the low byte -/
  | secondNamedLow
  deriving DecidableEq, Repr, Inhabited

/-- `VBUS_PSYS_ORDER` of rule R103: a free value, the spec gives no default (D38). -/
opaque Config.VBUS_PSYS_ORDER : Config.ChannelOrder

/-- `VBUS_MIN` of rule R103: a free value, the spec gives no default (D38). -/
opaque Config.VBUS_MIN : BitVec Config.PW

/-- `PSYS_MIN` of rule R103: a free value, the spec gives no default (D38). -/
opaque Config.PSYS_MIN : BitVec Config.PW

/-- `VBAT_VSYS_ORDER` of rule R104: a free value, the spec gives no default (D38). -/
opaque Config.VBAT_VSYS_ORDER : Config.ChannelOrder

/-- `VBAT_MIN` of rule R104: a free value, the spec gives no default (D38). -/
opaque Config.VBAT_MIN : BitVec Config.PW

/-- `VSYS_MIN` of rule R104: a free value, the spec gives no default (D38). -/
opaque Config.VSYS_MIN : BitVec Config.PW

/-- The byte that the register byte space holds at each address when the model is launched: a free value.
Rule R123 calls it unspecified and forbids to assume zero; 93_implementation_defined.md U11 and U14 ask for
any value. -/
opaque Config.launchByte : Nat → BitVec 8

end Sys2Proof
end

