-- ==== Sys2Proof/Word.lean ====
section
/-!
DEFINITION. The word types of the codec (rule R5 and rule R6 of spec/00_scope.md).
-/

namespace Sys2Proof

/-- One 8-bit unit of the register byte space, and the type of an address on the bus (rules R5 and R26). -/
abbrev Byte := BitVec 8

/-- The raw 16-bit content of one register (rule R5). -/
abbrev RegWord := BitVec 16

/-- A physical value: a signed integer of `PW` bits, here at the default `PW` (rules R6 and R8). -/
abbrev Phys := BitVec Config.PW

/-- `PMAX = 2^(PW-1) - 1`, the largest physical value (rule R49 of spec/30_encoding.md). -/
def pmax (pw : Nat) : Int := 2 ^ (pw - 1) - 1

end Sys2Proof
end

