-- ==== Sys2Proof/Syntax.lean ====
section
/-!
DEFINITION. Descriptors, requests and instructions (spec/30_encoding.md).

A request is the record of rule R39: as fields at any parameters (`PortRequest`), and with its descriptor as 160 bits
at the default ones (`Request`), the only ones for which rule R47 defines a layout. An instruction is what a request
means once its operation code and its descriptor are read: one constructor for each row of spec/opcode_table.json,
holding exactly the request fields that the row's format reads (rule R42).
-/

namespace Sys2Proof

/-- The fields of a scalar descriptor (rule R43) or of a bitfield-only descriptor (rule R45), for physical
values of `pw` bits and resolutions of `rw` bits. `width` and `offset` are 5-bit unsigned (rule R47). -/
structure FieldSpec (pw rw : Nat) where
  addr   : BitVec 16
  width  : BitVec 5
  offset : BitVec 5
  res    : BitVec rw
  minVal : BitVec pw
  maxVal : BitVec pw
  deriving DecidableEq, Repr

/-- One of the two 8-bit sub-fields of a dual-value descriptor (rule R44). -/
structure SubField (pw rw : Nat) where
  minVal : BitVec pw
  mask   : BitVec 8
  res    : BitVec rw
  deriving DecidableEq, Repr

/-- The fields of a dual-value descriptor (rule R44): sub-field 0 is the low byte, sub-field 1 the high byte. -/
structure DualSpec (pw rw : Nat) where
  addr : BitVec 16
  sub0 : SubField pw rw
  sub1 : SubField pw rw
  deriving DecidableEq, Repr

/-- A descriptor: the three kinds of rule R46, and the bit patterns of rule R53 that are none of them. -/
inductive Descriptor (pw rw : Nat) where
  /-- `KIND = 0`, reserved bits zero -/
  | scalar (S : FieldSpec pw rw)
  /-- `KIND = 1`, reserved bits zero -/
  | dual (S : DualSpec pw rw)
  /-- `KIND = 2`, reserved bits zero -/
  | bitfield (S : FieldSpec pw rw)
  /-- `KIND = 3` or a reserved bit that is not zero (rule R53) -/
  | illegal (raw : BitVec 160)
  deriving DecidableEq, Repr

/-- A descriptor at the default parameters. -/
abbrev Spec := Descriptor Config.PW Config.RW

/-- A request at any parameters: the record of rule R39 with the descriptor as its fields. "For other parameter values
no layout is defined and a model uses the field record alone" (rule R47). -/
structure PortRequest (C : Config.Params) where
  op     : BitVec 4
  spec   : Descriptor C.PW C.RW
  physIn : BitVec C.PW
  wordIn : RegWord
  rdFail : Bool
  deriving DecidableEq, Repr

/-- A request at the default parameters: the record of rule R39 (signals of rule R16), the descriptor in the layout of
rule R47. -/
structure Request where
  op     : BitVec 4
  spec   : BitVec 160
  physIn : Phys
  wordIn : RegWord
  rdFail : Bool
  deriving DecidableEq, Repr

/-- The instructions: one constructor for each row of spec/opcode_table.json (rules R41 and R57). `v` is
`phys_in`, `w` is `word_in`, `S` is the descriptor and `rdFail` is `rd_fail`; format N has no operand. -/
inductive Instr where
  | nop
  | enc (v : Phys) (w : RegWord) (S : Spec) (rdFail : Bool)
  | dec (w : RegWord) (S : Spec) (rdFail : Bool)
  | bfi (v : Phys) (w : RegWord) (S : Spec) (rdFail : Bool)
  | bfx (w : RegWord) (S : Spec) (rdFail : Bool)
  | dencl (v : Phys) (w : RegWord) (S : Spec) (rdFail : Bool)
  | dench (v : Phys) (w : RegWord) (S : Spec) (rdFail : Bool)
  | ddecl (w : RegWord) (S : Spec) (rdFail : Bool)
  | ddech (w : RegWord) (S : Spec) (rdFail : Bool)
  | rdst
  | clrf
  /-- the reserved operation code 0xB (rule R52) -/
  | reservedB
  /-- the reserved operation codes 0xC to 0xF (rule R52); `low` is `op[1:0]` -/
  | reservedCF (low : BitVec 2)
  deriving DecidableEq, Repr

end Sys2Proof
end

