-- ==== Sys2Proof/Machine/State.lean ====
section
/-!
DEFINITION. The state of the block and of the host side that the spec defines around it.

The block's own state is one bit, `fail` (rule R17 of spec/10_state.md). The rest is the contract of the
block with its host, which spec/00_scope.md rule R3 puts in scope: the response port (rule R16), the register
byte space (rule R25 of spec/20_memory.md), the host's threads with the access sequences they are in (rules
R30 to R33 and R56), and what the outside world does next, in order (rules R14 and R37).
-/

namespace Sys2Proof.Machine

open Sys2Proof

/-- Why the machine stops with a fault. There is NO constructor: no operation of the block traps, throws or
stops it (rule R113 of spec/60_exceptions.md); every failure is a response. Safe: nothing can raise one. -/
inductive Fault where
  deriving DecidableEq, Repr

/-- Why the model refuses a step. -/
inductive Refusal where
  /-- Raised by an arm of `exec` for an instruction that has no meaning yet. No arm does. Safe: the model stops. -/
  | notModelled (mnemonic : String)
  /-- Raised by a host sequence that issues a two-byte bus access at address 0xFF, which has no second byte
  address: "the host must not issue it, and a model refuses it" (rule R35 of spec/20_memory.md, U13 of
  spec/93_implementation_defined.md). Safe: the model stops where the spec gives no effect. -/
  | wordAtLastAddress
  deriving DecidableEq, Repr

/-- `rsp.cause`: why an operation failed (rule R107 of spec/60_exceptions.md). -/
inductive Cause where
  | none
  | readFail
  | badSpec
  | badOp
  deriving DecidableEq, Repr

/-- The response record (rule R40 of spec/30_encoding.md), at any parameters. -/
structure PortResponse (C : Config.Params) where
  /-- `rsp.status`: false is 0, the operation succeeded; true is 1, it failed -/
  status  : Bool
  cause   : Cause
  wordOut : RegWord
  physOut : BitVec C.PW
  deriving DecidableEq, Repr

/-- The response record at the default parameters. -/
abbrev Response := PortResponse Config.standard

/-- The register byte space: address and byte, addresses strictly rising. An address that is not listed still
holds its launch content (`Config.launchByte`). -/
abbrev Memory := List Host.Cell

/-- `n` of `MemRead` and `MemWrite`, and the host's parameter `NBYTES` of a register (rules R28 and R34). -/
inductive NBytes where
  | one
  | two
  deriving DecidableEq, Repr

/-- Which accessor pair a sequence uses (rules R30 to R32): `DEC`/`ENC`, `BFX`/`BFI`, `DDECL`/`DENCL` or
`DDECH`/`DENCH`. -/
inductive Access where
  /-- `GET` and `SET` -/
  | scalar
  /-- `GETB` and `SETB` -/
  | bitfield
  /-- `DGETL` and `DSETL` -/
  | dualLow
  /-- `DGETH` and `DSETH` -/
  | dualHigh
  deriving DecidableEq, Repr

/-- How far a `GET` has come. -/
inductive GetPhase where
  | start
  /-- the first byte has travelled, the second has not (rule R130 of spec/70_reset_and_hazards.md) -/
  | secondByte (b0 : Byte)
  /-- the read has returned `st` and the word; the request is next -/
  | request (st : Bool) (w : RegWord)
  deriving DecidableEq, Repr

/-- How far a `SET` has come. -/
inductive SetPhase where
  | start
  | secondByte (b0 : Byte)
  | request (st : Bool) (w : RegWord)
  /-- the request succeeded with this word; the write-back is next -/
  | write (w : RegWord)
  /-- the first byte is written, this second byte is not -/
  | writeSecond (b1 : Byte)
  deriving DecidableEq, Repr

/-- How far a bare `MemRead` has come. -/
inductive ReadPhase where
  | start
  | secondByte (b0 : Byte)
  deriving DecidableEq, Repr

/-- How far a bare `MemWrite` has come. -/
inductive WritePhase where
  | start
  | secondByte
  deriving DecidableEq, Repr

/-- How far an `ADCGET` has come: which of its three requests is next, with the word it takes. -/
inductive AdcPhase where
  | first
  | second (w : RegWord)
  | third (w : RegWord)
  deriving DecidableEq, Repr

/-- How far a `QNT` has come: which of its two requests is next, with the word it takes. -/
inductive QntPhase where
  | first
  | second (w : RegWord)
  deriving DecidableEq, Repr

/-- One sequence of host steps and requests, and how far it has come (rules R28 to R33 of spec/20_memory.md,
rule R56 of spec/30_encoding.md). -/
inductive Job where
  /-- `GET`, `GETB`, `DGETL`, `DGETH` -/
  | get (a : Access) (n : NBytes) (S : Spec) (p : GetPhase)
  /-- `SET`, `SETB`, `DSETL`, `DSETH` -/
  | set (a : Access) (n : NBytes) (S : Spec) (v : Phys) (p : SetPhase)
  /-- `ADCGET`; `sel` false asks for sub-field 0, true for sub-field 1 -/
  | adcget (S : Spec) (sel : Bool) (v0 v1 : Phys) (p : AdcPhase)
  /-- `ENCZ` -/
  | encz (v : Phys) (S : Spec)
  /-- `QNT` -/
  | qnt (v : Phys) (S : Spec) (p : QntPhase)
  /-- `BSET` -/
  | bset (w : RegWord) (S : Spec)
  /-- `BCLR` -/
  | bclr (w : RegWord) (S : Spec)
  /-- a bare `MemRead` -/
  | memRead (addr : Byte) (n : NBytes) (p : ReadPhase)
  /-- a bare `MemWrite` of one byte -/
  | memWrite1 (addr : Byte) (b0 : Byte)
  /-- a bare `MemWrite` of two bytes -/
  | memWrite2 (addr : Byte) (b0 b1 : Byte) (p : WritePhase)
  /-- one request of the thread's own, for example `RDST` or `CLRF` -/
  | issue (r : Request)
  deriving DecidableEq, Repr

/-- What a finished sequence returned to its thread. -/
inductive Result where
  /-- a physical value and a status: `GET`, `ADCGET`, `QNT` -/
  | value (phys : Phys) (status : Bool)
  /-- a status: `SET`, `MemWrite` -/
  | status (st : Bool)
  /-- a status and the bytes read: `MemRead` -/
  | bytes (st : Bool) (bs : List Byte)
  /-- a response as it is: `ENCZ`, `BSET`, `BCLR`, a request of the thread's own -/
  | response (r : Response)
  deriving DecidableEq, Repr

/-- A host thread: the sequences it has still to run, the one in progress first, and the results of those it
has finished, the newest first (rules R36, R119 and R128). -/
structure Thread where
  jobs : List Job
  done : List Result
  deriving DecidableEq, Repr

/-- One thing the outside world does. -/
inductive Event where
  /-- a request is presented on the port (rule R16) -/
  | request (r : Request)
  /-- `rst` is asserted between requests (rules R121 and R122) -/
  | reset
  /-- thread `k` takes its next step. If that step starts a bus transfer, `busFail` says whether the transfer
  fails (rules R28 and R29) and `whole` whether both bytes of a two-byte transfer travel in this one step
  (rule R36) or only the first (rule R130) -/
  | thread (k : Nat) (busFail whole : Bool)
  /-- another agent stores a byte in the register space (rules R25, R36 and R127) -/
  | agentWrite (addr : Byte) (b : Byte)
  deriving DecidableEq, Repr

/-- The state of the machine. -/
structure State where
  /-- `STATUS.FAIL`, the one bit of state of the block (rule R17) -/
  fail    : Bool
  /-- the response port (rule R16): the response of the last request, or nothing before the first request,
  when "the response port has no defined value" (rule R23) -/
  rsp     : Option Response
  /-- the register byte space of the simulated IC (rule R25) -/
  mem     : Memory
  /-- the host's threads (rule R119) -/
  threads : List Thread
  /-- what the outside world does next, in order (rules R14, R37 and R128) -/
  inputs  : List Event
  deriving DecidableEq, Repr

/-- The state right after reset and launch: `STATUS = 0x00` (rules R23 and R121), nothing on the response port,
nothing listed in memory, no host thread, nothing presented. -/
def State.reset : State :=
  { fail := false, rsp := none, mem := [], threads := [], inputs := [] }

end Sys2Proof.Machine
end

