-- ==== Sys2Proof/Machine/Flags.lean ====
section
/-!
DEFINITION. The sticky flag, the status register and the codes of a response (rules R17 to R19 and R24 of
spec/10_state.md, rules R40 and R107). `STATUS.FAIL` is the only flag: clamping and field overflow set nothing.
-/

namespace Sys2Proof.Machine

open Sys2Proof

variable {C : Config.Params}

/-- `STATUS`, 8 bits, of a flag: bit 0 is `FAIL`; bits 7:1 read as 0 and nothing writes them (rules R17 and R18). -/
def statusOf (fail : Bool) : BitVec 8 := 0#7 ++ BitVec.ofBool fail

/-- `STATUS` of the machine (rule R17). -/
def State.statusReg (s : State) : BitVec 8 := statusOf s.fail

/-- The output `fail_o`, equal to `STATUS.FAIL` at all times (rule R19). -/
def State.failO (s : State) : Bool := s.fail

/-- The two bits of `rsp.cause` (rules R40 and R107). -/
def Cause.code : Cause → BitVec 2
  | .none => 0
  | .readFail => 1
  | .badSpec => 2
  | .badOp => 3

/-- The bit of `rsp.status`: 0 success, 1 failure (rule R40). -/
def PortResponse.statusBit (r : PortResponse C) : BitVec 1 := BitVec.ofBool r.status

/-- A response that reports success (rule R107). -/
def PortResponse.success (wordOut : RegWord) (physOut : BitVec C.PW) : PortResponse C :=
  { status := false, cause := .none, wordOut := wordOut, physOut := physOut }

/-- `fail(cause)`: `status = 1`, the cause, every other output 0 (rule R10 of spec/00_scope.md). -/
def PortResponse.failed (cause : Cause) : PortResponse C :=
  { status := true, cause := cause, wordOut := 0, physOut := 0 }

/-- What every response satisfies (rules R40, R107, R110): the status is 1 exactly when there is a cause; a
`BAD_SPEC` or a `BAD_OP` drives no data; no operation drives both data outputs; a failed read decodes to 0. -/
def PortResponse.wf (r : PortResponse C) : Bool :=
  (r.status == (r.cause != .none)) && (r.wordOut == 0 || r.physOut == 0) &&
    (r.cause == .none || r.physOut == 0) && (r.cause == .none || r.cause == .readFail || r.wordOut == 0)

end Sys2Proof.Machine
end

