-- ==== Sys2Proof/Decode.lean ====
section
/-!
DEFINITION. Reading a request, and writing one (spec/30_encoding.md).

Three layers, each with its inverse: the 160-bit descriptor (rule R47), the request record as an instruction
(rules R41 and R42), and the record as one bit string of 213 bits (rule R39), written as 27 bytes with the most
significant first as spec/95_test_vectors.md prints it. Every record decodes: each value of the operation code
is one row of the table (rule R57). Only a byte string that is no record is rejected, by name.
-/

namespace Sys2Proof

/-! ## The descriptor (rule R47)

The layout is that of the default parameters, the only ones for which the rule defines one. -/

/-- `Wk = spec[32k+31 : 32k]`, one of the five words of a descriptor. -/
def specWord (raw : BitVec 160) (k : Nat) : BitVec 32 := raw.extractLsb' (32 * k) 32

/-- The tag `KIND`, bits 17:16 of W0 (rule R46). -/
def specKind (raw : BitVec 160) : BitVec 2 := (specWord raw 0).extractLsb' 16 2

/-- The field `ADDR`, bits 15:0 of W0, at the same place in every kind. -/
def specAddr (raw : BitVec 160) : BitVec 16 := (specWord raw 0).extractLsb' 0 16

/-- The reserved bits that every kind has, W0[31:18] and W1[31:16], are zero. -/
def commonReservedZero (raw : BitVec 160) : Bool :=
  (specWord raw 0).extractLsb' 18 14 == 0 && (specWord raw 1).extractLsb' 16 16 == 0

/-- The reserved bits that only kinds 0 and 2 have, W1[7:5], W1[15:13] and W4[31:16], are zero. -/
def fieldReservedZero (raw : BitVec 160) : Bool :=
  (specWord raw 1).extractLsb' 5 3 == 0 && (specWord raw 1).extractLsb' 13 3 == 0 &&
    (specWord raw 4).extractLsb' 16 16 == 0

/-- The fields of a descriptor of kind 0 or 2. -/
def readFieldSpec (raw : BitVec 160) : FieldSpec Config.PW Config.RW where
  addr   := specAddr raw
  width  := (specWord raw 1).extractLsb' 0 5
  offset := (specWord raw 1).extractLsb' 8 5
  res    := (specWord raw 4).extractLsb' 0 16
  minVal := specWord raw 2
  maxVal := specWord raw 3

/-- The fields of a descriptor of kind 1. -/
def readDualSpec (raw : BitVec 160) : DualSpec Config.PW Config.RW where
  addr := specAddr raw
  sub0 := { minVal := specWord raw 2
            mask   := (specWord raw 1).extractLsb' 0 8
            res    := (specWord raw 4).extractLsb' 0 16 }
  sub1 := { minVal := specWord raw 3
            mask   := (specWord raw 1).extractLsb' 8 8
            res    := (specWord raw 4).extractLsb' 16 16 }

/-- The descriptor that 160 bits stand for (rules R46, R47 and R53). -/
def decodeSpec (raw : BitVec 160) : Spec :=
  if commonReservedZero raw then
    match (specKind raw).toNat with
    | 0 => if fieldReservedZero raw then .scalar (readFieldSpec raw) else .illegal raw
    | 1 => .dual (readDualSpec raw)
    | 2 => if fieldReservedZero raw then .bitfield (readFieldSpec raw) else .illegal raw
    | _ => .illegal raw
  else .illegal raw

/-- The 160 bits of five words, `w4` the most significant. -/
def joinWords (w4 w3 w2 w1 w0 : BitVec 32) : BitVec 160 := w4 ++ w3 ++ w2 ++ w1 ++ w0

/-- W0 of a legal descriptor: reserved bits, `KIND`, `ADDR`. -/
def writeWord0 (kind : BitVec 2) (addr : BitVec 16) : BitVec 32 := 0#14 ++ kind ++ addr

/-- The 160 bits of a descriptor of kind 0 or 2. -/
def writeFieldSpec (kind : BitVec 2) (S : FieldSpec Config.PW Config.RW) : BitVec 160 :=
  joinWords (0#16 ++ S.res) S.maxVal S.minVal (0#16 ++ 0#3 ++ S.offset ++ 0#3 ++ S.width) (writeWord0 kind S.addr)

/-- The 160 bits of a descriptor of kind 1. -/
def writeDualSpec (S : DualSpec Config.PW Config.RW) : BitVec 160 :=
  joinWords (S.sub1.res ++ S.sub0.res) S.sub1.minVal S.sub0.minVal (0#16 ++ S.sub1.mask ++ S.sub0.mask)
    (writeWord0 1 S.addr)

/-- The 160 bits of a descriptor, the inverse of `decodeSpec`. -/
def encodeSpec (S : Spec) : BitVec 160 :=
  match S with
  | .scalar S => writeFieldSpec 0 S
  | .dual S => writeDualSpec S
  | .bitfield S => writeFieldSpec 2 S
  | .illegal raw => raw

/-! ## The operation codes (rules R41, R52 and R57) -/

/-- The three formats of rule R42, and the reserved rows, which have none. -/
inductive Format where
  /-- physical to register -/
  | P
  /-- register to physical -/
  | W
  /-- no operand -/
  | N
  | reserved
  deriving DecidableEq, Repr

/-- One row of spec/opcode_table.json. -/
structure OpRow where
  mnemonic : String
  format   : Format
  pattern  : BitVec 4
  mask     : BitVec 4
  deriving DecidableEq, Repr

/-- The table: one row per operation of rule R41 and two rows for the reserved range (rule R57). -/
def opTable : List OpRow :=
  [ ⟨"NOP", .N, 0x0, 0xF⟩, ⟨"ENC", .P, 0x1, 0xF⟩, ⟨"DEC", .W, 0x2, 0xF⟩, ⟨"BFI", .P, 0x3, 0xF⟩,
    ⟨"BFX", .W, 0x4, 0xF⟩, ⟨"DENCL", .P, 0x5, 0xF⟩, ⟨"DENCH", .P, 0x6, 0xF⟩, ⟨"DDECL", .W, 0x7, 0xF⟩,
    ⟨"DDECH", .W, 0x8, 0xF⟩, ⟨"RDST", .N, 0x9, 0xF⟩, ⟨"CLRF", .N, 0xA, 0xF⟩,
    ⟨"RESERVED_B", .reserved, 0xB, 0xF⟩, ⟨"RESERVED_C_F", .reserved, 0xC, 0xC⟩ ]

/-- A row matches when `op & mask = match` (rule R57). -/
def OpRow.matches (row : OpRow) (op : BitVec 4) : Bool := op &&& row.mask == row.pattern

/-- The mnemonic of an instruction's row. -/
def Instr.mnemonic : Instr → String
  | .nop => "NOP"
  | .enc _ _ _ _ => "ENC"
  | .dec _ _ _ => "DEC"
  | .bfi _ _ _ _ => "BFI"
  | .bfx _ _ _ => "BFX"
  | .dencl _ _ _ _ => "DENCL"
  | .dench _ _ _ _ => "DENCH"
  | .ddecl _ _ _ => "DDECL"
  | .ddech _ _ _ => "DDECH"
  | .rdst => "RDST"
  | .clrf => "CLRF"
  | .reservedB => "RESERVED_B"
  | .reservedCF _ => "RESERVED_C_F"

/-! ## A request and its instruction -/

/-- The field record that a request at the default parameters carries (rules R39 and R47). -/
def Request.record (r : Request) : PortRequest Config.standard :=
  { op := r.op, spec := decodeSpec r.spec, physIn := r.physIn, wordIn := r.wordIn, rdFail := r.rdFail }

/-- The instruction a request stands for: the operation code selects the row, and the fields that the row's
format does not read are dropped, since they "may hold any value" and have no effect (rule R42). -/
def decode (r : Request) : Instr :=
  match r.op.toNat with
  | 0x0 => .nop
  | 0x1 => .enc r.physIn r.wordIn (decodeSpec r.spec) r.rdFail
  | 0x2 => .dec r.wordIn (decodeSpec r.spec) r.rdFail
  | 0x3 => .bfi r.physIn r.wordIn (decodeSpec r.spec) r.rdFail
  | 0x4 => .bfx r.wordIn (decodeSpec r.spec) r.rdFail
  | 0x5 => .dencl r.physIn r.wordIn (decodeSpec r.spec) r.rdFail
  | 0x6 => .dench r.physIn r.wordIn (decodeSpec r.spec) r.rdFail
  | 0x7 => .ddecl r.wordIn (decodeSpec r.spec) r.rdFail
  | 0x8 => .ddech r.wordIn (decodeSpec r.spec) r.rdFail
  | 0x9 => .rdst
  | 0xA => .clrf
  | 0xB => .reservedB
  | _ => .reservedCF (r.op.extractLsb' 0 2)

/-- A request whose format reads no operand; the fields it does not read are written as zero. -/
def bareRequest (op : BitVec 4) : Request := { op := op, spec := 0, physIn := 0, wordIn := 0, rdFail := false }

/-- A request of format W; `phys_in`, which it does not read, is written as zero. -/
def wordRequest (op : BitVec 4) (w : RegWord) (S : Spec) (rdFail : Bool) : Request :=
  { op := op, spec := encodeSpec S, physIn := 0, wordIn := w, rdFail := rdFail }

/-- A request of format P. -/
def physRequest (op : BitVec 4) (v : Phys) (w : RegWord) (S : Spec) (rdFail : Bool) : Request :=
  { op := op, spec := encodeSpec S, physIn := v, wordIn := w, rdFail := rdFail }

/-- The request of an instruction (rules R39 and R41), the inverse of `decode` on well-formed instructions. -/
def encode (i : Instr) : Request :=
  match i with
  | .nop => bareRequest 0x0
  | .enc v w S f => physRequest 0x1 v w S f
  | .dec w S f => wordRequest 0x2 w S f
  | .bfi v w S f => physRequest 0x3 v w S f
  | .bfx w S f => wordRequest 0x4 w S f
  | .dencl v w S f => physRequest 0x5 v w S f
  | .dench v w S f => physRequest 0x6 v w S f
  | .ddecl w S f => wordRequest 0x7 w S f
  | .ddech w S f => wordRequest 0x8 w S f
  | .rdst => bareRequest 0x9
  | .clrf => bareRequest 0xA
  | .reservedB => bareRequest 0xB
  | .reservedCF low => bareRequest (0b11#2 ++ low)

/-! ## The record as one bit string (rule R39) -/

/-- The length of the record: `4 + 160 + PW + 16 + 1` bits, 213 for `PW = 32`. -/
abbrev recordBits : Nat := 4 + 160 + Config.PW + 16 + 1

/-- The record, most significant field first: `op`, `spec`, `phys_in`, `word_in`, `rd_fail`. -/
def Request.toBits (r : Request) : BitVec recordBits :=
  r.op ++ r.spec ++ r.physIn ++ r.wordIn ++ BitVec.ofBool r.rdFail

/-- The request whose record is given, the inverse of `Request.toBits`. -/
def Request.ofBits (b : BitVec recordBits) : Request where
  op     := b.extractLsb' (160 + Config.PW + 16 + 1) 4
  spec   := b.extractLsb' (Config.PW + 16 + 1) 160
  physIn := b.extractLsb' (16 + 1) Config.PW
  wordIn := b.extractLsb' 1 16
  rdFail := b.getLsbD 0

/-- Why a byte string is no request record. -/
inductive DecodeError where
  /-- it is not 27 bytes long -/
  | wrongLength
  /-- one of the three leading bits, which pad 213 bits to 27 bytes, is not zero -/
  | nonzeroPadding
  deriving DecidableEq, Repr

/-- The number of bytes that a record takes when written out. -/
def recordBytes : Nat := 27

/-- The number a byte string stands for, most significant byte first. -/
def bytesToNat : List Byte → Nat → Nat
  | [], acc => acc
  | b :: bs, acc => bytesToNat bs (acc * 256 + b.toNat)

/-- The `k` low bytes of a number, most significant byte first. -/
def natToBytes : Nat → Nat → List Byte
  | 0, _ => []
  | k + 1, n => BitVec.ofNat 8 (n / 256 ^ k) :: natToBytes k n

/-- The request that a byte string stands for; total on any bytes, rejecting by name. -/
def readRecord (bs : List Byte) : Except DecodeError Request :=
  if bs.length = recordBytes then
    if bytesToNat bs 0 < 2 ^ recordBits then .ok (Request.ofBits (BitVec.ofNat recordBits (bytesToNat bs 0)))
    else .error .nonzeroPadding
  else .error .wrongLength

/-- The byte string of a request, the inverse of `readRecord`. -/
def writeRecord (r : Request) : List Byte := natToBytes recordBytes r.toBits.toNat

/-- The instruction that a byte string stands for. -/
def decodeBytes (bs : List Byte) : Except DecodeError Instr :=
  match readRecord bs with
  | .ok r => .ok (decode r)
  | .error e => .error e

/-- The byte string of an instruction. -/
def encodeBytes (i : Instr) : List Byte := writeRecord (encode i)

/-! ## The host's numbering -/

/-- The request whose bits are `w` as spec/opcode_table.json numbers them. The table numbers `op[3:0]` alone, as
bits 3 to 0 (rules R39 and R57); every other field of the request is zero. -/
def tableRequest (w : Nat) : Request := bareRequest (BitVec.ofNat 4 w)

/-- The instruction the decoder reads from the table's word `w`. The table gives a row 4 bits, so a word of more
bits is no instruction of the table. The record goes through its byte string, as any other does. -/
def decodeTableWord (_nbits w : Nat) : Option Instr :=
  if w < 16 then
    match decodeBytes (writeRecord (tableRequest w)) with
    | .ok i => some i
    | .error _ => none
  else none

end Sys2Proof
end

