-- ==== Sys2Proof/Machine/Operands.lean ====
section
/-!
DEFINITION. The operands of an operation: where a field sits in the word (rules R50 and R51 of
spec/30_encoding.md) and which descriptors an operation accepts (`SpecOK`, rule R49).

Everything here is over the field record, for any `pw` and `rw` (rule R6 of spec/00_scope.md).
-/

namespace Sys2Proof

variable {pw rw : Nat}

/-! ## Field placement -/

/-- `wm(S) = 2^WIDTH - 1`, the width mask (rule R50). -/
def FieldSpec.wm (S : FieldSpec pw rw) : Nat := 2 ^ S.width.toNat - 1

/-- `fm(S) = wm(S) << OFFSET`, the field mask in the word (rule R50). -/
def FieldSpec.fm (S : FieldSpec pw rw) : RegWord := BitVec.ofNat 16 (S.wm <<< S.offset.toNat)

/-- The field of a word, `(w >> OFFSET) & wm(S)` (rule R50). -/
def FieldSpec.fieldOf (S : FieldSpec pw rw) (w : RegWord) : Nat := (w.toNat >>> S.offset.toNat) &&& S.wm

/-- A field value placed in the word, `f << OFFSET` (rule R50). -/
def FieldSpec.place (S : FieldSpec pw rw) (f : Nat) : RegWord := BitVec.ofNat 16 (f <<< S.offset.toNat)

/-- The low byte of a word, `w[7:0]` (rule R10 of spec/00_scope.md). -/
def lowByte (w : RegWord) : Byte := w.extractLsb' 0 8

/-- The high byte of a word, `w[15:8]` (rule R10 of spec/00_scope.md). -/
def highByte (w : RegWord) : Byte := w.extractLsb' 8 8

/-- The field mask in the word of sub-field 0, `fm0(S) = MASK0` (rule R51). -/
def SubField.fmLow (F : SubField pw rw) : RegWord := F.mask.zeroExtend 16

/-- The field mask in the word of sub-field 1, `fm1(S) = MASK1 << 8` (rule R51). -/
def SubField.fmHigh (F : SubField pw rw) : RegWord := F.mask.zeroExtend 16 <<< 8

/-- The implied upper bound `MAXi = MINi + MASKi * RESi` of a sub-field (rule R77 of spec/41_dual_codec.md). -/
def SubField.impliedMax (F : SubField pw rw) : Int := F.minVal.toInt + F.mask.toNat * F.res.toNat

/-! ## Which descriptors an operation accepts -/

/-- `SpecOK` for `ENC` and `DEC` on the fields of a descriptor of kind 0 (rule R49). -/
def FieldSpec.scalarOk (S : FieldSpec pw rw) : Bool :=
  decide (S.offset.toNat + S.width.toNat ≤ 16) && decide (S.minVal.toInt ≤ S.maxVal.toInt) &&
    decide (1 ≤ S.res.toNat) && decide (S.minVal.toInt + S.wm * S.res.toNat ≤ pmax pw)

/-- `SpecOK` for `BFI` and `BFX` on the fields of a descriptor of kind 2 (rules R45 and R49). -/
def FieldSpec.bitfieldOk (S : FieldSpec pw rw) : Bool :=
  decide (S.offset.toNat + S.width.toNat ≤ 16) && decide (S.minVal.toInt = 0) &&
    decide (S.res.toNat = 1) && decide (S.maxVal.toInt = S.wm)

/-- What `SpecOK` asks of one sub-field of a dual-value descriptor (rule R49). -/
def SubField.ok (F : SubField pw rw) : Bool :=
  decide (1 ≤ F.res.toNat) && decide (F.impliedMax ≤ pmax pw)

/-- `SpecOK` for the dual-value operations on the fields of a descriptor of kind 1: both sub-fields are checked
whichever half the operation addresses (rules R49 and R81). -/
def DualSpec.ok (S : DualSpec pw rw) : Bool := S.sub0.ok && S.sub1.ok

/-- The fields that `ENC` and `DEC` work with, if `SpecOK` holds of the descriptor for them (rules R46, R49). -/
def Descriptor.forScalar : Descriptor pw rw → Option (FieldSpec pw rw)
  | .scalar S => if S.scalarOk then some S else none
  | .dual _ => none
  | .bitfield _ => none
  | .illegal _ => none

/-- The fields that `BFI` and `BFX` work with, if `SpecOK` holds of the descriptor for them (rules R46, R49). -/
def Descriptor.forBitfield : Descriptor pw rw → Option (FieldSpec pw rw)
  | .scalar _ => none
  | .dual _ => none
  | .bitfield S => if S.bitfieldOk then some S else none
  | .illegal _ => none

/-- The fields that `DENCL`, `DENCH`, `DDECL` and `DDECH` work with, if `SpecOK` holds of the descriptor for them
(rules R46, R49). -/
def Descriptor.forDual : Descriptor pw rw → Option (DualSpec pw rw)
  | .scalar _ => none
  | .dual S => if S.ok then some S else none
  | .bitfield _ => none
  | .illegal _ => none

/-- `SpecOK(op, S)` of rule R49 for the operation and the descriptor of an instruction. Format N and the reserved
codes read no descriptor (rules R52 and R53). -/
def Instr.specOk : Instr → Bool
  | .nop => true
  | .enc _ _ S _ => S.forScalar.isSome
  | .dec _ S _ => S.forScalar.isSome
  | .bfi _ _ S _ => S.forBitfield.isSome
  | .bfx _ S _ => S.forBitfield.isSome
  | .dencl _ _ S _ => S.forDual.isSome
  | .dench _ _ S _ => S.forDual.isSome
  | .ddecl _ S _ => S.forDual.isSome
  | .ddech _ S _ => S.forDual.isSome
  | .rdst => true
  | .clrf => true
  | .reservedB => true
  | .reservedCF _ => true

/-- `rd_fail` of an instruction that reads a word (formats P and W), false for the others (rule R42). -/
def Instr.readFailed : Instr → Bool
  | .nop => false
  | .enc _ _ _ f => f
  | .dec _ _ f => f
  | .bfi _ _ _ f => f
  | .bfx _ _ f => f
  | .dencl _ _ _ f => f
  | .dench _ _ _ f => f
  | .ddecl _ _ f => f
  | .ddech _ _ f => f
  | .rdst => false
  | .clrf => false
  | .reservedB => false
  | .reservedCF _ => false

/-- The bus address of a descriptor, `ADDR[7:0]` (rule R26 of spec/20_memory.md). `ADDR` is at the same place in
every kind, so an illegal descriptor has one too. -/
def busAddr (S : Spec) : Byte :=
  match S with
  | .scalar S => S.addr.extractLsb' 0 8
  | .dual S => S.addr.extractLsb' 0 8
  | .bitfield S => S.addr.extractLsb' 0 8
  | .illegal raw => (specAddr raw).extractLsb' 0 8

end Sys2Proof
end

