-- ==== Sys2Proof/Machine/Ops.lean ====
section
/-!
DEFINITION. The shared operations: the arithmetic of rules R10 and R62, the merge of rule R59, the acceptance
procedure of rule R112 with what a failure does, and the register byte space of rule R25.

The block has no trap. What stands in the place of taking one is the acceptance procedure (`accept`), and what
stands in the place of the return is `CLRF` (rules R113 and R115 of spec/60_exceptions.md).
-/

namespace Sys2Proof

/-! ## Arithmetic on unbounded integers -/

/-- `clamp(v, lo, hi)` (rule R10). -/
def clamp (v lo hi : Int) : Int := if v < lo then lo else if v > hi then hi else v

/-- `fdiv(a, b) = floor(a / b)` for `b > 0` (rule R10). -/
def fdiv (a b : Int) : Int := a / b

/-- `fdiv(clamp(v, lo, hi) - lo, res)`, the quantized value (rules R11 and R59). -/
def quantize (lo hi res v : Int) : Int := fdiv (clamp v lo hi - lo) res

/-- The merge of rule R59: the field is cleared in the destination, then the new field is ORed in. -/
def merge (w fm field : RegWord) : RegWord := (w &&& ~~~fm) ||| field

/-! ## Bytes and words -/

/-- `Pack16(b0, b1) = {b1, b0}` (rule R27 of spec/20_memory.md). -/
def pack16 (b0 b1 : Byte) : RegWord := b1 ++ b0

/-- `Unpack16(w) = (w[7:0], w[15:8])` (rule R27 of spec/20_memory.md). -/
def unpack16 (w : RegWord) : Byte × Byte := (lowByte w, highByte w)

end Sys2Proof

namespace Sys2Proof.Machine

open Sys2Proof

/-! ## The block

The block is a function of `STATUS.FAIL` and a request (rules R15 and R16 of spec/10_state.md), at any parameters. -/

variable {C : Config.Params}

/-- What an operation does: `STATUS.FAIL` after it, and the response (rule R16). -/
structure Effect (C : Config.Params) where
  fail : Bool
  rsp  : PortResponse C
  deriving DecidableEq, Repr

/-- What an accepted operation goes on with: `rf`, whether the read failed, and `w`, the word it takes. -/
structure Accepted where
  rf : Bool
  w  : RegWord
  deriving DecidableEq, Repr

/-- `Accept` of rule R112 for an operation of format P or W, followed by the operation's own response. `spec` holds
the descriptor's fields if `SpecOK` holds, and nothing if it does not. `BAD_SPEC` comes before `READ_FAIL`; a failed
read sets `STATUS.FAIL` and takes the word as `0x0000` (rules R109 to R111). -/
def accept {α : Type} (spec : Option α) (rdFail : Bool) (w : RegWord) (fail : Bool) (body : α → Accepted → PortResponse C) :
    Effect C :=
  match spec with
  | none => { fail := fail, rsp := PortResponse.failed .badSpec }
  | some S =>
    if rdFail then { fail := true, rsp := body S { rf := true, w := 0x0000 } }
    else { fail := fail, rsp := body S { rf := false, w := w } }

/-- The response of an accepted encode: the word is produced whether or not the read failed (rule R110). -/
def Accepted.encoded (a : Accepted) (word : RegWord) : PortResponse C :=
  { status := a.rf, cause := if a.rf then .readFail else .none, wordOut := word, physOut := 0 }

/-- The response of an accepted decode: a failed read decodes to 0, not to `MIN` (rule R110). -/
def Accepted.decoded (a : Accepted) (phys : BitVec C.PW) : PortResponse C :=
  if a.rf then PortResponse.failed .readFail else PortResponse.success 0 phys

/-- An operation of format N: `status = 0`, `cause = NONE` always (rule R89). -/
def answer (phys : BitVec C.PW) (fail : Bool) : Effect C := { fail := fail, rsp := PortResponse.success 0 phys }

/-- A reserved operation code: `BAD_OP`, all other outputs 0, no state change (rule R52). -/
def rejectOp (fail : Bool) : Effect C := { fail := fail, rsp := PortResponse.failed .badOp }

/-! ## The machine around the block -/

/-- The effect of an operation on the machine: the flag, and the response on the response port. -/
def State.settle (s : State) (e : Effect Config.standard) : State := { s with fail := e.fail, rsp := some e.rsp }

/-- `rst`: `STATUS = 0x00`, and the response port has no defined value until the next request (rules R23, R121 and
R122). The host's side is not the block's to reset. -/
def State.resetBlock (s : State) : State := { s with fail := false, rsp := none }

/-! ## The register byte space (rule R25) -/

/-- The byte that the memory lists at an address, if it lists one. -/
def Memory.find : Memory → Nat → Option Byte
  | [], _ => none
  | (k, b) :: rest, a => if k = a then some b else Memory.find rest a

/-- The byte at an address: the one listed, or the launch content (rule R123 of spec/70_reset_and_hazards.md). -/
def Memory.readByte (m : Memory) (a : Byte) : Byte :=
  (Memory.find m a.toNat).getD (Config.launchByte a.toNat)

/-- The memory with a byte put at an address, in its place in the rising order. -/
def Memory.put : Memory → Nat → Byte → Memory
  | [], a, b => [(a, b)]
  | (k, c) :: rest, a, b =>
    if a < k then (a, b) :: (k, c) :: rest
    else if a = k then (a, b) :: rest
    else (k, c) :: Memory.put rest a b

/-- A byte is stored at an address. -/
def Memory.writeByte (m : Memory) (a b : Byte) : Memory := Memory.put m a.toNat b

/-- Every address listed is at least `lo`, and they rise strictly. -/
def Memory.risingFrom : Nat → Memory → Bool
  | _, [] => true
  | lo, (k, _) :: rest => decide (lo ≤ k) && Memory.risingFrom (k + 1) rest

/-- Every address listed is an address of the bus, which has 8 bits (rule R26). -/
def Memory.inSpace : Memory → Bool
  | [] => true
  | (k, _) :: rest => decide (k < 256) && Memory.inSpace rest

/-- The canonical form of the memory: the addresses rise strictly and are addresses of the bus. -/
def Memory.wf (m : Memory) : Bool := Memory.risingFrom 0 m && Memory.inSpace m

end Sys2Proof.Machine
end

