-- ==== Sys2Proof/Machine/Scalar.lean ====
section
/-!
DEFINITION. `ENC` and `DEC` (spec/40_scalar_codec.md).
-/

namespace Sys2Proof

variable {pw rw : Nat}

/-- `q = fdiv(clamp(v, MIN, MAX) - MIN, RES)`, the quantized value of a scalar descriptor (rule R59). -/
def FieldSpec.quantized (S : FieldSpec pw rw) (v : Int) : Int :=
  quantize S.minVal.toInt S.maxVal.toInt S.res.toNat v

/-- `field(v, S) = q & wm(S)` (rule R59 and section 3 of the file). -/
def FieldSpec.fieldFor (S : FieldSpec pw rw) (v : Int) : Nat := (S.quantized v).toNat &&& S.wm

/-- The word that `ENC` produces (rule R59). -/
def FieldSpec.encodeWord (S : FieldSpec pw rw) (v : Int) (w : RegWord) : RegWord :=
  merge w S.fm (S.place (S.fieldFor v))

/-- The physical value that `DEC` produces, exactly (rule R60): no clamp. -/
def FieldSpec.decodeValue (S : FieldSpec pw rw) (w : RegWord) : Int :=
  S.fieldOf w * S.res.toNat + S.minVal.toInt

/-- `Q(v, S) = MIN + fdiv(clamp(v) - MIN, RES) * RES` (section 3 of the file). -/
def FieldSpec.Q (S : FieldSpec pw rw) (v : Int) : Int := S.minVal.toInt + S.quantized v * S.res.toNat

/-- `Fits(S)`: the largest quantized value the clamp lets through fits the field (rule R63). It is no part of
`SpecOK`. -/
def FieldSpec.fits (S : FieldSpec pw rw) : Bool :=
  decide (fdiv (S.maxVal.toInt - S.minVal.toInt) S.res.toNat ≤ S.wm)

end Sys2Proof

namespace Sys2Proof.Machine

open Sys2Proof

variable {C : Config.Params}

/-- `ENC` (rule R59) of the block: encode a physical value into a field of a register word. -/
def Block.enc (v : BitVec C.PW) (w : RegWord) (S : Descriptor C.PW C.RW) (rdFail fail : Bool) : Effect C :=
  accept S.forScalar rdFail w fail fun F a => a.encoded (F.encodeWord v.toInt a.w)

/-- `DEC` (rule R60) of the block: decode a field of a register word into a physical value. -/
def Block.dec (w : RegWord) (S : Descriptor C.PW C.RW) (rdFail fail : Bool) : Effect C :=
  accept S.forScalar rdFail w fail fun F a => a.decoded (BitVec.ofInt C.PW (F.decodeValue a.w))

/-- `ENC` in the machine. -/
def execEnc (v : Phys) (w : RegWord) (S : Spec) (rdFail : Bool) (s : State) : Host.Outcome State Fault Refusal :=
  .next (s.settle (Block.enc v w S rdFail s.fail))

/-- `DEC` in the machine. -/
def execDec (w : RegWord) (S : Spec) (rdFail : Bool) (s : State) : Host.Outcome State Fault Refusal :=
  .next (s.settle (Block.dec w S rdFail s.fail))

end Sys2Proof.Machine
end

