-- ==== Sys2Proof/Machine/Bus.lean ====
section
/-!
DEFINITION. The host's bus primitives (rules R27 to R29 and R34 to R36 of spec/20_memory.md), and how a transfer
of two bytes moves when its bytes travel in separate steps (rule R130 of spec/70_reset_and_hazards.md).

The status of a transfer is settled when it starts. A transfer of two bytes at 0xFF is refused before any of these
is called (`offEnd`).
-/

namespace Sys2Proof.Machine

open Sys2Proof

/-- A two-byte access at 0xFF: its second byte has no bus address, and the host must not issue it (rule R35). -/
def offEnd (addr : Byte) (n : NBytes) : Bool := n == .two && addr == 0xFF

/-- `MemRead(addr, n)`: the status, and the bytes read; a failed read fills the buffer with zero (rule R28). -/
def memRead (m : Memory) (addr : Byte) (n : NBytes) (busFail : Bool) : Bool × List Byte :=
  match n with
  | .one => if busFail then (true, [0]) else (false, [m.readByte addr])
  | .two => if busFail then (true, [0, 0]) else (false, [m.readByte addr, m.readByte (addr + 1)])

/-- The bytes stored at consecutive addresses, the first at `addr`. -/
def storeBytes (m : Memory) (addr : Byte) : List Byte → Memory
  | [] => m
  | b :: bs => storeBytes (m.writeByte addr b) (addr + 1) bs

/-- `MemWrite(addr, n, bytes)`: the status, and the memory; a failed write changes no byte (rule R29). -/
def memWrite (m : Memory) (addr : Byte) (bs : List Byte) (busFail : Bool) : Bool × Memory :=
  if busFail then (true, m) else (false, storeBytes m addr bs)

/-- The word of the bytes a read returned: `Pack16` of two bytes, and `Pack16(b0, 0x00)` of one (rules R27, R34). -/
def wordOfBytes : List Byte → RegWord
  | [] => 0
  | [b0] => pack16 b0 0
  | b0 :: b1 :: _ => pack16 b0 b1

/-- The bytes of a word that a write of `n` bytes stores: a one-byte register takes `w[7:0]` alone (rule R34). -/
def bytesOfWord (w : RegWord) : NBytes → List Byte
  | .one => [lowByte w]
  | .two => [lowByte w, highByte w]

/-- What one step does of a read: all that is left of it, or the first of two bytes. -/
inductive ReadMove where
  | finished (st : Bool) (bs : List Byte)
  | firstByte (b0 : Byte)
  deriving DecidableEq, Repr

/-- A read starts. -/
def startRead (m : Memory) (addr : Byte) (n : NBytes) (busFail whole : Bool) : ReadMove :=
  if n == .two && !busFail && !whole then .firstByte (m.readByte addr)
  else .finished (memRead m addr n busFail).1 (memRead m addr n busFail).2

/-- The second byte of a read travels; the bytes read are the old first one and this one. -/
def finishRead (m : Memory) (addr b0 : Byte) : List Byte := [b0, m.readByte (addr + 1)]

/-- What one step does of a write: all that is left of it, or the first of two bytes, with the second still to do. -/
inductive WriteMove where
  | finished (st : Bool) (m : Memory)
  | firstByte (m : Memory) (b1 : Byte)
  deriving DecidableEq, Repr

/-- A write starts. -/
def startWrite (m : Memory) (addr : Byte) (bs : List Byte) (busFail whole : Bool) : WriteMove :=
  match bs with
  | [] => .finished (memWrite m addr [] busFail).1 (memWrite m addr [] busFail).2
  | [b0] => .finished (memWrite m addr [b0] busFail).1 (memWrite m addr [b0] busFail).2
  | b0 :: b1 :: rest =>
    if !busFail && !whole then .firstByte (m.writeByte addr b0) b1
    else .finished (memWrite m addr (b0 :: b1 :: rest) busFail).1 (memWrite m addr (b0 :: b1 :: rest) busFail).2

/-- The addresses that a write of `n` bytes stores to in the step that starts it. -/
def startWriteAddrs (addr : Byte) (n : NBytes) (busFail whole : Bool) : List Byte :=
  if busFail then []
  else match n with
    | .one => [addr]
    | .two => if whole then [addr, addr + 1] else [addr]

end Sys2Proof.Machine
end

