-- ==== Sys2Proof/Machine/Bitfield.lean ====
section
/-!
DEFINITION. `BFI` and `BFX` (spec/42_bitfield.md).
-/

namespace Sys2Proof

variable {pw rw : Nat}

/-- `sext_PW(phys_in) mod 2^WIDTH`: the low `WIDTH` bits, also for a negative value; no clamp (rules R83, R84). -/
def FieldSpec.truncated (S : FieldSpec pw rw) (v : Int) : Nat := (v % 2 ^ S.width.toNat).toNat

/-- The word that `BFI` produces (rule R84). -/
def FieldSpec.insertWord (S : FieldSpec pw rw) (v : Int) (w : RegWord) : RegWord :=
  merge w S.fm (S.place (S.truncated v))

end Sys2Proof

namespace Sys2Proof.Machine

open Sys2Proof

variable {C : Config.Params}

/-- `BFI` (rule R84) of the block: insert a field value. -/
def Block.bfi (v : BitVec C.PW) (w : RegWord) (S : Descriptor C.PW C.RW) (rdFail fail : Bool) : Effect C :=
  accept S.forBitfield rdFail w fail fun F a => a.encoded (F.insertWord v.toInt a.w)

/-- `BFX` (rule R85) of the block: extract a field value, zero-extended. -/
def Block.bfx (w : RegWord) (S : Descriptor C.PW C.RW) (rdFail fail : Bool) : Effect C :=
  accept S.forBitfield rdFail w fail fun F a => a.decoded (BitVec.ofNat C.PW (F.fieldOf a.w))

/-- `BFI` in the machine. -/
def execBfi (v : Phys) (w : RegWord) (S : Spec) (rdFail : Bool) (s : State) : Host.Outcome State Fault Refusal :=
  .next (s.settle (Block.bfi v w S rdFail s.fail))

/-- `BFX` in the machine. -/
def execBfx (w : RegWord) (S : Spec) (rdFail : Bool) (s : State) : Host.Outcome State Fault Refusal :=
  .next (s.settle (Block.bfx w S rdFail s.fail))

end Sys2Proof.Machine
end

