-- ==== Sys2Proof/Machine/Dual.lean ====
section
/-!
DEFINITION. `DENCL`, `DENCH`, `DDECL` and `DDECH` (spec/41_dual_codec.md).
-/

namespace Sys2Proof

variable {pw rw : Nat}

/-- `q = fdiv(clamp(v, MINi, MAXi) - MINi, RESi)` with the implied upper bound (rules R73 and R77). -/
def SubField.quantized (F : SubField pw rw) (v : Int) : Int :=
  quantize F.minVal.toInt F.impliedMax F.res.toNat v

/-- `f = q & MASKi`: the mask is applied in place (rules R51, R73 and R78). -/
def SubField.fieldFor (F : SubField pw rw) (v : Int) : Byte := BitVec.ofInt 8 (F.quantized v) &&& F.mask

/-- The word that `DENCL` produces (rule R73). -/
def SubField.encodeLow (F : SubField pw rw) (v : Int) (w : RegWord) : RegWord :=
  merge w F.fmLow ((F.fieldFor v).zeroExtend 16)

/-- The word that `DENCH` produces (rule R74). -/
def SubField.encodeHigh (F : SubField pw rw) (v : Int) (w : RegWord) : RegWord :=
  merge w F.fmHigh ((F.fieldFor v).zeroExtend 16 <<< 8)

/-- `(byte & MASKi) * RESi + MINi`, exactly; no clamp (rules R75 and R76). -/
def SubField.decodeByte (F : SubField pw rw) (b : Byte) : Int :=
  (b &&& F.mask).toNat * F.res.toNat + F.minVal.toInt

/-- A sub-field is contiguous when its mask is `2^k - 1` for some `k` in 0 to 8 (rule R78). -/
def SubField.contiguous (F : SubField pw rw) : Bool :=
  (List.range 9).any fun k => F.mask.toNat == 2 ^ k - 1

end Sys2Proof

namespace Sys2Proof.Machine

open Sys2Proof

variable {C : Config.Params}

/-- `DENCL` (rule R73) of the block: encode a physical value into sub-field 0, the low byte. -/
def Block.dencl (v : BitVec C.PW) (w : RegWord) (S : Descriptor C.PW C.RW) (rdFail fail : Bool) : Effect C :=
  accept S.forDual rdFail w fail fun D a => a.encoded (D.sub0.encodeLow v.toInt a.w)

/-- `DENCH` (rule R74) of the block: encode a physical value into sub-field 1, the high byte. -/
def Block.dench (v : BitVec C.PW) (w : RegWord) (S : Descriptor C.PW C.RW) (rdFail fail : Bool) : Effect C :=
  accept S.forDual rdFail w fail fun D a => a.encoded (D.sub1.encodeHigh v.toInt a.w)

/-- `DDECL` (rule R75) of the block: decode sub-field 0. -/
def Block.ddecl (w : RegWord) (S : Descriptor C.PW C.RW) (rdFail fail : Bool) : Effect C :=
  accept S.forDual rdFail w fail fun D a => a.decoded (BitVec.ofInt C.PW (D.sub0.decodeByte (lowByte a.w)))

/-- `DDECH` (rule R76) of the block: decode sub-field 1. -/
def Block.ddech (w : RegWord) (S : Descriptor C.PW C.RW) (rdFail fail : Bool) : Effect C :=
  accept S.forDual rdFail w fail fun D a => a.decoded (BitVec.ofInt C.PW (D.sub1.decodeByte (highByte a.w)))

/-- `DENCL` in the machine. -/
def execDencl (v : Phys) (w : RegWord) (S : Spec) (rdFail : Bool) (s : State) : Host.Outcome State Fault Refusal :=
  .next (s.settle (Block.dencl v w S rdFail s.fail))

/-- `DENCH` in the machine. -/
def execDench (v : Phys) (w : RegWord) (S : Spec) (rdFail : Bool) (s : State) : Host.Outcome State Fault Refusal :=
  .next (s.settle (Block.dench v w S rdFail s.fail))

/-- `DDECL` in the machine. -/
def execDdecl (w : RegWord) (S : Spec) (rdFail : Bool) (s : State) : Host.Outcome State Fault Refusal :=
  .next (s.settle (Block.ddecl w S rdFail s.fail))

/-- `DDECH` in the machine. -/
def execDdech (w : RegWord) (S : Spec) (rdFail : Bool) (s : State) : Host.Outcome State Fault Refusal :=
  .next (s.settle (Block.ddech w S rdFail s.fail))

end Sys2Proof.Machine
end

