-- ==== Sys2Proof/Machine/Status.lean ====
section
/-!
DEFINITION. `NOP`, `RDST`, `CLRF` (spec/43_status_ops.md) and the reserved operation codes (rule R52 of
spec/30_encoding.md).
-/

namespace Sys2Proof.Machine

open Sys2Proof

variable {C : Config.Params}

/-- `NOP` (rule R90) of the block: do nothing. -/
def Block.nop (fail : Bool) : Effect C := answer 0 fail

/-- `RDST` (rule R91) of the block: read the status register; reading does not clear. -/
def Block.rdst (fail : Bool) : Effect C := answer ((statusOf fail).zeroExtend C.PW) fail

/-- `CLRF` (rule R92) of the block: return `STATUS` as it was before the clear, and clear `FAIL`. -/
def Block.clrf (fail : Bool) : Effect C := answer ((statusOf fail).zeroExtend C.PW) false

/-- `NOP` in the machine. -/
def execNop (s : State) : Host.Outcome State Fault Refusal := .next (s.settle (Block.nop s.fail))

/-- `RDST` in the machine. -/
def execRdst (s : State) : Host.Outcome State Fault Refusal := .next (s.settle (Block.rdst s.fail))

/-- `CLRF` in the machine. -/
def execClrf (s : State) : Host.Outcome State Fault Refusal := .next (s.settle (Block.clrf s.fail))

/-- Operation code 0xB (rule R52). -/
def execReservedB (s : State) : Host.Outcome State Fault Refusal := .next (s.settle (rejectOp s.fail))

/-- Operation codes 0xC to 0xF (rule R52): they differ in nothing. -/
def execReservedCF (_low : BitVec 2) (s : State) : Host.Outcome State Fault Refusal :=
  .next (s.settle (rejectOp s.fail))

end Sys2Proof.Machine
end

