-- ==== Sys2Proof/Machine/Dispatch.lean ====
section
/-! DEFINITION. One arm for each instruction (rule R41 of spec/30_encoding.md). -/

namespace Sys2Proof.Machine

open Sys2Proof

def exec (i : Instr) (s : State) : Host.Outcome State Fault Refusal :=
  match i with
  | .nop => Sys2Proof.Machine.execNop s
  | .enc v w S rdFail => Sys2Proof.Machine.execEnc v w S rdFail s
  | .dec w S rdFail => Sys2Proof.Machine.execDec w S rdFail s
  | .bfi v w S rdFail => Sys2Proof.Machine.execBfi v w S rdFail s
  | .bfx w S rdFail => Sys2Proof.Machine.execBfx w S rdFail s
  | .dencl v w S rdFail => Sys2Proof.Machine.execDencl v w S rdFail s
  | .dench v w S rdFail => Sys2Proof.Machine.execDench v w S rdFail s
  | .ddecl w S rdFail => Sys2Proof.Machine.execDdecl w S rdFail s
  | .ddech w S rdFail => Sys2Proof.Machine.execDdech w S rdFail s
  | .rdst => Sys2Proof.Machine.execRdst s
  | .clrf => Sys2Proof.Machine.execClrf s
  | .reservedB => Sys2Proof.Machine.execReservedB s
  | .reservedCF low => Sys2Proof.Machine.execReservedCF low s

end Sys2Proof.Machine
end

