-- ==== Sys2Proof/Machine/Threads.lean ====
section
/-!
DEFINITION. The host's access sequences (rules R30 to R33 of spec/20_memory.md), the pseudo-operations (rule R56 of
spec/30_encoding.md), and what the machine does on each input.

One step of a thread is one bus transfer, or one byte of it, or one request to the block; a request and the
delivery of its response are one step (rules R15 and R36). Between two steps of a thread any other input may come
(rules R37 and R128).
-/

namespace Sys2Proof.Machine

open Sys2Proof

/-- The decode of an accessor pair (rules R30 and R32). -/
def Access.decodeInstr (a : Access) (w : RegWord) (S : Spec) (rdFail : Bool) : Instr :=
  match a with
  | .scalar => .dec w S rdFail
  | .bitfield => .bfx w S rdFail
  | .dualLow => .ddecl w S rdFail
  | .dualHigh => .ddech w S rdFail

/-- The encode of an accessor pair (rules R31 and R32). -/
def Access.encodeInstr (a : Access) (v : Phys) (w : RegWord) (S : Spec) (rdFail : Bool) : Instr :=
  match a with
  | .scalar => .enc v w S rdFail
  | .bitfield => .bfi v w S rdFail
  | .dualLow => .dencl v w S rdFail
  | .dualHigh => .dench v w S rdFail

/-- How a sequence goes on after one step of it. -/
inductive Progress where
  | more (j : Job)
  | finished (r : Result)
  deriving DecidableEq, Repr

/-- The request that a sequence presents next, if a request is what comes next. -/
def Job.request? : Job → Option Instr
  | .get a _ S p =>
    match p with
    | .start => none
    | .secondByte _ => none
    | .request st w => some (a.decodeInstr w S st)
  | .set a _ S v p =>
    match p with
    | .start => none
    | .secondByte _ => none
    | .request st w => some (a.encodeInstr v w S st)
    | .write _ => none
    | .writeSecond _ => none
  | .adcget S sel v0 v1 p =>
    match p with
    | .first => some (.dencl v0 0x0000 S false)
    | .second w => some (.dench v1 w S false)
    | .third w => some (if sel then .ddech w S false else .ddecl w S false)
  | .encz v S => some (.enc v 0x0000 S false)
  | .qnt v S p =>
    match p with
    | .first => some (.enc v 0x0000 S false)
    | .second w => some (.dec w S false)
  | .bset w S => some (.bfi 1 w S false)
  | .bclr w S => some (.bfi 0 w S false)
  | .memRead _ _ _ => none
  | .memWrite1 _ _ => none
  | .memWrite2 _ _ _ _ => none
  | .issue r => some (decode r)

/-- How a sequence goes on with the response of its request. A sequence that presented none stays as it is. -/
def Job.answer (j : Job) (r : Response) : Progress :=
  match j with
  | .get _ _ _ p =>
    match p with
    | .start => .more j
    | .secondByte _ => .more j
    | .request _ _ => .finished (.value r.physOut r.status)
  | .set a n S v p =>
    match p with
    | .start => .more j
    | .secondByte _ => .more j
    | .request _ _ => if r.status then .finished (.status true) else .more (.set a n S v (.write r.wordOut))
    | .write _ => .more j
    | .writeSecond _ => .more j
  | .adcget S sel v0 v1 p =>
    match p with
    | .first => .more (.adcget S sel v0 v1 (.second r.wordOut))
    | .second _ => .more (.adcget S sel v0 v1 (.third r.wordOut))
    | .third _ => .finished (.value r.physOut r.status)
  | .encz _ _ => .finished (.response r)
  | .qnt v S p =>
    match p with
    | .first => .more (.qnt v S (.second r.wordOut))
    | .second _ => .finished (.value r.physOut r.status)
  | .bset _ _ => .finished (.response r)
  | .bclr _ _ => .finished (.response r)
  | .memRead _ _ _ => .more j
  | .memWrite1 _ _ => .more j
  | .memWrite2 _ _ _ _ => .more j
  | .issue _ => .finished (.response r)

/-- Whether a sequence makes a two-byte access at 0xFF (rule R35). -/
def Job.offEnd : Job → Bool
  | .get _ n S _ => Machine.offEnd (busAddr S) n
  | .set _ n S _ _ => Machine.offEnd (busAddr S) n
  | .adcget _ _ _ _ _ => false
  | .encz _ _ => false
  | .qnt _ _ _ => false
  | .bset _ _ => false
  | .bclr _ _ => false
  | .memRead addr n _ => Machine.offEnd addr n
  | .memWrite1 addr _ => Machine.offEnd addr .one
  | .memWrite2 addr _ _ _ => Machine.offEnd addr .two
  | .issue _ => false

/-- A `SET` or a bare write after a step of its write. -/
def afterWrite (mv : WriteMove) (second : Byte → Job) : Memory × Progress :=
  match mv with
  | .finished st m => (m, .finished (.status st))
  | .firstByte m b1 => (m, .more (second b1))

/-- The bus step of a sequence: the memory after it, and how the sequence goes on. A sequence whose next step is a
request makes none. -/
def Job.busMove (j : Job) (m : Memory) (busFail whole : Bool) : Memory × Progress :=
  match j with
  | .get a n S p =>
    match p with
    | .start =>
      match startRead m (busAddr S) n busFail whole with
      | .finished st bs => (m, .more (.get a n S (.request st (wordOfBytes bs))))
      | .firstByte b0 => (m, .more (.get a n S (.secondByte b0)))
    | .secondByte b0 => (m, .more (.get a n S (.request false (wordOfBytes (finishRead m (busAddr S) b0)))))
    | .request _ _ => (m, .more j)
  | .set a n S v p =>
    match p with
    | .start =>
      match startRead m (busAddr S) n busFail whole with
      | .finished st bs => (m, .more (.set a n S v (.request st (wordOfBytes bs))))
      | .firstByte b0 => (m, .more (.set a n S v (.secondByte b0)))
    | .secondByte b0 => (m, .more (.set a n S v (.request false (wordOfBytes (finishRead m (busAddr S) b0)))))
    | .request _ _ => (m, .more j)
    | .write w =>
      afterWrite (startWrite m (busAddr S) (bytesOfWord w n) busFail whole) fun b1 => .set a n S v (.writeSecond b1)
    | .writeSecond b1 => (m.writeByte (busAddr S + 1) b1, .finished (.status false))
  | .adcget _ _ _ _ _ => (m, .more j)
  | .encz _ _ => (m, .more j)
  | .qnt _ _ _ => (m, .more j)
  | .bset _ _ => (m, .more j)
  | .bclr _ _ => (m, .more j)
  | .memRead addr n p =>
    match p with
    | .start =>
      match startRead m addr n busFail whole with
      | .finished st bs => (m, .finished (.bytes st bs))
      | .firstByte b0 => (m, .more (.memRead addr n (.secondByte b0)))
    | .secondByte b0 => (m, .finished (.bytes false (finishRead m addr b0)))
  | .memWrite1 addr b0 => afterWrite (startWrite m addr [b0] busFail whole) fun _ => j
  | .memWrite2 addr b0 b1 p =>
    match p with
    | .start => afterWrite (startWrite m addr [b0, b1] busFail whole) fun _ => .memWrite2 addr b0 b1 .secondByte
    | .secondByte => (m.writeByte (addr + 1) b1, .finished (.status false))
  | .issue _ => (m, .more j)

/-- The addresses that the bus step of a sequence stores to. -/
def Job.storeAddrs (j : Job) (busFail whole : Bool) : List Byte :=
  match j with
  | .get _ _ _ _ => []
  | .set _ n S _ p =>
    match p with
    | .start => []
    | .secondByte _ => []
    | .request _ _ => []
    | .write _ => startWriteAddrs (busAddr S) n busFail whole
    | .writeSecond _ => [busAddr S + 1]
  | .adcget _ _ _ _ _ => []
  | .encz _ _ => []
  | .qnt _ _ _ => []
  | .bset _ _ => []
  | .bclr _ _ => []
  | .memRead _ _ _ => []
  | .memWrite1 addr _ => startWriteAddrs addr .one busFail whole
  | .memWrite2 addr _ _ p =>
    match p with
    | .start => startWriteAddrs addr .two busFail whole
    | .secondByte => [addr + 1]
  | .issue _ => []

/-- The thread after one step of its first sequence. -/
def Thread.advance (t : Thread) (p : Progress) : Thread :=
  match p with
  | .more j => { t with jobs := j :: t.jobs.tail }
  | .finished r => { jobs := t.jobs.tail, done := r :: t.done }

/-- Thread `k` is put in place of the old one. -/
def State.setThread (s : State) (k : Nat) (t : Thread) : State := { s with threads := s.threads.set k t }

/-- The response on the port goes to the thread that made the request. -/
def State.deliver (s : State) (k : Nat) (t : Thread) (j : Job) : State :=
  match s.rsp with
  | some r => s.setThread k (t.advance (j.answer r))
  | none => s

/-- Thread `k` takes one step of its first sequence `j`. -/
def jobStep (k : Nat) (t : Thread) (j : Job) (busFail whole : Bool) (s : State) : Host.Outcome State Fault Refusal :=
  match j.request? with
  | some i =>
    match exec i s with
    | .next s' => .next (s'.deliver k t j)
    | .fault r => .fault r
    | .refused r => .refused r
  | none =>
    if j.offEnd then .refused .wordAtLastAddress
    else .next ({ s with mem := (j.busMove s.mem busFail whole).1 }.setThread k
      (t.advance (j.busMove s.mem busFail whole).2))

/-- The sequence that thread `k` is in, with the thread; nothing if there is no such thread or it has none left. -/
def State.jobOf (s : State) (k : Nat) : Option (Thread × Job) :=
  match s.threads[k]? with
  | none => none
  | some t =>
    match t.jobs with
    | [] => none
    | j :: _ => some (t, j)

/-- Thread `k` takes its next step; a thread that is not there or has nothing left to do takes none. -/
def threadStep (k : Nat) (busFail whole : Bool) (s : State) : Host.Outcome State Fault Refusal :=
  match s.jobOf k with
  | none => .next s
  | some (t, j) => jobStep k t j busFail whole s

/-- What the machine does on one input. -/
def react (e : Event) (s : State) : Host.Outcome State Fault Refusal :=
  match e with
  | .request r => exec (decode r) s
  | .reset => .next s.resetBlock
  | .thread k busFail whole => threadStep k busFail whole s
  | .agentWrite addr b => .next { s with mem := s.mem.writeByte addr b }

/-- The instruction that the block runs on an input, if that input makes a request. -/
def Event.instr? (e : Event) (s : State) : Option Instr :=
  match e with
  | .request r => some (decode r)
  | .reset => none
  | .thread k _ _ =>
    match s.jobOf k with
    | none => none
    | some (_, j) => j.request?
  | .agentWrite _ _ => none

end Sys2Proof.Machine
end

