-- ==== Sys2Proof/Machine/RegisterMap.lean ====
section
/-!
DEFINITION. The descriptors of the source's register map (spec/44_register_map_instances.md). They are no part of
the block: they are operands that its host presents.
-/

namespace Sys2Proof

/-- The literal `S{addr, w, o, res, min, max}` (rule R55 of spec/30_encoding.md). -/
def scalarSpec (addr : BitVec 16) (w o : BitVec 5) (res : BitVec Config.RW) (minVal maxVal : Phys) :
    FieldSpec Config.PW Config.RW :=
  { addr := addr, width := w, offset := o, res := res, minVal := minVal, maxVal := maxVal }

/-- The literal `B{addr, w, o}` (rule R55): the canonical bitfield-only descriptor of rule R45. -/
def bitfieldSpec (addr : BitVec 16) (w o : BitVec 5) : FieldSpec Config.PW Config.RW :=
  { addr := addr, width := w, offset := o, res := 1, minVal := 0, maxVal := BitVec.ofNat Config.PW (2 ^ w.toNat - 1) }

/-- The literal `D{addr, min0, mask0, res0, min1, mask1, res1}` (rule R55). -/
def dualSpec (addr : BitVec 16) (min0 : Phys) (mask0 : Byte) (res0 : BitVec Config.RW) (min1 : Phys) (mask1 : Byte)
    (res1 : BitVec Config.RW) : DualSpec Config.PW Config.RW :=
  { addr := addr, sub0 := { minVal := min0, mask := mask0, res := res0 },
    sub1 := { minVal := min1, mask := mask1, res := res1 } }

/-- Charge current, mA (rule R95). -/
def ICHG : FieldSpec Config.PW Config.RW := scalarSpec 0x02 7 6 64 0 8128

/-- Max charge voltage, mV (rule R96). -/
def MAXV : FieldSpec Config.PW Config.RW := scalarSpec 0x04 12 3 8 0 19200

/-- Min system voltage, mV (rule R97). -/
def MINSYS : FieldSpec Config.PW Config.RW := scalarSpec 0x0C 6 8 256 0 16128

/-- OTG voltage, mV, while the "low range" bit is set (rule R98). -/
def OTGV_LO : FieldSpec Config.PW Config.RW := scalarSpec 0x06 12 2 8 0 20800

/-- OTG voltage, mV, while the "low range" bit is not set (rule R98). -/
def OTGV_HI : FieldSpec Config.PW Config.RW := scalarSpec 0x06 12 2 8 1280 20800

/-- The OTG voltage descriptor that the host chooses by the "low range" bit (rules R98 and R131). -/
def otgVoltage (lowRange : Bool) : FieldSpec Config.PW Config.RW := if lowRange then OTGV_LO else OTGV_HI

/-- OTG current, mA, with a given upper end (rules R99 and R101). -/
def otgCurrent (maxVal : Phys) : FieldSpec Config.PW Config.RW := scalarSpec 0x08 7 8 50 0 maxVal

/-- OTG current, mA, as the source's table writes it (rule R99). -/
def OTGI : FieldSpec Config.PW Config.RW := otgCurrent Config.OTGI_MAX

/-- Input voltage, mV, with a given upper end (rules R100 and R101). -/
def inputVoltage (maxVal : Phys) : FieldSpec Config.PW Config.RW := scalarSpec 0x0A 8 6 64 3200 maxVal

/-- Input voltage, mV, as the source's table writes it (rule R100). -/
def VINDPM : FieldSpec Config.PW Config.RW := inputVoltage Config.VINDPM_MAX

/-- The scalar rows of the register table, with both forms of the OTG voltage (rules R95 to R100). -/
def scalarRows : List (FieldSpec Config.PW Config.RW) := [ICHG, MAXV, MINSYS, OTGV_LO, OTGV_HI, OTGI, VINDPM]

/-- The addresses of charge option 0, 1, 2 and 3; the positions of their fields are not given (rule R102). -/
def chargeOptionAddrs : List (BitVec 16) := [0x00, 0x30, 0x32, 0x34]

/-- A dual-value ADC register of "8+8 bits" whose two named channels are put in the order given (rules R103, R104). -/
def adcSpec (addr : BitVec 16) (order : Config.ChannelOrder) (min1 : Phys) (res1 : BitVec Config.RW) (min2 : Phys)
    (res2 : BitVec Config.RW) : DualSpec Config.PW Config.RW :=
  match order with
  | .firstNamedLow => dualSpec addr min1 0xFF res1 min2 0xFF res2
  | .secondNamedLow => dualSpec addr min2 0xFF res2 min1 0xFF res1

/-- VBUS and PSYS, 64 mV and 12 mV; the order and the minima are free values (rule R103). -/
def ADC_VBUS_PSYS : DualSpec Config.PW Config.RW :=
  adcSpec 0x26 Config.VBUS_PSYS_ORDER Config.VBUS_MIN 64 Config.PSYS_MIN 12

/-- VBAT and VSYS, 64 mV both; the order and the minima are free values (rule R104). -/
def ADC_VBAT_VSYS : DualSpec Config.PW Config.RW :=
  adcSpec 0x2C Config.VBAT_VSYS_ORDER Config.VBAT_MIN 64 Config.VSYS_MIN 64

/-- The Manufacturer ID, a one-byte register (rule R105). -/
def MANUFACTURER_ID : FieldSpec Config.PW Config.RW := bitfieldSpec 0x2E 8 0

/-- The Device ID, a one-byte register (rule R105). -/
def DEVICE_ID : FieldSpec Config.PW Config.RW := bitfieldSpec 0x2F 8 0

/-- The addresses of the word registers of the table, each taking also the next odd address (rule R94). -/
def wordRegisters : List Byte := [0x00, 0x02, 0x04, 0x06, 0x08, 0x0A, 0x0C, 0x26, 0x2C, 0x30, 0x32, 0x34]

/-- The addresses of the one-byte registers of the table (rules R34 and R94). -/
def byteRegisters : List Byte := [0x2E, 0x2F]

/-- `NBYTES` of a register of the table (rules R34 and R94); nothing for an address the table does not list. -/
def registerBytes (addr : Byte) : Option Machine.NBytes :=
  if wordRegisters.contains addr then some .two
  else if byteRegisters.contains addr then some .one
  else none

/-- `BSET` and `BCLR` are written for a descriptor of one bit (rule R56 of spec/30_encoding.md). -/
def oneBit (S : FieldSpec Config.PW Config.RW) : Bool := S.width == 1

end Sys2Proof
end

