-- ==== Sys2Proof/Machine/Step.lean ====
section
/-!
DEFINITION. One step of the machine: it takes what the outside world does next. The block has no program counter
and fetches nothing: "the order of operations is the order in which the host presents requests" (rule R14 of
spec/10_state.md).
-/

namespace Sys2Proof.Machine

open Sys2Proof

/-- One step. With nothing presented the machine waits, unchanged. -/
def step (s : State) : Host.Outcome State Fault Refusal :=
  match s.inputs with
  | [] => .next s
  | e :: rest => react e { s with inputs := rest }

/-- The state with one more request in front of what the outside world does: the request of the table's word `w`,
every other field zero. -/
def State.withFetchWord (s : State) (_nbits w : Nat) : State :=
  { s with inputs := .request (tableRequest w) :: s.inputs }

end Sys2Proof.Machine
end

