-- ==== Sys2Proof/Machine/Block.lean ====
section
/-!
DEFINITION. The block at any parameters: "the step as a function `(STATUS, request) -> (STATUS', response)`" (rule R16
of spec/10_state.md), for every `PW`, `RW` and `FRAC` (rule R6 of spec/00_scope.md).
-/

namespace Sys2Proof.Machine

open Sys2Proof

/-- The block takes one request (rules R15, R16 and R41). -/
def Block.run {C : Config.Params} (r : PortRequest C) (fail : Bool) : Effect C :=
  match r.op.toNat with
  | 0x0 => Block.nop fail
  | 0x1 => Block.enc r.physIn r.wordIn r.spec r.rdFail fail
  | 0x2 => Block.dec r.wordIn r.spec r.rdFail fail
  | 0x3 => Block.bfi r.physIn r.wordIn r.spec r.rdFail fail
  | 0x4 => Block.bfx r.wordIn r.spec r.rdFail fail
  | 0x5 => Block.dencl r.physIn r.wordIn r.spec r.rdFail fail
  | 0x6 => Block.dench r.physIn r.wordIn r.spec r.rdFail fail
  | 0x7 => Block.ddecl r.wordIn r.spec r.rdFail fail
  | 0x8 => Block.ddech r.wordIn r.spec r.rdFail fail
  | 0x9 => Block.rdst fail
  | 0xA => Block.clrf fail
  | _ => rejectOp fail

end Sys2Proof.Machine
end

