-- ==== Sys2Proof/Safety.lean ====
section
/-!
DEFINITION. What claims are stated in: the invariant that every step keeps, and the states whose host keeps to the
one thing the spec forbids it, a two-byte access at 0xFF (rule R35 of spec/20_memory.md).
-/

namespace Sys2Proof.Machine

open Sys2Proof

/-- The memory is in its canonical form, and the response on the port, if there is one, is a legal response. -/
def State.Inv (s : State) : Bool := s.mem.wf && s.rsp.all PortResponse.wf

/-- No sequence of a thread makes a two-byte access at 0xFF. -/
def Thread.contained (t : Thread) : Bool := t.jobs.all fun j => !j.offEnd

/-- No sequence of any thread makes a two-byte access at 0xFF. -/
def State.contained (s : State) : Bool := s.threads.all Thread.contained

/-- The effect of an instruction on `STATUS.FAIL` (rules R24, R92 and R109): an accepted operation that reads a word
sets it if the read failed, `CLRF` clears it, nothing else touches it. -/
def failAfter (i : Instr) (fail : Bool) : Bool := i != .clrf && (fail || (i.specOk && i.readFailed))

/-- `STATUS.FAIL` after a sequence of instructions. -/
def failAfterAll : List Instr → Bool → Bool
  | [], fail => fail
  | i :: is, fail => failAfterAll is (failAfter i fail)

end Sys2Proof.Machine
end

