-- ==== Sys2Proof/WellFormed.lean ====
section
/-!
DEFINITION. Which instructions as syntax stand for a request.

The types carry most of it: widths of fields (rules R5, R6 and R47), the tag and the reserved bits of a legal
descriptor (rules R46 and R53). What is left to check is that an `illegal` descriptor really is one of the bit
patterns of rule R53. Whether a descriptor is fit for an operation (`SpecOK`, rule R49) is no check of syntax:
the hardware answers it, with `BAD_SPEC`.
-/

namespace Sys2Proof

/-- The bit patterns of rule R53: `KIND = 3`, or a non-zero bit among those that rule R47 reserves for the kind. -/
def rawIllegal (raw : BitVec 160) : Bool :=
  specKind raw == 3 || !commonReservedZero raw || (specKind raw != 1 && !fieldReservedZero raw)

/-- An `illegal` descriptor holds an illegal bit pattern. -/
def Descriptor.wf {pw rw : Nat} : Descriptor pw rw → Bool
  | .scalar _ => true
  | .dual _ => true
  | .bitfield _ => true
  | .illegal raw => rawIllegal raw

/-- The descriptor of an instruction, where it has one, is well-formed. -/
def Instr.wf : Instr → Bool
  | .nop => true
  | .enc _ _ S _ => S.wf
  | .dec _ S _ => S.wf
  | .bfi _ _ S _ => S.wf
  | .bfx _ S _ => S.wf
  | .dencl _ _ S _ => S.wf
  | .dench _ _ S _ => S.wf
  | .ddecl _ S _ => S.wf
  | .ddech _ S _ => S.wf
  | .rdst => true
  | .clrf => true
  | .reservedB => true
  | .reservedCF _ => true

end Sys2Proof
end

