-- ==== Sys2Proof/Certificates/Slice0/Obligations.lean ====
section
/-!
DEFINITION. The statements for the provers. OBLIGATIONS.json says of each what it states and which rules of the
spec it rests on.

The names under `Sys2Proof.Claims` are the vocabulary of the statements: the spec's own formulas written out anew,
so that a statement does not define a result by the model's own function for it.
-/

namespace Sys2Proof.Claims

open Sys2Proof Sys2Proof.Machine

/-- `fdiv(clamp(v, lo, hi) - lo, res)` for `lo <= hi`, with the clamp as a maximum of a minimum. -/
def quotient (lo hi res v : Int) : Int := (max lo (min v hi) - lo) / res

/-- The bits `lo + len - 1` down to `lo` of a descriptor, as a number. -/
def bits (raw : BitVec 160) (lo len : Nat) : Nat := raw.toNat / 2 ^ lo % 2 ^ len

/-- A 32-bit number read as two's complement. -/
def signed32 (n : Nat) : Int := if n < 2 ^ 31 then n else (n : Int) - 2 ^ 32

/-- `SpecOK` for `ENC` and `DEC` on the bits of the descriptor, as rules R47 and R49 write it. -/
def scalarSpecOk (raw : BitVec 160) : Prop :=
  bits raw 18 14 = 0 ∧ bits raw 37 3 = 0 ∧ bits raw 45 3 = 0 ∧ bits raw 48 16 = 0 ∧ bits raw 144 16 = 0 ∧
  bits raw 16 2 = 0 ∧
  bits raw 40 5 + bits raw 32 5 ≤ 16 ∧
  signed32 (bits raw 96 32) ≥ signed32 (bits raw 64 32) ∧
  bits raw 128 16 ≥ 1 ∧
  signed32 (bits raw 64 32) + (2 ^ bits raw 32 5 - 1) * (bits raw 128 16 : Int) ≤ 2 ^ 31 - 1

/-- `SpecOK` for `BFI` and `BFX` on the bits of the descriptor, as rules R47 and R49 write it. -/
def bitfieldSpecOk (raw : BitVec 160) : Prop :=
  bits raw 18 14 = 0 ∧ bits raw 37 3 = 0 ∧ bits raw 45 3 = 0 ∧ bits raw 48 16 = 0 ∧ bits raw 144 16 = 0 ∧
  bits raw 16 2 = 2 ∧
  bits raw 40 5 + bits raw 32 5 ≤ 16 ∧
  signed32 (bits raw 64 32) = 0 ∧
  bits raw 128 16 = 1 ∧
  signed32 (bits raw 96 32) = 2 ^ bits raw 32 5 - 1

/-- `SpecOK` for the dual-value operations on the bits of the descriptor, as rules R47 and R49 write it. -/
def dualSpecOk (raw : BitVec 160) : Prop :=
  bits raw 18 14 = 0 ∧ bits raw 48 16 = 0 ∧
  bits raw 16 2 = 1 ∧
  bits raw 128 16 ≥ 1 ∧ bits raw 144 16 ≥ 1 ∧
  signed32 (bits raw 64 32) + (bits raw 32 8 : Int) * (bits raw 128 16 : Int) ≤ 2 ^ 31 - 1 ∧
  signed32 (bits raw 96 32) + (bits raw 40 8 : Int) * (bits raw 144 16 : Int) ≤ 2 ^ 31 - 1

/-- The cause that rule R112's order of tests gives a request: `BAD_OP`, then format N, then `BAD_SPEC`, then
`READ_FAIL`. -/
def causeOf (r : Request) : Cause :=
  if r.op ≥ 0xB then .badOp
  else if r.op = 0x0 ∨ r.op = 0x9 ∨ r.op = 0xA then .none
  else if (decode r).specOk = false then .badSpec
  else if r.rdFail then .readFail
  else .none

/-- The word that a read of `n` bytes at `addr` gives: zero if the read failed, else the bytes packed, low byte
first; a one-byte register gives `Pack16(b0, 0x00)`. -/
def wordRead (m : Memory) (addr : Byte) (n : NBytes) (busFail : Bool) : RegWord :=
  if busFail then 0
  else match n with
    | .one => pack16 (m.readByte addr) 0
    | .two => pack16 (m.readByte addr) (m.readByte (addr + 1))

/-- The thread steps of thread `k` that one undisturbed bus transfer of `n` bytes takes: one step, or two, low byte
first, if it does not fail and its two bytes travel apart (rules R36 and R130, log entry 6). The status is that of the
first step (log entry 5). -/
def transfer (k : Nat) (n : NBytes) (busFail : Bool) (evs : List Event) : Prop :=
  (∃ whole, evs = [.thread k busFail whole] ∧ (n = .two → busFail = false → whole = true)) ∨
  (n = .two ∧ busFail = false ∧ ∃ b w, evs = [.thread k false false, .thread k b w])

/-- `rsp` of an instruction: it is a function of the request and of `STATUS.FAIL` (rule R15), read off here after
reset. -/
def response (i : Instr) : Option Response :=
  match exec i State.reset with
  | .next t => t.rsp
  | .fault _ => none
  | .refused _ => none

/-- `rsp.word_out` of an instruction. -/
def wordOut (i : Instr) : RegWord := ((response i).map PortResponse.wordOut).getD 0

/-- `rsp.phys_out` of an instruction. -/
def physOut (i : Instr) : Phys := ((response i).map PortResponse.physOut).getD 0

/-- `ENC(v, w, S)` of section 3 of spec/40_scalar_codec.md. -/
def ENC (v : Phys) (w : RegWord) (S : FieldSpec Config.PW Config.RW) : RegWord := wordOut (.enc v w (.scalar S) false)

/-- `DEC(w, S)` of section 3 of spec/40_scalar_codec.md. -/
def DEC (w : RegWord) (S : FieldSpec Config.PW Config.RW) : Phys := physOut (.dec w (.scalar S) false)

/-- `BFI(v, w, S)` of rule R86. -/
def BFI (v : Phys) (w : RegWord) (S : FieldSpec Config.PW Config.RW) : RegWord := wordOut (.bfi v w (.bitfield S) false)

/-- `BFX(w, S)` of rule R86. -/
def BFX (w : RegWord) (S : FieldSpec Config.PW Config.RW) : Phys := physOut (.bfx w (.bitfield S) false)

/-- `DENCL(v, w, S)` of rule R79. -/
def DENCL (v : Phys) (w : RegWord) (S : DualSpec Config.PW Config.RW) : RegWord := wordOut (.dencl v w (.dual S) false)

/-- `DENCH(v, w, S)` of rule R79. -/
def DENCH (v : Phys) (w : RegWord) (S : DualSpec Config.PW Config.RW) : RegWord := wordOut (.dench v w (.dual S) false)

/-- `DDECL(w, S)` of rule R79. -/
def DDECL (w : RegWord) (S : DualSpec Config.PW Config.RW) : Phys := physOut (.ddecl w (.dual S) false)

/-- `DDECH(w, S)` of rule R79. -/
def DDECH (w : RegWord) (S : DualSpec Config.PW Config.RW) : Phys := physOut (.ddech w (.dual S) false)

/-- `clamp(v, S.MIN, S.MAX)`. -/
def clamped (v : Int) (S : FieldSpec Config.PW Config.RW) : Int := max S.minVal.toInt (min v S.maxVal.toInt)

/-- `field(v, S) = fdiv(clamp(v, S.MIN, S.MAX) - S.MIN, S.RES) & wm(S)`, the mask as a remainder. -/
def field (v : Int) (S : FieldSpec Config.PW Config.RW) : Int :=
  (clamped v S - S.minVal.toInt) / S.res.toNat % 2 ^ S.width.toNat

/-- `Q(v, S) = S.MIN + fdiv(clamp(v, S.MIN, S.MAX) - S.MIN, S.RES) * S.RES`. -/
def Q (v : Int) (S : FieldSpec Config.PW Config.RW) : Int :=
  S.minVal.toInt + (clamped v S - S.minVal.toInt) / S.res.toNat * S.res.toNat

/-- `Fits(S)` of rule R63: `fdiv(S.MAX - S.MIN, S.RES) <= wm(S)`. -/
def Fits (S : FieldSpec Config.PW Config.RW) : Prop :=
  (S.maxVal.toInt - S.minVal.toInt) / S.res.toNat ≤ 2 ^ S.width.toNat - 1

/-- `fm(S) = wm(S) << S.OFFSET` of rule R50. -/
def mask (S : FieldSpec Config.PW Config.RW) : RegWord := BitVec.ofNat 16 ((2 ^ S.width.toNat - 1) * 2 ^ S.offset.toNat)

/-- The field of a word, `(w >> S.OFFSET) & wm(S)` of rule R50. -/
def fieldOf (w : RegWord) (S : FieldSpec Config.PW Config.RW) : Nat :=
  w.toNat / 2 ^ S.offset.toNat % 2 ^ S.width.toNat

/-- `MAXi = S.MINi + S.MASKi * S.RESi` of rule R77. -/
def impliedMax (F : SubField Config.PW Config.RW) : Int := F.minVal.toInt + F.mask.toNat * F.res.toNat

/-- A sub-field is contiguous when `MASKi = 2^k - 1` for some `k` in 0 to 8 (rule R78). -/
def contiguous (F : SubField Config.PW Config.RW) : Prop := ∃ k, k ≤ 8 ∧ F.mask.toNat = 2 ^ k - 1

/-- `T` is `S` with every value in fixed point at `frac` fractional bits (rule R9). -/
def scaledField {pw rw pw' rw' : Nat} (frac : Nat) (S : FieldSpec pw rw) (T : FieldSpec pw' rw') : Prop :=
  T.width = S.width ∧ T.offset = S.offset ∧ T.minVal.toInt = S.minVal.toInt * 2 ^ frac ∧
  T.maxVal.toInt = S.maxVal.toInt * 2 ^ frac ∧ T.res.toNat = S.res.toNat * 2 ^ frac

/-- `G` is `F` with every value in fixed point at `frac` fractional bits (rule R9). -/
def scaledSub {pw rw pw' rw' : Nat} (frac : Nat) (F : SubField pw rw) (G : SubField pw' rw') : Prop :=
  G.mask = F.mask ∧ G.minVal.toInt = F.minVal.toInt * 2 ^ frac ∧ G.res.toNat = F.res.toNat * 2 ^ frac

/-- The laws of rule R79 about one half: `enc` and `dec` are the encode and the decode of that half, and `place` puts a
byte where that half stands in the word. -/
def halfLaws (F : SubField Config.PW Config.RW) (enc : Phys → RegWord → RegWord) (dec : RegWord → Phys)
    (place : Byte → RegWord) : Prop :=
  (∀ (v : Phys) (w : RegWord), (dec (enc v w)).toInt = F.minVal.toInt +
    ((quotient F.minVal.toInt (impliedMax F) F.res.toNat v.toInt).toNat &&& F.mask.toNat : Nat) * F.res.toNat) ∧
  (contiguous F → ∀ (v : Phys) (w : RegWord),
    (dec (enc v w)).toInt = F.minVal.toInt +
      quotient F.minVal.toInt (impliedMax F) F.res.toNat v.toInt * F.res.toNat ∧
    0 ≤ max F.minVal.toInt (min v.toInt (impliedMax F)) - (dec (enc v w)).toInt ∧
    max F.minVal.toInt (min v.toInt (impliedMax F)) - (dec (enc v w)).toInt ≤ F.res.toNat - 1) ∧
  (contiguous F → ∀ v1 v2 : Phys, v1.toInt ≤ v2.toInt → (enc v1 0).toNat ≤ (enc v2 0).toNat) ∧
  (∀ (v : Phys) (w : RegWord), enc v w &&& ~~~place F.mask = w &&& ~~~place F.mask) ∧
  (∀ w : RegWord, F.minVal.toInt ≤ (dec w).toInt ∧ (dec w).toInt ≤ impliedMax F)

end Sys2Proof.Claims

open Sys2Proof Sys2Proof.Machine

/-! ## Encoding -/

/-- Records printed in section 3 of spec/95_test_vectors.md decode to the requests they are printed for. -/
def Obligations.PrintedRecordsDecodeToTheirRequests : Prop :=
  decode (Request.ofBits 0x020000008000003F800000000000000C0E0000000400000BB9C07E) =
    .enc 1500 0xE03F (.scalar ICHG) false ∧
  decode (Request.ofBits 0x040000008000003F800000000000000C0E0000000400000001CBFE) =
    .dec 0xE5FF (.scalar ICHG) false ∧
  decode (Request.ofBits 0x060000000200000002000000000000040200040064000000020000) =
    .bfi 1 0x0000 (.bitfield (bitfieldSpec 0x32 1 2)) false ∧
  decode (Request.ofBits 0x080000000200000002000000000000040200040064000000000008) =
    .bfx 0x0004 (.bitfield (bitfieldSpec 0x32 1 2)) false ∧
  decode (Request.ofBits 0x0A0080001800001900000000000001FFFE0002004C000007D00000) =
    .dencl 1000 0x0000 (.dual (dualSpec 0x26 0 0xFF 12 3200 0xFF 64)) false ∧
  decode (Request.ofBits 0x100080001800001900000000000001FFFE0002004C0000000038A6) =
    .ddech 0x1C53 (.dual (dualSpec 0x26 0 0xFF 12 3200 0xFF 64)) false ∧
  decode (Request.ofBits 0x120000000000000000000000000000000000000000000000000000) = .rdst ∧
  decode (Request.ofBits 0x140000000000000000000000000000000000000000000000000000) = .clrf ∧
  decode (Request.ofBits 0x160000000000000000000000000000000000000000000000000001) = .reservedB

/-- Every well-formed instruction comes back from its 27-byte record, with every operand it has. -/
def Obligations.EveryInstructionComesBackFromItsRecord : Prop :=
  ∀ i : Instr, i.wf = true → decodeBytes (encodeBytes i) = .ok i

/-- The record is the number `op * 2^209 + spec * 2^49 + phys_in * 2^17 + word_in * 2 + rd_fail`, and request and
record determine each other. -/
def Obligations.RecordIsTheWeightedSumOfItsFields : Prop :=
  (∀ r : Request, r.toBits.toNat = r.op.toNat * 2 ^ 209 + r.spec.toNat * 2 ^ 49 + r.physIn.toNat * 2 ^ 17 +
    r.wordIn.toNat * 2 + r.rdFail.toNat) ∧
  (∀ r : Request, Request.ofBits r.toBits = r) ∧ (∀ b, (Request.ofBits b).toBits = b)

/-- The fields of a descriptor stand where the table of rule R47 puts them, the bits it reserves for the kind are
zero, and what is none of the three kinds is what rule R53 says. -/
def Obligations.DescriptorFieldsStandWhereTheLayoutSays : Prop :=
  ∀ raw : BitVec 160,
    match decodeSpec raw with
    | .scalar S => Claims.bits raw 16 2 = 0 ∧ Claims.bits raw 18 14 = 0 ∧ Claims.bits raw 37 3 = 0 ∧
        Claims.bits raw 45 3 = 0 ∧ Claims.bits raw 48 16 = 0 ∧ Claims.bits raw 144 16 = 0 ∧ S.addr.toNat = Claims.bits raw 0 16 ∧
        S.width.toNat = Claims.bits raw 32 5 ∧ S.offset.toNat = Claims.bits raw 40 5 ∧
        S.minVal.toNat = Claims.bits raw 64 32 ∧ S.maxVal.toNat = Claims.bits raw 96 32 ∧
        S.res.toNat = Claims.bits raw 128 16
    | .bitfield S => Claims.bits raw 16 2 = 2 ∧ Claims.bits raw 18 14 = 0 ∧ Claims.bits raw 37 3 = 0 ∧
        Claims.bits raw 45 3 = 0 ∧ Claims.bits raw 48 16 = 0 ∧ Claims.bits raw 144 16 = 0 ∧ S.addr.toNat = Claims.bits raw 0 16 ∧
        S.width.toNat = Claims.bits raw 32 5 ∧ S.offset.toNat = Claims.bits raw 40 5 ∧
        S.minVal.toNat = Claims.bits raw 64 32 ∧ S.maxVal.toNat = Claims.bits raw 96 32 ∧
        S.res.toNat = Claims.bits raw 128 16
    | .dual S => Claims.bits raw 16 2 = 1 ∧ Claims.bits raw 18 14 = 0 ∧ Claims.bits raw 48 16 = 0 ∧ S.addr.toNat = Claims.bits raw 0 16 ∧
        S.sub0.mask.toNat = Claims.bits raw 32 8 ∧ S.sub1.mask.toNat = Claims.bits raw 40 8 ∧
        S.sub0.minVal.toNat = Claims.bits raw 64 32 ∧ S.sub1.minVal.toNat = Claims.bits raw 96 32 ∧
        S.sub0.res.toNat = Claims.bits raw 128 16 ∧ S.sub1.res.toNat = Claims.bits raw 144 16
    | .illegal raw' => raw' = raw ∧
        (Claims.bits raw 16 2 = 3 ∨ Claims.bits raw 18 14 ≠ 0 ∨ Claims.bits raw 48 16 ≠ 0 ∨
          (Claims.bits raw 16 2 ≠ 1 ∧
            (Claims.bits raw 37 3 ≠ 0 ∨ Claims.bits raw 45 3 ≠ 0 ∨ Claims.bits raw 144 16 ≠ 0)))

/-- A descriptor and its 160 bits determine each other. -/
def Obligations.DescriptorAndItsBitsDetermineEachOther : Prop :=
  (∀ S : Spec, S.wf = true → decodeSpec (encodeSpec S) = S) ∧
  (∀ raw : BitVec 160, encodeSpec (decodeSpec raw) = raw ∧ (decodeSpec raw).wf = true)

/-- Rule R42: a field that a format does not read has no effect, and format N never fails and never sets `FAIL`. -/
def Obligations.UnreadFieldsHaveNoEffect : Prop :=
  (∀ r r' : Request, r.op = r'.op → r.op ∈ [0x2#4, 0x4#4, 0x7#4, 0x8#4] → r.spec = r'.spec → r.wordIn = r'.wordIn →
    r.rdFail = r'.rdFail → decode r = decode r') ∧
  (∀ r r' : Request, r.op = r'.op → r.op ∈ [0x0#4, 0x9#4, 0xA#4] → decode r = decode r') ∧
  (∀ (r : Request) (s : State), r.op ∈ [0x0#4, 0x9#4, 0xA#4] →
    ∃ t p, exec (decode r) s = .next t ∧ t.rsp = some p ∧ p.status = false ∧ p.cause = .none ∧
      (t.fail = true → s.fail = true))

/-- Every operation code matches exactly one row of the table, and the request decodes to that row's instruction. -/
def Obligations.EveryOperationCodeIsOneRow : Prop :=
  ∀ r : Request, (opTable.filter fun row => row.matches r.op).map OpRow.mnemonic = [(decode r).mnemonic]

/-- Rule R49: `SpecOK`, on the bits of the descriptor. -/
def Obligations.SpecOkIsTheWrittenCondition : Prop :=
  (∀ r : Request, r.op = 0x1 ∨ r.op = 0x2 → ((decode r).specOk = true ↔ Claims.scalarSpecOk r.spec)) ∧
  (∀ r : Request, r.op = 0x3 ∨ r.op = 0x4 → ((decode r).specOk = true ↔ Claims.bitfieldSpecOk r.spec)) ∧
  (∀ r : Request, r.op = 0x5 ∨ r.op = 0x6 ∨ r.op = 0x7 ∨ r.op = 0x8 →
    ((decode r).specOk = true ↔ Claims.dualSpecOk r.spec)) ∧
  (∀ (r : Request) (s : State), r.op ≠ 0x0 → r.op < 0x9 → (decode r).specOk = false →
    ∃ t p, exec (decode r) s = .next t ∧ t.rsp = some p ∧ p.cause = .badSpec)

/-! ## Reset and the step -/

/-- Right after reset `STATUS = 0x00`, `FAIL = 0`, `fail_o = 0`, and there is no other state to reset; the response
port has no defined value (rule R23), which the model writes as `none` (log entry 2). That a reset step leaves the
host's side alone is the model's reading (log entry 14). -/
def Obligations.ResetClearsStatus : Prop :=
  State.reset.statusReg = 0x00 ∧ State.reset.fail = false ∧ State.reset.failO = false ∧ State.reset.rsp = none ∧
  ∀ (s : State) (rest : List Event), s.inputs = .reset :: rest →
    ∃ t, step s = .next t ∧ t.statusReg = 0x00 ∧ t.fail = false ∧ t.failO = false ∧ t.rsp = none ∧
      t.mem = s.mem ∧ t.threads = s.threads ∧ t.inputs = rest

/-- Any number of resets in a row leaves what one leaves, in any state (rule R122). The response port as `none` is the
model's choice (log entry 2), the host's side left alone its reading (log entry 14). -/
def Obligations.ResetIsIdempotentAndTotal : Prop :=
  ∀ (n : Nat) (s : State) (rest : List Event), s.inputs = List.replicate (n + 1) .reset ++ rest →
    Sys2Proof.core.run (n + 1) s = (.next { s.resetBlock with inputs := rest } : Host.Outcome State Fault Refusal) ∧
    s.resetBlock.fail = State.reset.fail ∧ s.resetBlock.rsp = State.reset.rsp

/-- The invariant holds after reset. -/
def Obligations.InvariantHoldsAfterReset : Prop := State.reset.Inv = true

/-- Every step keeps the invariant: the memory keeps its canonical form, and the port holds a legal response. -/
def Obligations.EveryStepKeepsTheInvariant : Prop :=
  ∀ s t : State, s.Inv = true → step s = .next t → t.Inv = true

/-- Nothing stops the machine as long as no thread makes the one access that the host must not issue, and no step
adds one. -/
def Obligations.ContainedHostNeverStopsTheMachine : Prop :=
  ∀ s : State, s.contained = true → ∃ t, step s = .next t ∧ t.contained = true

/-- A step runs the instruction that the presented request decodes to, the request taken off the port. -/
def Obligations.StepRunsThePresentedRequest : Prop :=
  ∀ (s : State) (r : Request) (rest : List Event), s.inputs = .request r :: rest →
    step s = exec (decode r) { s with inputs := rest }

/-- A step runs the request that a thread's sequence comes to, and the response goes to that thread. -/
def Obligations.StepRunsTheRequestOfAThread : Prop :=
  ∀ (s : State) (k : Nat) (b w : Bool) (rest : List Event) (th : Thread) (j : Job) (js : List Job) (i : Instr),
    s.inputs = .thread k b w :: rest → s.threads[k]? = some th → th.jobs = j :: js → j.request? = some i →
    ∃ u p, exec i { s with inputs := rest } = .next u ∧ u.rsp = some p ∧
      step s = .next { u with threads := u.threads.set k (th.advance (j.answer p)) }

/-! ## The instructions -/

/-- Rule R59: `ENC`. -/
def Obligations.EncMergesTheQuantizedValue : Prop :=
  (∀ r : Request, r.op = 0x1 → decode r = .enc r.physIn r.wordIn (decodeSpec r.spec) r.rdFail) ∧
  (∀ (v : Phys) (w : RegWord) (S : Spec) (f : Bool) (s : State), (Instr.enc v w S f).specOk = false →
    exec (.enc v w S f) s = .next { s with rsp := some ⟨true, .badSpec, 0, 0⟩ }) ∧
  (∀ (v : Phys) (w : RegWord) (S : FieldSpec Config.PW Config.RW) (f : Bool) (s : State), S.scalarOk = true →
    ∃ word : RegWord,
      exec (.enc v w (.scalar S) f) s =
        .next { s with fail := s.fail || f, rsp := some ⟨f, if f then .readFail else .none, word, 0⟩ } ∧
      ∀ i, i < 16 → word.getLsbD i =
        if S.offset.toNat ≤ i ∧ i < S.offset.toNat + S.width.toNat then
          (Claims.quotient S.minVal.toInt S.maxVal.toInt S.res.toNat v.toInt).toNat.testBit (i - S.offset.toNat)
        else !f && w.getLsbD i)

/-- Rule R60: `DEC`. -/
def Obligations.DecScalesTheField : Prop :=
  (∀ r : Request, r.op = 0x2 → decode r = .dec r.wordIn (decodeSpec r.spec) r.rdFail) ∧
  (∀ (w : RegWord) (S : Spec) (f : Bool) (s : State), (Instr.dec w S f).specOk = false →
    exec (.dec w S f) s = .next { s with rsp := some ⟨true, .badSpec, 0, 0⟩ }) ∧
  (∀ (w : RegWord) (S : FieldSpec Config.PW Config.RW) (f : Bool) (s : State), S.scalarOk = true →
    ∃ phys : Phys,
      exec (.dec w (.scalar S) f) s =
        .next { s with fail := s.fail || f, rsp := some ⟨f, if f then .readFail else .none, 0, phys⟩ } ∧
      phys.toInt = if f then 0
        else ((w.toNat / 2 ^ S.offset.toNat % 2 ^ S.width.toNat : Nat) : Int) * S.res.toNat + S.minVal.toInt)

/-- Rule R84: `BFI`. -/
def Obligations.BfiInsertsTheLowBits : Prop :=
  (∀ r : Request, r.op = 0x3 → decode r = .bfi r.physIn r.wordIn (decodeSpec r.spec) r.rdFail) ∧
  (∀ (v : Phys) (w : RegWord) (S : Spec) (f : Bool) (s : State), (Instr.bfi v w S f).specOk = false →
    exec (.bfi v w S f) s = .next { s with rsp := some ⟨true, .badSpec, 0, 0⟩ }) ∧
  (∀ (v : Phys) (w : RegWord) (S : FieldSpec Config.PW Config.RW) (f : Bool) (s : State), S.bitfieldOk = true →
    ∃ word : RegWord,
      exec (.bfi v w (.bitfield S) f) s =
        .next { s with fail := s.fail || f, rsp := some ⟨f, if f then .readFail else .none, word, 0⟩ } ∧
      ∀ i, i < 16 → word.getLsbD i =
        if S.offset.toNat ≤ i ∧ i < S.offset.toNat + S.width.toNat then v.getLsbD (i - S.offset.toNat)
        else !f && w.getLsbD i)

/-- Rule R85: `BFX`. -/
def Obligations.BfxExtractsTheField : Prop :=
  (∀ r : Request, r.op = 0x4 → decode r = .bfx r.wordIn (decodeSpec r.spec) r.rdFail) ∧
  (∀ (w : RegWord) (S : Spec) (f : Bool) (s : State), (Instr.bfx w S f).specOk = false →
    exec (.bfx w S f) s = .next { s with rsp := some ⟨true, .badSpec, 0, 0⟩ }) ∧
  (∀ (w : RegWord) (S : FieldSpec Config.PW Config.RW) (f : Bool) (s : State), S.bitfieldOk = true →
    ∃ phys : Phys,
      exec (.bfx w (.bitfield S) f) s =
        .next { s with fail := s.fail || f, rsp := some ⟨f, if f then .readFail else .none, 0, phys⟩ } ∧
      phys.toInt = if f then 0 else ((w.toNat / 2 ^ S.offset.toNat % 2 ^ S.width.toNat : Nat) : Int))

/-- Rule R73: `DENCL`. -/
def Obligations.DenclMergesIntoTheLowByte : Prop :=
  (∀ r : Request, r.op = 0x5 → decode r = .dencl r.physIn r.wordIn (decodeSpec r.spec) r.rdFail) ∧
  (∀ (v : Phys) (w : RegWord) (S : Spec) (f : Bool) (s : State), (Instr.dencl v w S f).specOk = false →
    exec (.dencl v w S f) s = .next { s with rsp := some ⟨true, .badSpec, 0, 0⟩ }) ∧
  (∀ (v : Phys) (w : RegWord) (S : DualSpec Config.PW Config.RW) (f : Bool) (s : State), S.ok = true →
    ∃ word : RegWord,
      exec (.dencl v w (.dual S) f) s =
        .next { s with fail := s.fail || f, rsp := some ⟨f, if f then .readFail else .none, word, 0⟩ } ∧
      ∀ i, i < 16 → word.getLsbD i =
        if i < 8 ∧ S.sub0.mask.getLsbD i = true then
          (Claims.quotient S.sub0.minVal.toInt (S.sub0.minVal.toInt + S.sub0.mask.toNat * S.sub0.res.toNat)
            S.sub0.res.toNat v.toInt).toNat.testBit i
        else !f && w.getLsbD i)

/-- Rule R74: `DENCH`. -/
def Obligations.DenchMergesIntoTheHighByte : Prop :=
  (∀ r : Request, r.op = 0x6 → decode r = .dench r.physIn r.wordIn (decodeSpec r.spec) r.rdFail) ∧
  (∀ (v : Phys) (w : RegWord) (S : Spec) (f : Bool) (s : State), (Instr.dench v w S f).specOk = false →
    exec (.dench v w S f) s = .next { s with rsp := some ⟨true, .badSpec, 0, 0⟩ }) ∧
  (∀ (v : Phys) (w : RegWord) (S : DualSpec Config.PW Config.RW) (f : Bool) (s : State), S.ok = true →
    ∃ word : RegWord,
      exec (.dench v w (.dual S) f) s =
        .next { s with fail := s.fail || f, rsp := some ⟨f, if f then .readFail else .none, word, 0⟩ } ∧
      ∀ i, i < 16 → word.getLsbD i =
        if 8 ≤ i ∧ S.sub1.mask.getLsbD (i - 8) = true then
          (Claims.quotient S.sub1.minVal.toInt (S.sub1.minVal.toInt + S.sub1.mask.toNat * S.sub1.res.toNat)
            S.sub1.res.toNat v.toInt).toNat.testBit (i - 8)
        else !f && w.getLsbD i)

/-- Rule R75: `DDECL`. -/
def Obligations.DdeclScalesTheLowByte : Prop :=
  (∀ r : Request, r.op = 0x7 → decode r = .ddecl r.wordIn (decodeSpec r.spec) r.rdFail) ∧
  (∀ (w : RegWord) (S : Spec) (f : Bool) (s : State), (Instr.ddecl w S f).specOk = false →
    exec (.ddecl w S f) s = .next { s with rsp := some ⟨true, .badSpec, 0, 0⟩ }) ∧
  (∀ (w : RegWord) (S : DualSpec Config.PW Config.RW) (f : Bool) (s : State), S.ok = true →
    ∃ phys : Phys,
      exec (.ddecl w (.dual S) f) s =
        .next { s with fail := s.fail || f, rsp := some ⟨f, if f then .readFail else .none, 0, phys⟩ } ∧
      phys.toInt = if f then 0
        else ((w.toNat % 256 &&& S.sub0.mask.toNat : Nat) : Int) * S.sub0.res.toNat + S.sub0.minVal.toInt)

/-- Rule R76: `DDECH`. -/
def Obligations.DdechScalesTheHighByte : Prop :=
  (∀ r : Request, r.op = 0x8 → decode r = .ddech r.wordIn (decodeSpec r.spec) r.rdFail) ∧
  (∀ (w : RegWord) (S : Spec) (f : Bool) (s : State), (Instr.ddech w S f).specOk = false →
    exec (.ddech w S f) s = .next { s with rsp := some ⟨true, .badSpec, 0, 0⟩ }) ∧
  (∀ (w : RegWord) (S : DualSpec Config.PW Config.RW) (f : Bool) (s : State), S.ok = true →
    ∃ phys : Phys,
      exec (.ddech w (.dual S) f) s =
        .next { s with fail := s.fail || f, rsp := some ⟨f, if f then .readFail else .none, 0, phys⟩ } ∧
      phys.toInt = if f then 0
        else ((w.toNat / 256 &&& S.sub1.mask.toNat : Nat) : Int) * S.sub1.res.toNat + S.sub1.minVal.toInt)

/-- Rule R90: `NOP`. -/
def Obligations.NopDoesNothing : Prop :=
  (∀ r : Request, r.op = 0x0 → decode r = .nop) ∧
  ∀ s : State, exec .nop s = .next { s with rsp := some ⟨false, .none, 0, 0⟩ }

/-- Rule R91: `RDST`. -/
def Obligations.RdstReadsWithoutClearing : Prop :=
  (∀ r : Request, r.op = 0x9 → decode r = .rdst) ∧
  ∀ s : State, exec .rdst s = .next { s with rsp := some ⟨false, .none, 0, if s.fail then 1 else 0⟩ } ∧
    s.statusReg.zeroExtend Config.PW = if s.fail then 1 else 0

/-- Rule R92: `CLRF`. -/
def Obligations.ClrfReturnsTheOldStatusAndClears : Prop :=
  (∀ r : Request, r.op = 0xA → decode r = .clrf) ∧
  ∀ s : State,
    exec .clrf s = .next { s with fail := false, rsp := some ⟨false, .none, 0, if s.fail then 1 else 0⟩ } ∧
    s.statusReg.zeroExtend Config.PW = if s.fail then 1 else 0

/-- Rule R52: the reserved operation codes. -/
def Obligations.ReservedCodesFailWithBadOp : Prop :=
  (∀ (r : Request) (s : State), r.op ≥ 0xB →
    exec (decode r) s = .next { s with rsp := some ⟨true, .badOp, 0, 0⟩ }) ∧
  (∀ s : State, exec .reservedB s = .next { s with rsp := some ⟨true, .badOp, 0, 0⟩ }) ∧
  (∀ (low : BitVec 2) (s : State), exec (.reservedCF low) s = .next { s with rsp := some ⟨true, .badOp, 0, 0⟩ })

/-! ## Whole-machine rules about failures and the flag -/

/-- Rules R109 to R112: the cause follows the fixed order of the tests, and with it the status, the data and the flag; on
`READ_FAIL` a decode gives 0, and an encode gives the word that it gives of `0x0000` after a good read. -/
def Obligations.CauseFollowsTheFixedOrder : Prop :=
  ∀ (r : Request) (s : State), ∃ p,
    exec (decode r) s = .next { s with
      fail := if p.cause = .readFail then true else if r.op = 0xA then false else s.fail
      rsp := some p } ∧
    p.cause = Claims.causeOf r ∧ (p.status = true ↔ p.cause ≠ .none) ∧
    (p.cause = .badSpec ∨ p.cause = .badOp → p.wordOut = 0 ∧ p.physOut = 0) ∧
    (p.cause = .readFail → p.physOut = 0) ∧
    (p.cause = .readFail → r.op ∈ [0x2#4, 0x4#4, 0x7#4, 0x8#4] → p.wordOut = 0) ∧
    (p.cause = .readFail → r.op ∈ [0x1#4, 0x3#4, 0x5#4, 0x6#4] →
      exec (decode { r with wordIn := 0x0000, rdFail := false }) s =
        .next { s with rsp := some ⟨false, .none, p.wordOut, 0⟩ })

/-- An instruction changes the flag, by rule R24, and the response port, and nothing else. -/
def Obligations.InstructionChangesFlagAndResponseOnly : Prop :=
  ∀ (i : Instr) (s : State), ∃ p, p.wf = true ∧
    exec i s = .next { s with
      fail := if i = .clrf then false else s.fail || (i.specOk && i.readFailed), rsp := some p }

/-- Rule R53: an illegal descriptor fails every operation that reads a descriptor, and no other. -/
def Obligations.IllegalDescriptorIsBadSpec : Prop :=
  ∀ (r : Request) (s : State),
    (Claims.bits r.spec 16 2 = 3 ∨ Claims.bits r.spec 18 14 ≠ 0 ∨ Claims.bits r.spec 48 16 ≠ 0 ∨
      (Claims.bits r.spec 16 2 ≠ 1 ∧
        (Claims.bits r.spec 37 3 ≠ 0 ∨ Claims.bits r.spec 45 3 ≠ 0 ∨ Claims.bits r.spec 144 16 ≠ 0))) →
    (r.op ≠ 0x0 → r.op < 0x9 → exec (decode r) s = .next { s with rsp := some ⟨true, .badSpec, 0, 0⟩ }) ∧
    (r.op ∈ [0x0#4, 0x9#4, 0xA#4] → ∃ t p, exec (decode r) s = .next t ∧ t.rsp = some p ∧ p.status = false)

/-- The flag falls only when `CLRF` executes or the block is reset, and rises only when an operation that reads a
word is accepted with a failed read. -/
def Obligations.FlagChangesOnlyByClearResetOrAcceptedFailedRead : Prop :=
  ∀ s t : State, step s = .next t →
    (s.fail = true → t.fail = false →
      ∃ e rest, s.inputs = e :: rest ∧ (e = .reset ∨ e.instr? s = some .clrf)) ∧
    (s.fail = false → t.fail = true →
      ∃ e rest i, s.inputs = e :: rest ∧ e.instr? s = some i ∧ i.specOk = true ∧ i.readFailed = true)

/-- The flag is cumulative over any sequence of requests without a `CLRF`. -/
def Obligations.FlagIsCumulative : Prop :=
  ∀ (rs : List Request) (s : State) (rest : List Event), s.inputs = rs.map .request ++ rest →
    (∀ r ∈ rs, r.op ≠ 0xA) →
    ∃ t : State, Sys2Proof.core.run rs.length s = (.next t : Host.Outcome State Fault Refusal) ∧
      t.fail = (s.fail || rs.any fun r => (decode r).specOk && (decode r).readFailed) ∧
      t.mem = s.mem ∧ t.threads = s.threads ∧ t.inputs = rest

/-- A conversion's response is a function of its request: it depends neither on the flag nor on anything else, and a
status operation's response depends on the flag alone. -/
def Obligations.ResponseDependsOnTheRequestAlone : Prop :=
  ∀ (i : Instr) (s s' : State), (i = .rdst ∨ i = .clrf → s.fail = s'.fail) →
    ∃ t t' p, exec i s = .next t ∧ exec i s' = .next t' ∧ t.rsp = some p ∧ t'.rsp = some p ∧
      (s.fail = s'.fail → t.fail = t'.fail)

/-- Rule R48: two descriptors that differ only in `ADDR` give identical responses, and identical states. -/
def Obligations.AddressFieldIsNotRead : Prop :=
  ∀ (r : Request) (spec' : BitVec 160) (s : State), r.spec.toNat / 2 ^ 16 = spec'.toNat / 2 ^ 16 →
    exec (decode { r with spec := spec' }) s = exec (decode r) s

/-! ## The laws of the codec -/

/-- Rule R64: the round-trip clamp law, through the operations in any state. -/
def Obligations.RoundTripClampLaw : Prop :=
  ∀ (v : Phys) (w : RegWord) (S : FieldSpec Config.PW Config.RW) (s : State), S.scalarOk = true → Claims.Fits S →
    ∃ (word : RegWord) (phys : Phys) (t u : State),
      exec (.enc v w (.scalar S) false) s = .next t ∧ t.rsp = some ⟨false, .none, word, 0⟩ ∧
      exec (.dec word (.scalar S) false) t = .next u ∧ u.rsp = some ⟨false, .none, 0, phys⟩ ∧
      phys.toInt = Claims.Q v.toInt S ∧
      0 ≤ Claims.clamped v.toInt S - phys.toInt ∧ Claims.clamped v.toInt S - phys.toInt ≤ S.res.toNat - 1 ∧
      (phys.toInt = Claims.clamped v.toInt S ↔ (Claims.clamped v.toInt S - S.minVal.toInt) % S.res.toNat = 0)

/-- Rule R68: the round trip of every well-formed descriptor, with or without `Fits`. -/
def Obligations.GeneralRoundTripWraps : Prop :=
  (∀ (v : Phys) (w : RegWord) (S : FieldSpec Config.PW Config.RW), S.scalarOk = true →
    (Claims.DEC (Claims.ENC v w S) S).toInt = S.minVal.toInt +
      (Claims.clamped v.toInt S - S.minVal.toInt) / S.res.toNat % 2 ^ S.width.toNat * S.res.toNat) ∧
  (let S := scalarSpec 0x0A 8 6 64 3200 19584
   Claims.ENC 19584 0 S = 0x0000 ∧ Claims.DEC 0x0000 S = 3200 ∧
   Claims.ENC 19583 0 S = 0x3FC0 ∧ Claims.DEC 0x3FC0 S = 19520)

/-- Rule R65: what `ENC` stores is monotonic in the value under `Fits`, and not without. -/
def Obligations.FieldIsMonotonicUnderFits : Prop :=
  (∀ (S : FieldSpec Config.PW Config.RW) (v1 v2 : Phys) (w : RegWord), S.scalarOk = true → Claims.Fits S →
    v1.toInt ≤ v2.toInt →
    Claims.field v1.toInt S ≤ Claims.field v2.toInt S ∧
    Claims.fieldOf (Claims.ENC v1 w S) S ≤ Claims.fieldOf (Claims.ENC v2 w S) S) ∧
  (let S := scalarSpec 0x08 7 8 50 0 6400
   Claims.field 6399 S = 127 ∧ Claims.field 6400 S = 0 ∧
   Claims.fieldOf (Claims.ENC 6399 0 S) S = 127 ∧ Claims.fieldOf (Claims.ENC 6400 0 S) S = 0)

/-- Rule R66: preservation and independence. -/
def Obligations.EncodePreservesAndIsIndependent : Prop :=
  ∀ (S T : FieldSpec Config.PW Config.RW) (v u : Phys) (w w' : RegWord), S.scalarOk = true → T.scalarOk = true →
    Claims.ENC v w S &&& ~~~Claims.mask S = w &&& ~~~Claims.mask S ∧
    Claims.ENC v w S &&& Claims.mask S =
      BitVec.ofNat 16 ((Claims.field v.toInt S).toNat * 2 ^ S.offset.toNat) ∧
    (w &&& Claims.mask S = w' &&& Claims.mask S → Claims.DEC w S = Claims.DEC w' S) ∧
    (Claims.mask S &&& Claims.mask T = 0 →
      Claims.DEC (Claims.ENC v w S) T = Claims.DEC w T ∧
      Claims.ENC u (Claims.ENC v w S) T = Claims.ENC v (Claims.ENC u w T) S) ∧
    Claims.ENC u (Claims.ENC v w S) S = Claims.ENC u w S

/-- Rule R67: the range of decode, and what encoding a decoded value again gives. -/
def Obligations.DecodeRangeAndReencode : Prop :=
  (∀ (S : FieldSpec Config.PW Config.RW) (w : RegWord), S.scalarOk = true →
    S.minVal.toInt ≤ (Claims.DEC w S).toInt ∧
    (Claims.DEC w S).toInt ≤ S.minVal.toInt + (2 ^ S.width.toNat - 1) * S.res.toNat ∧
    (S.res.toNat : Int) ∣ (Claims.DEC w S).toInt - S.minVal.toInt ∧
    ((Claims.DEC w S).toInt ≤ S.maxVal.toInt → Claims.ENC (Claims.DEC w S) w S = w) ∧
    ((Claims.DEC w S).toInt > S.maxVal.toInt →
      (Claims.fieldOf (Claims.ENC (Claims.DEC w S) w S) S : Int) = Claims.field S.maxVal.toInt S)) ∧
  Claims.DEC 0x7FF8 MAXV = 32760

/-- Rule R69: quantizing is idempotent under `Fits`. -/
def Obligations.QuantizationIsIdempotentUnderFits : Prop :=
  ∀ (S : FieldSpec Config.PW Config.RW) (v q : Phys) (w : RegWord), S.scalarOk = true → Claims.Fits S →
    q.toInt = Claims.Q v.toInt S →
    Claims.Q (Claims.Q v.toInt S) S = Claims.Q v.toInt S ∧ Claims.ENC q w S = Claims.ENC v w S

/-- The degenerate widths and ranges of rule R70. -/
def Obligations.DegenerateDescriptorsOfTheCornerTable : Prop :=
  ∀ (S : FieldSpec Config.PW Config.RW) (v : Phys) (w w' : RegWord), S.scalarOk = true →
    (S.width = 0 → Claims.ENC v w S = w ∧ Claims.DEC w S = S.minVal) ∧
    (S.width = 16 → S.offset = 0 → Claims.ENC v w S = Claims.ENC v w' S ∧
      (Claims.DEC w S).toInt = w.toNat * S.res.toNat + S.minVal.toInt) ∧
    (S.maxVal = S.minVal → Claims.ENC v w S = w &&& ~~~Claims.mask S) ∧
    (S.maxVal.toInt - S.minVal.toInt < S.res.toNat → Claims.ENC v w S = w &&& ~~~Claims.mask S)

/-- Rule R86: the laws of the bitfield-only operations. `S` is any bitfield-only descriptor that is `SpecOK`; the same
fields under the tag 0 are the scalar descriptor `S'` of the rule. -/
def Obligations.BitfieldLaws : Prop :=
  ∀ (S T U : FieldSpec Config.PW Config.RW) (v u : Phys) (w w' : RegWord), S.bitfieldOk = true → T.bitfieldOk = true →
    U.scalarOk = true →
    Claims.BFX w S = Claims.DEC w S ∧
    (0 ≤ v.toInt → v.toInt ≤ 2 ^ S.width.toNat - 1 → Claims.BFI v w S = Claims.ENC v w S) ∧
    (Claims.fieldOf (Claims.BFI v w S) S : Int) = v.toInt % 2 ^ S.width.toNat ∧
    (v.toInt < 0 → Claims.fieldOf (Claims.ENC v w S) S = 0) ∧
    (v.toInt > 2 ^ S.width.toNat - 1 → Claims.fieldOf (Claims.ENC v w S) S = 2 ^ S.width.toNat - 1) ∧
    (Claims.BFX (Claims.BFI v w S) S).toInt = v.toInt % 2 ^ S.width.toNat ∧
    Claims.BFI v w S &&& ~~~Claims.mask S = w &&& ~~~Claims.mask S ∧
    (w &&& Claims.mask S = w' &&& Claims.mask S → Claims.BFX w S = Claims.BFX w' S) ∧
    (Claims.mask S &&& Claims.mask T = 0 →
      Claims.BFX (Claims.BFI v w S) T = Claims.BFX w T ∧
      Claims.BFI u (Claims.BFI v w S) T = Claims.BFI v (Claims.BFI u w T) S) ∧
    (Claims.mask S &&& Claims.mask U = 0 →
      Claims.DEC (Claims.BFI v w S) U = Claims.DEC w U ∧ Claims.BFX (Claims.ENC u w U) S = Claims.BFX w S ∧
      Claims.ENC u (Claims.BFI v w S) U = Claims.BFI v (Claims.ENC u w U) S) ∧
    Claims.BFI u (Claims.BFI v w S) S = Claims.BFI u w S

/-- Rule R79: the laws of the dual-value operations, on both halves. -/
def Obligations.DualValueLaws : Prop :=
  ∀ S : DualSpec Config.PW Config.RW, S.ok = true →
    Claims.halfLaws S.sub0 (fun v w => Claims.DENCL v w S) (fun w => Claims.DDECL w S) (fun b => b.zeroExtend 16) ∧
    Claims.halfLaws S.sub1 (fun v w => Claims.DENCH v w S) (fun w => Claims.DDECH w S)
      (fun b => b.zeroExtend 16 <<< 8) ∧
    (∀ (v u : Phys) (w : RegWord), Claims.DENCL u (Claims.DENCH v w S) S = Claims.DENCH v (Claims.DENCL u w S) S) ∧
    (∀ w w' : RegWord, w.toNat % 256 = w'.toNat % 256 → Claims.DDECL w S = Claims.DDECL w' S) ∧
    (∀ w w' : RegWord, w.toNat / 256 = w'.toNat / 256 → Claims.DDECH w S = Claims.DDECH w' S)

/-- Rule R9: no rule depends on `FRAC`, and fixed-point scaling is transparent, at any parameters and in the machine:
scaled descriptors give the same bits of the scaled value, and of the same bits the scaled value. -/
def Obligations.FixedPointScaleIsTransparent : Prop :=
  (∀ (PW RW FRAC FRAC' : Nat) (r : PortRequest ⟨PW, RW, FRAC⟩) (r' : PortRequest ⟨PW, RW, FRAC'⟩) (fail : Bool),
    r.op = r'.op → r.spec = r'.spec → r.physIn = r'.physIn → r.wordIn = r'.wordIn → r.rdFail = r'.rdFail →
    (Block.run r fail).fail = (Block.run r' fail).fail ∧
    (Block.run r fail).rsp.status = (Block.run r' fail).rsp.status ∧
    (Block.run r fail).rsp.cause = (Block.run r' fail).rsp.cause ∧
    (Block.run r fail).rsp.wordOut = (Block.run r' fail).rsp.wordOut ∧
    (Block.run r fail).rsp.physOut = (Block.run r' fail).rsp.physOut) ∧
  (∀ (pw rw pw' rw' frac : Nat) (S : FieldSpec pw rw) (T : FieldSpec pw' rw') (v : Int) (w : RegWord),
    Claims.scaledField frac S T →
    T.encodeWord (v * 2 ^ frac) w = S.encodeWord v w ∧ T.decodeValue w = S.decodeValue w * 2 ^ frac) ∧
  (∀ (pw rw pw' rw' frac : Nat) (F : SubField pw rw) (G : SubField pw' rw') (v : Int) (w : RegWord) (b : Byte),
    Claims.scaledSub frac F G →
    G.encodeLow (v * 2 ^ frac) w = F.encodeLow v w ∧ G.encodeHigh (v * 2 ^ frac) w = F.encodeHigh v w ∧
    G.decodeByte b = F.decodeByte b * 2 ^ frac) ∧
  (∀ (frac : Nat) (S T : FieldSpec Config.PW Config.RW) (v v' : Phys) (w : RegWord), S.scalarOk = true →
    T.scalarOk = true → Claims.scaledField frac S T → v'.toInt = v.toInt * 2 ^ frac →
    Claims.ENC v' w T = Claims.ENC v w S ∧ (Claims.DEC w T).toInt = (Claims.DEC w S).toInt * 2 ^ frac) ∧
  (∀ (frac : Nat) (S T : DualSpec Config.PW Config.RW) (v v' : Phys) (w : RegWord), S.ok = true → T.ok = true →
    Claims.scaledSub frac S.sub0 T.sub0 → Claims.scaledSub frac S.sub1 T.sub1 → v'.toInt = v.toInt * 2 ^ frac →
    Claims.DENCL v' w T = Claims.DENCL v w S ∧ Claims.DENCH v' w T = Claims.DENCH v w S ∧
    (Claims.DDECL w T).toInt = (Claims.DDECL w S).toInt * 2 ^ frac ∧
    (Claims.DDECH w T).toInt = (Claims.DDECH w S).toInt * 2 ^ frac)

/-- Rule R8: presenting `floor(v)` for a real-valued quantity loses nothing. -/
def Obligations.FloorOfThePhysicalValueLosesNothing : Prop :=
  ∀ (v : ℝ) (lo hi res : Int), lo ≤ hi → 1 ≤ res →
    ⌊(max (lo : ℝ) (min v hi) - lo) / res⌋ = quantize lo hi res ⌊v⌋

/-- Rule R6 with R49, R62 and the rules of the operations: at all parameters that R6 admits, the block answers every
request, the converters are exact, and `SpecOK` is what keeps their results in the `PW`-bit range; the machine is this
block at the default parameters. -/
def Obligations.SpecOkKeepsResultsInRange : Prop :=
  (∀ C : Config.Params, Config.admits C = true →
    (∀ S : FieldSpec C.PW C.RW,
      (S.scalarOk = true ↔ S.offset.toNat + S.width.toNat ≤ 16 ∧ S.minVal.toInt ≤ S.maxVal.toInt ∧ 1 ≤ S.res.toNat ∧
        S.minVal.toInt + (2 ^ S.width.toNat - 1) * S.res.toNat ≤ 2 ^ (C.PW - 1) - 1) ∧
      (S.bitfieldOk = true ↔ S.offset.toNat + S.width.toNat ≤ 16 ∧ S.minVal.toInt = 0 ∧ S.res.toNat = 1 ∧
        S.maxVal.toInt = 2 ^ S.width.toNat - 1)) ∧
    (∀ S : DualSpec C.PW C.RW, S.ok = true ↔ 1 ≤ S.sub0.res.toNat ∧ 1 ≤ S.sub1.res.toNat ∧
      S.sub0.minVal.toInt + S.sub0.mask.toNat * S.sub0.res.toNat ≤ 2 ^ (C.PW - 1) - 1 ∧
      S.sub1.minVal.toInt + S.sub1.mask.toNat * S.sub1.res.toNat ≤ 2 ^ (C.PW - 1) - 1) ∧
    (∀ (S : FieldSpec C.PW C.RW) (v : Int) (w : RegWord), S.scalarOk = true →
      -(2 ^ (C.PW - 1)) ≤ S.decodeValue w ∧ S.decodeValue w ≤ 2 ^ (C.PW - 1) - 1 ∧
      0 ≤ S.quantized v ∧ S.quantized v ≤ 2 ^ C.PW - 1) ∧
    (∀ (F : SubField C.PW C.RW) (v : Int) (b : Byte), F.ok = true →
      -(2 ^ (C.PW - 1)) ≤ F.decodeByte b ∧ F.decodeByte b ≤ 2 ^ (C.PW - 1) - 1 ∧
      0 ≤ F.quantized v ∧ F.quantized v ≤ F.mask.toNat) ∧
    ∀ (r : PortRequest C) (fail : Bool),
      (r.op = 0x0 → Block.run r fail = ⟨fail, ⟨false, .none, 0, 0⟩⟩) ∧
      (r.op = 0x9 → Block.run r fail = ⟨fail, ⟨false, .none, 0, if fail then 1 else 0⟩⟩) ∧
      (r.op = 0xA → Block.run r fail = ⟨false, ⟨false, .none, 0, if fail then 1 else 0⟩⟩) ∧
      (r.op ≥ 0xB → Block.run r fail = ⟨fail, ⟨true, .badOp, 0, 0⟩⟩) ∧
      ((r.op = 0x1 ∨ r.op = 0x2) ∧ (∀ S, r.spec = .scalar S → S.scalarOk = false) ∨
        (r.op = 0x3 ∨ r.op = 0x4) ∧ (∀ S, r.spec = .bitfield S → S.bitfieldOk = false) ∨
        (0x5 ≤ r.op ∧ r.op ≤ 0x8) ∧ (∀ S, r.spec = .dual S → S.ok = false) →
        Block.run r fail = ⟨fail, ⟨true, .badSpec, 0, 0⟩⟩) ∧
      (∀ S, r.spec = .scalar S → S.scalarOk = true → r.op = 0x1 → ∃ word : RegWord,
        Block.run r fail =
          ⟨fail || r.rdFail, ⟨r.rdFail, if r.rdFail then .readFail else .none, word, 0⟩⟩ ∧
        ∀ i, i < 16 → word.getLsbD i =
          if S.offset.toNat ≤ i ∧ i < S.offset.toNat + S.width.toNat then
            (Claims.quotient S.minVal.toInt S.maxVal.toInt S.res.toNat r.physIn.toInt).toNat.testBit (i - S.offset.toNat)
          else !r.rdFail && r.wordIn.getLsbD i) ∧
      (∀ S, r.spec = .scalar S → S.scalarOk = true → r.op = 0x2 → ∃ phys : BitVec C.PW,
        Block.run r fail =
          ⟨fail || r.rdFail, ⟨r.rdFail, if r.rdFail then .readFail else .none, 0, phys⟩⟩ ∧
        phys.toInt = if r.rdFail then 0
          else ((r.wordIn.toNat / 2 ^ S.offset.toNat % 2 ^ S.width.toNat : Nat) : Int) * S.res.toNat + S.minVal.toInt) ∧
      (∀ S, r.spec = .bitfield S → S.bitfieldOk = true → r.op = 0x3 → ∃ word : RegWord,
        Block.run r fail =
          ⟨fail || r.rdFail, ⟨r.rdFail, if r.rdFail then .readFail else .none, word, 0⟩⟩ ∧
        ∀ i, i < 16 → word.getLsbD i =
          if S.offset.toNat ≤ i ∧ i < S.offset.toNat + S.width.toNat then r.physIn.getLsbD (i - S.offset.toNat)
          else !r.rdFail && r.wordIn.getLsbD i) ∧
      (∀ S, r.spec = .bitfield S → S.bitfieldOk = true → r.op = 0x4 → ∃ phys : BitVec C.PW,
        Block.run r fail =
          ⟨fail || r.rdFail, ⟨r.rdFail, if r.rdFail then .readFail else .none, 0, phys⟩⟩ ∧
        phys.toInt = if r.rdFail then 0
          else ((r.wordIn.toNat / 2 ^ S.offset.toNat % 2 ^ S.width.toNat : Nat) : Int)) ∧
      (∀ S, r.spec = .dual S → S.ok = true → r.op = 0x5 → ∃ word : RegWord,
        Block.run r fail =
          ⟨fail || r.rdFail, ⟨r.rdFail, if r.rdFail then .readFail else .none, word, 0⟩⟩ ∧
        ∀ i, i < 16 → word.getLsbD i =
          if i < 8 ∧ S.sub0.mask.getLsbD i = true then
            (Claims.quotient S.sub0.minVal.toInt (S.sub0.minVal.toInt + S.sub0.mask.toNat * S.sub0.res.toNat)
              S.sub0.res.toNat r.physIn.toInt).toNat.testBit i
          else !r.rdFail && r.wordIn.getLsbD i) ∧
      (∀ S, r.spec = .dual S → S.ok = true → r.op = 0x6 → ∃ word : RegWord,
        Block.run r fail =
          ⟨fail || r.rdFail, ⟨r.rdFail, if r.rdFail then .readFail else .none, word, 0⟩⟩ ∧
        ∀ i, i < 16 → word.getLsbD i =
          if 8 ≤ i ∧ S.sub1.mask.getLsbD (i - 8) = true then
            (Claims.quotient S.sub1.minVal.toInt (S.sub1.minVal.toInt + S.sub1.mask.toNat * S.sub1.res.toNat)
              S.sub1.res.toNat r.physIn.toInt).toNat.testBit (i - 8)
          else !r.rdFail && r.wordIn.getLsbD i) ∧
      (∀ S, r.spec = .dual S → S.ok = true → r.op = 0x7 → ∃ phys : BitVec C.PW,
        Block.run r fail =
          ⟨fail || r.rdFail, ⟨r.rdFail, if r.rdFail then .readFail else .none, 0, phys⟩⟩ ∧
        phys.toInt = if r.rdFail then 0
          else ((r.wordIn.toNat % 256 &&& S.sub0.mask.toNat : Nat) : Int) * S.sub0.res.toNat + S.sub0.minVal.toInt) ∧
      (∀ S, r.spec = .dual S → S.ok = true → r.op = 0x8 → ∃ phys : BitVec C.PW,
        Block.run r fail =
          ⟨fail || r.rdFail, ⟨r.rdFail, if r.rdFail then .readFail else .none, 0, phys⟩⟩ ∧
        phys.toInt = if r.rdFail then 0
          else ((r.wordIn.toNat / 256 &&& S.sub1.mask.toNat : Nat) : Int) * S.sub1.res.toNat + S.sub1.minVal.toInt)) ∧
  (Config.admits Config.standard = true ∧ Config.standard = { PW := 32, RW := 16, FRAC := 0 }) ∧
  ∀ (q : Request) (s : State), exec (decode q) s = .next { s with
    fail := (Block.run q.record s.fail).fail, rsp := some (Block.run q.record s.fail).rsp }

/-- The register map: its descriptors have the words that the spec writes, are `SpecOK`, and all but two are
`Fits`; the two are with the repaired parameters. -/
def Obligations.RegisterMapDescriptors : Prop :=
  encodeSpec (.scalar ICHG) = joinWords 0x00000040 0x00001FC0 0x00000000 0x00000607 0x00000002 ∧
  encodeSpec (.scalar MAXV) = joinWords 0x00000008 0x00004B00 0x00000000 0x0000030C 0x00000004 ∧
  encodeSpec (.scalar MINSYS) = joinWords 0x00000100 0x00003F00 0x00000000 0x00000806 0x0000000C ∧
  encodeSpec (.scalar OTGV_LO) = joinWords 0x00000008 0x00005140 0x00000000 0x0000020C 0x00000006 ∧
  encodeSpec (.scalar OTGV_HI) = joinWords 0x00000008 0x00005140 0x00000500 0x0000020C 0x00000006 ∧
  encodeSpec (.scalar OTGI) = joinWords 0x00000032 0x00001900 0x00000000 0x00000807 0x00000008 ∧
  encodeSpec (.scalar VINDPM) = joinWords 0x00000040 0x00004C80 0x00000C80 0x00000608 0x0000000A ∧
  (scalarRows.all FieldSpec.scalarOk) = true ∧
  scalarRows.map FieldSpec.fits = [true, true, true, true, true, false, false] ∧
  (otgCurrent Config.OTGI_MAX_REPAIRED).fits = true ∧ (inputVoltage Config.VINDPM_MAX_REPAIRED).fits = true

/-! ## The host's side -/

/-- Rule R28: a bare `MemRead`, undisturbed, its two bytes in one step or in two. -/
def Obligations.MemReadReturnsTheBytesOrZeros : Prop :=
  ∀ (s : State) (k : Nat) (b : Bool) (evs rest : List Event) (th : Thread) (addr : Byte) (n : NBytes) (js : List Job),
    Claims.transfer k n b evs → s.inputs = evs ++ rest → s.threads[k]? = some th →
    th.jobs = .memRead addr n .start :: js → (n = .two → addr ≠ 0xFF) →
    Sys2Proof.core.run evs.length s = (.next { s with
      threads := s.threads.set k { jobs := js, done := .bytes b (match n with
        | .one => [if b then 0 else s.mem.readByte addr]
        | .two => [if b then 0 else s.mem.readByte addr, if b then 0 else s.mem.readByte (addr + 1)]) :: th.done }
      inputs := rest } : Host.Outcome State Fault Refusal)

/-- Rule R29, with R36 and R130: a bare `MemWrite`, undisturbed, its two bytes in one step or in two. That a write may
travel in two steps as a torn read does, so that between them the first byte is stored and the second is not, is the
model's choice (log entry 6). -/
def Obligations.MemWriteStoresAllOrNothing : Prop :=
  ∀ (s : State) (k : Nat) (b : Bool) (evs rest : List Event) (th : Thread) (addr b0 b1 : Byte) (js : List Job),
    s.threads[k]? = some th →
    (th.jobs = .memWrite1 addr b0 :: js → Claims.transfer k .one b evs → s.inputs = evs ++ rest →
      ∃ m : Memory, Sys2Proof.core.run evs.length s = (.next { s with
        mem := m, threads := s.threads.set k { jobs := js, done := .status b :: th.done }, inputs := rest } :
        Host.Outcome State Fault Refusal) ∧
      (b = true → m = s.mem) ∧
      (b = false → ∀ a, m.readByte a = if a = addr then b0 else s.mem.readByte a)) ∧
    (th.jobs = .memWrite2 addr b0 b1 .start :: js → addr ≠ 0xFF → Claims.transfer k .two b evs →
      s.inputs = evs ++ rest →
      ∃ m : Memory, Sys2Proof.core.run evs.length s = (.next { s with
        mem := m, threads := s.threads.set k { jobs := js, done := .status b :: th.done }, inputs := rest } :
        Host.Outcome State Fault Refusal) ∧
      (b = true → m = s.mem) ∧
      (b = false → ∀ a, m.readByte a = if a = addr then b0 else if a = addr + 1 then b1 else s.mem.readByte a)) ∧
    (th.jobs = .memWrite2 addr b0 b1 .start :: js → addr ≠ 0xFF → s.inputs = .thread k false false :: rest →
      ∃ m : Memory, step s = .next { s with
        mem := m, inputs := rest,
        threads := s.threads.set k { jobs := .memWrite2 addr b0 b1 .secondByte :: js, done := th.done } } ∧
      ∀ a, m.readByte a = if a = addr then b0 else s.mem.readByte a)

/-- Rules R30, R32 and R34: `GET`, `GETB`, `DGETL` and `DGETH` of a register of one or two bytes, undisturbed, the two
bytes of the read in one step or in two. That a one-byte register is read so for a descriptor of `OFFSET + WIDTH > 8`
as well, which rule R34 tells the host not to use, is the model's choice (log entry 19). -/
def Obligations.GetReadsTheWordAndDecodesIt : Prop :=
  ∀ (s : State) (k : Nat) (b b' w' : Bool) (evs rest : List Event) (th : Thread) (a : Access) (n : NBytes) (S : Spec)
    (js : List Job),
    Claims.transfer k n b evs → s.inputs = evs ++ .thread k b' w' :: rest → s.threads[k]? = some th →
    th.jobs = .get a n S .start :: js → (n = .two → busAddr S ≠ 0xFF) →
    ∃ u p, exec (a.decodeInstr (Claims.wordRead s.mem (busAddr S) n b) S b) s = .next u ∧ u.rsp = some p ∧
      Sys2Proof.core.run (evs.length + 1) s = (.next { s with
        fail := u.fail, rsp := some p, inputs := rest,
        threads := s.threads.set k { jobs := js, done := .value p.physOut p.status :: th.done } } :
        Host.Outcome State Fault Refusal) ∧
      (b = true → p.physOut = 0 ∧ p.status = true ∧ ((a.decodeInstr 0 S b).specOk = true → u.fail = true))

/-- Rules R31, R32 and R34: `SET`, `SETB`, `DSETL` and `DSETH` of a register of one or two bytes, undisturbed, the two
bytes of the read and of the write back each in one step or in two. A failed request ends the sequence with status 1
and no write. That no address is protected, and that a one-byte register takes `word_out[7:0]` for a descriptor of
`OFFSET + WIDTH > 8` as well, which rule R34 tells the host not to use, is the model's choice (log entry 19). -/
def Obligations.SetReadsEncodesAndWritesBack : Prop :=
  ∀ (s : State) (k : Nat) (b b' w' b'' : Bool) (evs evs' rest : List Event) (th : Thread) (a : Access) (n : NBytes)
    (S : Spec) (v : Phys) (js : List Job),
    s.threads[k]? = some th → th.jobs = .set a n S v .start :: js → (n = .two → busAddr S ≠ 0xFF) →
    Claims.transfer k n b evs → Claims.transfer k n b'' evs' →
    ∃ u p, exec (a.encodeInstr v (Claims.wordRead s.mem (busAddr S) n b) S b) s = .next u ∧ u.rsp = some p ∧
      (b = true → p.status = true) ∧
      (p.status = true → s.inputs = evs ++ .thread k b' w' :: rest →
        Sys2Proof.core.run (evs.length + 1) s = (.next { s with
          fail := u.fail, rsp := some p, inputs := rest,
          threads := s.threads.set k { jobs := js, done := .status true :: th.done } } :
          Host.Outcome State Fault Refusal)) ∧
      (p.status = false → s.inputs = evs ++ .thread k b' w' :: (evs' ++ rest) →
        ∃ m : Memory, Sys2Proof.core.run (evs.length + 1 + evs'.length) s = (.next { s with
          fail := u.fail, rsp := some p, mem := m, inputs := rest,
          threads := s.threads.set k { jobs := js, done := .status b'' :: th.done } } :
          Host.Outcome State Fault Refusal) ∧
        (b'' = true → m = s.mem) ∧
        (b'' = false → ∀ x, m.readByte x =
          if x = busAddr S then lowByte p.wordOut
          else if n = .two ∧ x = busAddr S + 1 then highByte p.wordOut
          else s.mem.readByte x))

/-- Rules R33 and R80: `ADCGET` of contiguous sub-fields, undisturbed, returns the live value of the half asked for,
clamped and rounded down; the other half has no effect, and no memory is touched. -/
def Obligations.AdcGetQuantizesTheLiveValue : Prop :=
  ∀ (s : State) (k : Nat) (b1 w1 b2 w2 b3 w3 sel : Bool) (rest : List Event) (th : Thread)
    (S : DualSpec Config.PW Config.RW) (v0 v1 : Phys) (js : List Job),
    S.ok = true → Claims.contiguous S.sub0 → Claims.contiguous S.sub1 → s.threads[k]? = some th →
    th.jobs = .adcget (.dual S) sel v0 v1 .first :: js →
    s.inputs = .thread k b1 w1 :: .thread k b2 w2 :: .thread k b3 w3 :: rest →
    ∃ (phys : Phys) (p : Response), Sys2Proof.core.run 3 s = (.next { s with
        rsp := some p, inputs := rest,
        threads := s.threads.set k { jobs := js, done := .value phys false :: th.done } } :
        Host.Outcome State Fault Refusal) ∧
      phys.toInt =
        if sel then S.sub1.minVal.toInt + Claims.quotient S.sub1.minVal.toInt
          (S.sub1.minVal.toInt + S.sub1.mask.toNat * S.sub1.res.toNat) S.sub1.res.toNat v1.toInt * S.sub1.res.toNat
        else S.sub0.minVal.toInt + Claims.quotient S.sub0.minVal.toInt
          (S.sub0.minVal.toInt + S.sub0.mask.toNat * S.sub0.res.toNat) S.sub0.res.toNat v0.toInt * S.sub0.res.toNat

/-- Rule R37: a `GET` by the thread whose `SET` returned 0, with nothing in between, returns the value the `SET`
was given, clamped and rounded down. That this includes the addresses that the host is to treat as read-only is the
model's choice (log entry 19). -/
def Obligations.GetAfterOwnSetSeesTheWrite : Prop :=
  ∀ (s : State) (k : Nat) (b2 w2 b5 w5 : Bool) (rest : List Event) (th : Thread)
    (S : FieldSpec Config.PW Config.RW) (v : Phys) (js : List Job),
    S.scalarOk = true → Claims.Fits S → busAddr (.scalar S) ≠ 0xFF → s.threads[k]? = some th →
    th.jobs = .set .scalar .two (.scalar S) v .start :: .get .scalar .two (.scalar S) .start :: js →
    s.inputs = .thread k false true :: .thread k b2 w2 :: .thread k false true :: .thread k false true ::
      .thread k b5 w5 :: rest →
    ∃ (t : State) (phys : Phys), Sys2Proof.core.run 5 s = (.next t : Host.Outcome State Fault Refusal) ∧
      t.threads[k]? = some { jobs := js, done := .value phys false :: .status false :: th.done } ∧
      t.fail = s.fail ∧ t.inputs = rest ∧
      phys.toInt = Claims.Q v.toInt S

/-- The bus step of a thread changes no byte but those that its sequence stores to, and neither flag nor response. -/
def Obligations.BusStepStoresOnlyWhereItSays : Prop :=
  ∀ (s t : State) (k : Nat) (b w : Bool) (rest : List Event) (th : Thread) (j : Job) (js : List Job),
    s.inputs = .thread k b w :: rest → s.threads[k]? = some th → th.jobs = j :: js → j.request? = none →
    step s = .next t →
    t.fail = s.fail ∧ t.rsp = s.rsp ∧ t.inputs = rest ∧ (∀ l, l ≠ k → t.threads[l]? = s.threads[l]?) ∧
    ∀ a, a ∉ j.storeAddrs b w → t.mem.readByte a = s.mem.readByte a

/-- Another agent's store changes the one byte it names. -/
def Obligations.AgentWriteStoresOneByte : Prop :=
  ∀ (s : State) (addr b : Byte) (rest : List Event), s.inputs = .agentWrite addr b :: rest →
    ∃ m : Memory, step s = .next { s with mem := m, inputs := rest } ∧
      ∀ a, m.readByte a = if a = addr then b else s.mem.readByte a

/-- Rule R35: a two-byte access at 0xFF is refused, by name. -/
def Obligations.TwoByteAccessAtTheLastAddressIsRefused : Prop :=
  ∀ (s : State) (k : Nat) (b w : Bool) (rest : List Event) (th : Thread) (j : Job) (js : List Job),
    s.inputs = .thread k b w :: rest → s.threads[k]? = some th → th.jobs = j :: js →
    (∃ a S, j = .get a .two S .start ∧ busAddr S = 0xFF) ∨ (∃ a S v, j = .set a .two S v .start ∧ busAddr S = 0xFF) ∨
      j = .memRead 0xFF .two .start ∨ (∃ b0 b1, j = .memWrite2 0xFF b0 b1 .start) →
    step s = .refused .wordAtLastAddress

/-- Rule R127: two `SETB` on one word whose reads both come before either write: the second write back loses the
first update, and every response reports success. -/
def Obligations.InterleavedSetsLoseAnUpdate : Prop :=
  ∀ (s : State) (k l : Nat) (rest : List Event) (th tl : Thread) (S T : FieldSpec Config.PW Config.RW) (v u : Phys)
    (js ls : List Job),
    k ≠ l → S.bitfieldOk = true → T.bitfieldOk = true → Claims.mask S &&& Claims.mask T = 0 →
    busAddr (.bitfield S) = busAddr (.bitfield T) → busAddr (.bitfield S) ≠ 0xFF →
    s.threads[k]? = some th → s.threads[l]? = some tl →
    th.jobs = .set .bitfield .two (.bitfield S) v .start :: js →
    tl.jobs = .set .bitfield .two (.bitfield T) u .start :: ls →
    s.inputs = .thread k false true :: .thread l false true :: .thread k false true :: .thread l false true ::
      .thread k false true :: .thread l false true :: rest →
    ∃ t : State, Sys2Proof.core.run 6 s = (.next t : Host.Outcome State Fault Refusal) ∧
      (let old := Claims.wordRead s.mem (busAddr (.bitfield S)) .two false
       let new := Claims.wordRead t.mem (busAddr (.bitfield S)) .two false
       Claims.fieldOf new S = Claims.fieldOf old S ∧ (Claims.fieldOf new T : Int) = u.toInt % 2 ^ T.width.toNat) ∧
      t.fail = s.fail ∧
      t.threads[k]? = some { jobs := js, done := .status false :: th.done } ∧
      t.threads[l]? = some { jobs := ls, done := .status false :: tl.done }

/-- Rule R130: a store by another agent between the two bytes of a read gives a torn word, and the block gets it as
it is, with a good read status. -/
def Obligations.TornWordReachesTheBlock : Prop :=
  ∀ (s : State) (k : Nat) (b2 w2 b3 w3 : Bool) (new : Byte) (rest : List Event) (th : Thread) (a : Access) (S : Spec)
    (js : List Job),
    busAddr S ≠ 0xFF → s.threads[k]? = some th → th.jobs = .get a .two S .start :: js →
    s.inputs = .thread k false false :: .agentWrite (busAddr S + 1) new :: .thread k b2 w2 :: .thread k b3 w3 :: rest →
    ∃ (t u : State) (p : Response),
      exec (a.decodeInstr (pack16 (s.mem.readByte (busAddr S)) new) S false) s = .next u ∧ u.rsp = some p ∧
      Sys2Proof.core.run 4 s = (.next t : Host.Outcome State Fault Refusal) ∧
      t.threads[k]? = some { jobs := js, done := .value p.physOut p.status :: th.done } ∧ t.fail = u.fail

/-- Rule R131: the OTG voltage field means 1280 mV more while the "low range" bit is not set. -/
def Obligations.OtgVoltageDependsOnTheRangeBit : Prop :=
  (∀ w : RegWord, (Claims.DEC w (otgVoltage false)).toInt = (Claims.DEC w (otgVoltage true)).toInt + 1280) ∧
  Claims.ENC 9000 0 (otgVoltage false) = 0x0F14 ∧ Claims.DEC 0x0F14 (otgVoltage true) = 7720 ∧
  Claims.ENC 9000 0 (otgVoltage true) = 0x1194 ∧ Claims.DEC 0x1194 (otgVoltage false) = 10280

/-- Rule R56: the pseudo-operations that are requests alone, undisturbed, and a request of the thread's own. The rule
gives `BSET` and `BCLR` for a descriptor of `WIDTH = 1`; that the same expansion stands for any other descriptor is the
model's choice (log entry 19). -/
def Obligations.PseudoOperationsExpandAsWritten : Prop :=
  ∀ (s : State) (k : Nat) (b w b' w' : Bool) (rest : List Event) (th : Thread) (js : List Job),
    s.threads[k]? = some th →
    (∀ (j : Job) (i : Instr),
      (∃ v S, j = .encz v S ∧ i = .enc v 0x0000 S false) ∨ (∃ x S, j = .bset x S ∧ i = .bfi 1 x S false) ∨
        (∃ x S, j = .bclr x S ∧ i = .bfi 0 x S false) ∨ (∃ r, j = .issue r ∧ i = decode r) →
      th.jobs = j :: js → s.inputs = .thread k b w :: rest →
      ∃ u p, exec i s = .next u ∧ u.rsp = some p ∧ step s = .next { s with
        fail := u.fail, rsp := some p, inputs := rest,
        threads := s.threads.set k { jobs := js, done := .response p :: th.done } }) ∧
    (∀ (v : Phys) (S : Spec), th.jobs = .qnt v S .first :: js →
      s.inputs = .thread k b w :: .thread k b' w' :: rest →
      ∃ u p t q, exec (.enc v 0x0000 S false) s = .next u ∧ u.rsp = some p ∧
        exec (.dec p.wordOut S false) s = .next t ∧ t.rsp = some q ∧
        Sys2Proof.core.run 2 s = (.next { s with
          fail := s.fail, rsp := some q, inputs := rest,
          threads := s.threads.set k { jobs := js, done := .value q.physOut q.status :: th.done } } :
          Host.Outcome State Fault Refusal))
end

