-- ==== Sys2Proof/Laws/State.lean ====
section
/-!
SUPPORT. One lemma for each field of State and each update of it, and the views of the state (rules R17 to R19).
-/

namespace Sys2Proof.Machine

open Sys2Proof

variable (s : State)

@[simp] theorem State.settle_fail (e : Effect Config.standard) : (s.settle e).fail = e.fail := rfl
@[simp] theorem State.settle_rsp (e : Effect Config.standard) : (s.settle e).rsp = some e.rsp := rfl
@[simp] theorem State.settle_mem (e : Effect Config.standard) : (s.settle e).mem = s.mem := rfl
@[simp] theorem State.settle_threads (e : Effect Config.standard) : (s.settle e).threads = s.threads := rfl
@[simp] theorem State.settle_inputs (e : Effect Config.standard) : (s.settle e).inputs = s.inputs := rfl

@[simp] theorem State.resetBlock_fail : (s.resetBlock).fail = false := rfl
@[simp] theorem State.resetBlock_rsp : (s.resetBlock).rsp = none := rfl
@[simp] theorem State.resetBlock_mem : (s.resetBlock).mem = s.mem := rfl
@[simp] theorem State.resetBlock_threads : (s.resetBlock).threads = s.threads := rfl
@[simp] theorem State.resetBlock_inputs : (s.resetBlock).inputs = s.inputs := rfl

@[simp] theorem State.setThread_fail (k : Nat) (t : Thread) : (s.setThread k t).fail = s.fail := rfl
@[simp] theorem State.setThread_rsp (k : Nat) (t : Thread) : (s.setThread k t).rsp = s.rsp := rfl
@[simp] theorem State.setThread_mem (k : Nat) (t : Thread) : (s.setThread k t).mem = s.mem := rfl
@[simp] theorem State.setThread_threads (k : Nat) (t : Thread) : (s.setThread k t).threads = s.threads.set k t := rfl
@[simp] theorem State.setThread_inputs (k : Nat) (t : Thread) : (s.setThread k t).inputs = s.inputs := rfl

/-- `fail_o` is the flag at all times (rule R19). -/
@[simp] theorem State.failO_eq : s.failO = s.fail := rfl

/-- `STATUS` reads as 1 or 0 (rule R18). -/
@[simp] theorem statusOf_eq (fail : Bool) : statusOf fail = if fail then 1 else 0 := by
  cases fail <;> rfl

/-- `STATUS` of the machine reads as 1 or 0 (rule R18). -/
@[simp] theorem State.statusReg_eq : s.statusReg = if s.fail then 1 else 0 := statusOf_eq s.fail

/-- `STATUS` zero-extended to a physical value, at any width that holds a bit (rules R18 and R91). -/
theorem statusOf_phys {n : Nat} (hn : 1 ≤ n) (fail : Bool) : (statusOf fail).zeroExtend n = if fail then 1 else 0 := by
  cases fail
  · simp [statusOf_eq]
  · apply BitVec.eq_of_toNat_eq
    have : 1 % 2 ^ n = 1 := Nat.mod_eq_of_lt (Nat.one_lt_two_pow (by omega))
    simp [statusOf_eq, this]

/-- `STATUS` of the machine zero-extended to a physical value (rules R18 and R91). -/
@[simp] theorem State.statusReg_phys : s.statusReg.zeroExtend Config.PW = if s.fail then 1 else 0 :=
  statusOf_phys (by decide) s.fail

/-- Resetting twice is resetting once (rule R122). -/
@[simp] theorem State.resetBlock_resetBlock : s.resetBlock.resetBlock = s.resetBlock := rfl

/-- The state after reset lists nothing, so its memory has the canonical form. -/
theorem State.reset_mem_wf : State.reset.mem.wf = true := rfl

end Sys2Proof.Machine
end

