-- ==== Sys2Proof/Laws/Ops.lean ====
section
/-!
SUPPORT. What the shared operations do, once each: the arithmetic, the merge, acceptance, and the memory.
-/

namespace Sys2Proof

/-! ## Arithmetic -/

/-- `clamp` in the shape of minimum and maximum. -/
theorem clamp_eq_max_min {v lo hi : Int} (h : lo ≤ hi) : clamp v lo hi = max lo (min v hi) := by
  unfold clamp; split <;> [skip; split] <;> omega

/-- A clamped value lies between the bounds. -/
theorem clamp_mem {v lo hi : Int} (h : lo ≤ hi) : lo ≤ clamp v lo hi ∧ clamp v lo hi ≤ hi := by
  unfold clamp; split <;> [skip; split] <;> omega

/-- A value between the bounds is its own clamp. -/
theorem clamp_of_mem {v lo hi : Int} (h₁ : lo ≤ v) (h₂ : v ≤ hi) : clamp v lo hi = v := by
  unfold clamp; split <;> [skip; split] <;> omega

/-- `clamp` is monotonic. -/
theorem clamp_mono {v₁ v₂ lo hi : Int} (h : lo ≤ hi) (hv : v₁ ≤ v₂) : clamp v₁ lo hi ≤ clamp v₂ lo hi := by
  rw [clamp_eq_max_min h, clamp_eq_max_min h]; omega

/-- The quantized value is not negative (rule R62 d). -/
theorem quantize_nonneg {lo hi res v : Int} (h : lo ≤ hi) (hr : 0 ≤ res) : 0 ≤ quantize lo hi res v :=
  Int.ediv_nonneg (by have := (clamp_mem (v := v) h).1; omega) hr

/-- The quantized value of any input is at most that of the upper bound (rule R62 e). -/
theorem quantize_le_top {lo hi res v : Int} (h : lo ≤ hi) (hr : 0 < res) :
    quantize lo hi res v ≤ fdiv (hi - lo) res :=
  Int.ediv_le_ediv hr (by have := (clamp_mem (v := v) h).2; omega)

/-- Quantizing is monotonic. -/
theorem quantize_mono {lo hi res v₁ v₂ : Int} (h : lo ≤ hi) (hr : 0 < res) (hv : v₁ ≤ v₂) :
    quantize lo hi res v₁ ≤ quantize lo hi res v₂ :=
  Int.ediv_le_ediv hr (by have := clamp_mono h hv; omega)

/-- The quantized value times the step, and the rest, give back the clamped value. -/
theorem quantize_mul_add {lo hi res v : Int} :
    quantize lo hi res v * res + (clamp v lo hi - lo) % res = clamp v lo hi - lo := by
  unfold quantize fdiv; rw [mul_comm]; exact Int.mul_ediv_add_emod _ _

/-! ## Words -/

/-- A bit of a merge: inside the mask it is the field's, outside it is the old word's or the field's. -/
@[simp] theorem getLsbD_merge (w fm f : RegWord) (i : Nat) :
    (merge w fm f).getLsbD i = ((w.getLsbD i && (decide (i < 16) && !fm.getLsbD i)) || f.getLsbD i) := by
  simp [merge]

/-- A bit of a field mask. -/
theorem FieldSpec.getLsbD_fm {pw rw : Nat} (S : FieldSpec pw rw) (i : Nat) :
    S.fm.getLsbD i =
      decide (i < 16 ∧ S.offset.toNat ≤ i ∧ i < S.offset.toNat + S.width.toNat) := by
  simp only [FieldSpec.fm, FieldSpec.wm, BitVec.getLsbD_ofNat, Nat.testBit_shiftLeft, Nat.testBit_two_pow_sub_one]
  by_cases h : S.offset.toNat ≤ i
  · have : (i - S.offset.toNat < S.width.toNat) = (i < S.offset.toNat + S.width.toNat) := by
      rw [eq_iff_iff]; omega
    simp [h, this]
  · simp [h]

/-- A bit of a field value put in its place. -/
theorem FieldSpec.getLsbD_place {pw rw : Nat} (S : FieldSpec pw rw) (f i : Nat) :
    (S.place f).getLsbD i = (decide (i < 16) && (decide (S.offset.toNat ≤ i) && f.testBit (i - S.offset.toNat))) := by
  simp only [FieldSpec.place, BitVec.getLsbD_ofNat, Nat.testBit_shiftLeft, ge_iff_le]

/-- Masking with `wm` is the remainder by `2^WIDTH`. -/
theorem FieldSpec.and_wm {pw rw : Nat} (S : FieldSpec pw rw) (n : Nat) : n &&& S.wm = n % 2 ^ S.width.toNat := by
  simp [FieldSpec.wm, Nat.and_two_pow_sub_one_eq_mod]

/-- The number of a packed word (rule R27). -/
theorem toNat_pack16 (b0 b1 : Byte) : (pack16 b0 b1).toNat = b1.toNat * 256 + b0.toNat := by
  have h : (pack16 b0 b1).toNat = b1.toNat <<< 8 ||| b0.toNat := BitVec.toNat_append b1 b0
  rw [h, ← Nat.shiftLeft_add_eq_or_of_lt b0.isLt, Nat.shiftLeft_eq]

/-- The number of the low byte. -/
theorem toNat_lowByte (w : RegWord) : (lowByte w).toNat = w.toNat % 256 := by
  simp [lowByte, BitVec.extractLsb'_toNat]

/-- The number of the high byte. -/
theorem toNat_highByte (w : RegWord) : (highByte w).toNat = w.toNat / 256 := by
  have := w.isLt
  simp only [highByte, BitVec.extractLsb'_toNat, Nat.shiftRight_eq_div_pow]
  omega

/-- The low byte of a packed word. -/
@[simp] theorem lowByte_pack16 (b0 b1 : Byte) : lowByte (pack16 b0 b1) = b0 := by
  apply BitVec.eq_of_toNat_eq; rw [toNat_lowByte, toNat_pack16]; have := b0.isLt; omega

/-- The high byte of a packed word. -/
@[simp] theorem highByte_pack16 (b0 b1 : Byte) : highByte (pack16 b0 b1) = b1 := by
  apply BitVec.eq_of_toNat_eq; rw [toNat_highByte, toNat_pack16]; have := b0.isLt; omega

/-- Packing the bytes of a word gives it back. -/
@[simp] theorem pack16_unpack (w : RegWord) : pack16 (lowByte w) (highByte w) = w := by
  apply BitVec.eq_of_toNat_eq; rw [toNat_pack16, toNat_lowByte, toNat_highByte]; omega

end Sys2Proof

namespace Sys2Proof.Machine

open Sys2Proof

/-! ## Acceptance (rule R112) -/

section Accept

variable {C : Config.Params} {α : Type} (rdFail : Bool) (w : RegWord) (fail : Bool) (body : α → Accepted → PortResponse C)

/-- Without a `SpecOK` descriptor: `BAD_SPEC`, whatever the read status is. -/
@[simp] theorem accept_none : accept none rdFail w fail body = ⟨fail, PortResponse.failed .badSpec⟩ := rfl

/-- Accepted: the flag is set if the read failed, and the operation's response is on the word it takes. -/
@[simp] theorem accept_some (S : α) :
    accept (some S) rdFail w fail body = ⟨fail || rdFail, body S ⟨rdFail, if rdFail then 0 else w⟩⟩ := by
  cases rdFail <;> simp [accept]

/-- Everything acceptance does to the flag. -/
@[simp] theorem accept_fail (spec : Option α) :
    (accept spec rdFail w fail body).fail = (fail || (spec.isSome && rdFail)) := by
  cases spec <;> simp

/-- The response of an accepted or refused operation is legal if the operation's own response is. -/
theorem accept_wf (spec : Option α) (hb : ∀ S a, (body S a).wf = true) :
    (accept spec rdFail w fail body).rsp.wf = true := by
  cases spec with
  | none => simp [PortResponse.wf, PortResponse.failed]
  | some S => simpa using hb S _

end Accept

section Responses

variable {C : Config.Params}

/-- The response of an encode. -/
@[simp] theorem Accepted.encoded_eq (a : Accepted) (word : RegWord) :
    (a.encoded word : PortResponse C) = ⟨a.rf, if a.rf then .readFail else .none, word, 0⟩ := rfl

/-- The response of a decode: 0 after a failed read. -/
@[simp] theorem Accepted.decoded_eq (a : Accepted) (phys : BitVec C.PW) :
    (a.decoded phys : PortResponse C) = ⟨a.rf, if a.rf then .readFail else .none, 0, if a.rf then 0 else phys⟩ := by
  cases h : a.rf <;> simp [Accepted.decoded, PortResponse.failed, PortResponse.success, h]

/-- The response of an encode is legal whatever the word. -/
theorem Accepted.encoded_wf (a : Accepted) (word : RegWord) : (a.encoded word : PortResponse C).wf = true := by
  cases h : a.rf <;> simp [PortResponse.wf, h]

/-- The response of a decode is legal whatever the value. -/
theorem Accepted.decoded_wf (a : Accepted) (phys : BitVec C.PW) : (a.decoded phys : PortResponse C).wf = true := by
  cases h : a.rf <;> simp [PortResponse.wf, h]

/-- The fixed responses are legal. -/
theorem PortResponse.success_zero_wf (phys : BitVec C.PW) : (PortResponse.success 0 phys : PortResponse C).wf = true := by
  simp [PortResponse.wf, PortResponse.success]

theorem PortResponse.failed_wf {cause : Cause} (h : cause ≠ .none) : (PortResponse.failed cause : PortResponse C).wf = true := by
  cases cause <;> simp_all [PortResponse.wf, PortResponse.failed]

end Responses

/-! ## The memory -/

/-- A byte put at an address is found there. -/
@[simp] theorem Memory.find_put_same (m : Memory) (a : Nat) (b : Byte) : Memory.find (Memory.put m a b) a = some b := by
  induction m with
  | nil => simp [Memory.put, Memory.find]
  | cons e rest ih =>
    obtain ⟨k, c⟩ := e
    simp only [Memory.put]
    split <;> [skip; split]
    · simp [Memory.find]
    · simp [Memory.find]
    · simp [Memory.find, ih]; omega

/-- A byte put at an address changes no other address. -/
theorem Memory.find_put_other (m : Memory) {a x : Nat} (b : Byte) (h : x ≠ a) :
    Memory.find (Memory.put m a b) x = Memory.find m x := by
  induction m with
  | nil => simp [Memory.put, Memory.find, h.symm]
  | cons e rest ih =>
    obtain ⟨k, c⟩ := e
    simp only [Memory.put]
    split <;> [skip; split]
    · simp [Memory.find, h.symm]
    · subst a; simp [Memory.find, h.symm]
    · simp [Memory.find, ih]

/-- Reading the byte just stored gives it. -/
@[simp] theorem Memory.readByte_writeByte_same (m : Memory) (a b : Byte) : (m.writeByte a b).readByte a = b := by
  simp [Memory.readByte, Memory.writeByte]

/-- A store leaves every other byte alone. -/
theorem Memory.readByte_writeByte_other (m : Memory) {a x : Byte} (b : Byte) (h : x ≠ a) :
    (m.writeByte a b).readByte x = m.readByte x := by
  simp [Memory.readByte, Memory.writeByte, Memory.find_put_other m b (fun e => h (BitVec.eq_of_toNat_eq e))]

/-- A store keeps the addresses rising. -/
theorem Memory.risingFrom_put (m : Memory) {lo a : Nat} (b : Byte) (hlo : lo ≤ a) (h : Memory.risingFrom lo m = true) :
    Memory.risingFrom lo (Memory.put m a b) = true := by
  induction m generalizing lo with
  | nil => simp [Memory.put, Memory.risingFrom, hlo]
  | cons e rest ih =>
    obtain ⟨k, c⟩ := e
    simp only [Memory.risingFrom, Bool.and_eq_true, decide_eq_true_eq] at h
    simp only [Memory.put]
    split <;> [skip; split]
    · simp [Memory.risingFrom, hlo, h.2]; omega
    · subst a; simp [Memory.risingFrom, h]
    · simp [Memory.risingFrom, h.1, ih (lo := k + 1) (by omega) h.2]

/-- A store at an address of the bus keeps every address on the bus. -/
theorem Memory.inSpace_put (m : Memory) {a : Nat} (b : Byte) (ha : a < 256) (h : Memory.inSpace m = true) :
    Memory.inSpace (Memory.put m a b) = true := by
  induction m with
  | nil => simp [Memory.put, Memory.inSpace, ha]
  | cons e rest ih =>
    obtain ⟨k, c⟩ := e
    simp only [Memory.inSpace, Bool.and_eq_true, decide_eq_true_eq] at h
    simp only [Memory.put]
    split <;> [skip; split] <;> simp [Memory.inSpace, ha, h, ih h.2]

/-- A store keeps the canonical form. -/
theorem Memory.wf_writeByte (m : Memory) (a b : Byte) (h : m.wf = true) : (m.writeByte a b).wf = true := by
  simp only [Memory.wf, Bool.and_eq_true] at h ⊢
  exact ⟨Memory.risingFrom_put m b (Nat.zero_le _) h.1, Memory.inSpace_put m b a.isLt h.2⟩

end Sys2Proof.Machine
end

