-- ==== Sys2Proof/Laws/Codec.lean ====
section
/-!
SUPPORT. What each conversion answers once its descriptor is accepted or refused, and the bits and the bounds of
what it produces (rules R59, R60, R73 to R76, R84, R85 and R111). Later proofs cite these and unfold no meaning.
-/

namespace Sys2Proof

variable {pw rw : Nat}

/-! ## What `SpecOK` gives -/

theorem FieldSpec.of_scalarOk {S : FieldSpec pw rw} (h : S.scalarOk = true) :
    S.offset.toNat + S.width.toNat ≤ 16 ∧ S.minVal.toInt ≤ S.maxVal.toInt ∧ 1 ≤ S.res.toNat ∧
      S.minVal.toInt + S.wm * S.res.toNat ≤ pmax pw := by
  simp only [FieldSpec.scalarOk, Bool.and_eq_true, decide_eq_true_eq] at h; tauto

theorem FieldSpec.of_bitfieldOk {S : FieldSpec pw rw} (h : S.bitfieldOk = true) :
    S.offset.toNat + S.width.toNat ≤ 16 ∧ S.minVal.toInt = 0 ∧ S.res.toNat = 1 ∧ S.maxVal.toInt = S.wm := by
  simp only [FieldSpec.bitfieldOk, Bool.and_eq_true, decide_eq_true_eq] at h; tauto

theorem SubField.of_ok {F : SubField pw rw} (h : F.ok = true) : 1 ≤ F.res.toNat ∧ F.impliedMax ≤ pmax pw := by
  simpa [SubField.ok] using h

theorem DualSpec.of_ok {S : DualSpec pw rw} (h : S.ok = true) : S.sub0.ok = true ∧ S.sub1.ok = true := by
  simpa [DualSpec.ok] using h

/-- The width mask as an integer. -/
theorem FieldSpec.wm_int (S : FieldSpec pw rw) : (S.wm : Int) = 2 ^ S.width.toNat - 1 := by
  have := Nat.one_le_two_pow (n := S.width.toNat)
  unfold FieldSpec.wm; push_cast [Nat.cast_sub this]; rfl

/-! ## Fields of a word -/

/-- The field of a word by quotient and remainder. -/
theorem FieldSpec.fieldOf_eq (S : FieldSpec pw rw) (w : RegWord) :
    S.fieldOf w = w.toNat / 2 ^ S.offset.toNat % 2 ^ S.width.toNat := by
  unfold FieldSpec.fieldOf; rw [S.and_wm, Nat.shiftRight_eq_div_pow]

/-- A bit of the field of a word. -/
theorem FieldSpec.testBit_fieldOf (S : FieldSpec pw rw) (w : RegWord) (j : Nat) :
    (S.fieldOf w).testBit j = (decide (j < S.width.toNat) && w.getLsbD (S.offset.toNat + j)) := by
  unfold FieldSpec.fieldOf; rw [S.and_wm, Nat.testBit_mod_two_pow, Nat.testBit_shiftRight]; rfl

/-- The field of a word is at most the width mask. -/
theorem FieldSpec.fieldOf_le (S : FieldSpec pw rw) (w : RegWord) : S.fieldOf w ≤ S.wm := Nat.and_le_right

/-- A bit of a word into which a field value is merged. -/
theorem FieldSpec.getLsbD_merge_place (S : FieldSpec pw rw) (w : RegWord) {f i : Nat} (hi : i < 16)
    (hf : f < 2 ^ S.width.toNat) :
    (merge w S.fm (S.place f)).getLsbD i =
      if S.offset.toNat ≤ i ∧ i < S.offset.toNat + S.width.toNat then f.testBit (i - S.offset.toNat)
      else w.getLsbD i := by
  rw [getLsbD_merge, S.getLsbD_fm, S.getLsbD_place]
  by_cases h1 : S.offset.toNat ≤ i
  · by_cases h2 : i < S.offset.toNat + S.width.toNat
    · simp [h1, h2, hi]
    · have : f.testBit (i - S.offset.toNat) = false :=
        Nat.testBit_lt_two_pow (hf.trans_le (Nat.pow_le_pow_right (by omega) (by omega)))
      simp [h1, h2, hi, this]
  · simp [h1, hi]

/-- A bit of the word that `ENC` produces. -/
theorem FieldSpec.getLsbD_encodeWord (S : FieldSpec pw rw) (v : Int) (w : RegWord) {i : Nat} (hi : i < 16) :
    (S.encodeWord v w).getLsbD i =
      if S.offset.toNat ≤ i ∧ i < S.offset.toNat + S.width.toNat then
        (S.quantized v).toNat.testBit (i - S.offset.toNat)
      else w.getLsbD i := by
  unfold FieldSpec.encodeWord FieldSpec.fieldFor
  rw [S.and_wm, S.getLsbD_merge_place w hi (Nat.mod_lt _ (by positivity))]
  split
  · next h => rw [Nat.testBit_mod_two_pow]; have : i - S.offset.toNat < S.width.toNat := by omega
              simp [this]
  · rfl

/-- The low bits of a physical value read as a number are those of its two's complement form (rule R84). -/
theorem FieldSpec.truncated_eq (S : FieldSpec pw rw) (v : BitVec pw) (hw : S.width.toNat ≤ pw) :
    S.truncated v.toInt = v.toNat % 2 ^ S.width.toNat := by
  have hp : ((2 ^ S.width.toNat : Nat) : Int) ∣ ((2 ^ pw : Nat) : Int) := by exact_mod_cast pow_dvd_pow 2 hw
  have h : v.toInt % ((2 ^ S.width.toNat : Nat) : Int) = ((v.toNat % 2 ^ S.width.toNat : Nat) : Int) := by
    rw [BitVec.toInt_eq_toNat_bmod, ← Int.emod_emod_of_dvd _ hp, Int.bmod_emod, Int.emod_emod_of_dvd _ hp]
    push_cast; rfl
  unfold FieldSpec.truncated
  exact_mod_cast congrArg Int.toNat h

/-- A bit of the word that `BFI` produces. -/
theorem FieldSpec.getLsbD_insertWord (S : FieldSpec pw rw) (hpw : 16 ≤ pw) (hS : S.offset.toNat + S.width.toNat ≤ 16)
    (v : BitVec pw) (w : RegWord) {i : Nat} (hi : i < 16) :
    (S.insertWord v.toInt w).getLsbD i =
      if S.offset.toNat ≤ i ∧ i < S.offset.toNat + S.width.toNat then v.getLsbD (i - S.offset.toNat)
      else w.getLsbD i := by
  unfold FieldSpec.insertWord
  rw [S.truncated_eq v (by omega), S.getLsbD_merge_place w hi (Nat.mod_lt _ (by positivity))]
  split
  · next h =>
    rw [Nat.testBit_mod_two_pow]
    have : i - S.offset.toNat < S.width.toNat := by omega
    simp [this, BitVec.getLsbD]
  · rfl

/-! ## Bounds -/

/-- The quantized value of a scalar descriptor is not negative (rule R62 d). -/
theorem FieldSpec.quantized_nonneg {S : FieldSpec pw rw} (h : S.scalarOk = true) (v : Int) : 0 ≤ S.quantized v :=
  quantize_nonneg (FieldSpec.of_scalarOk h).2.1 (by positivity)

/-- What `DEC` produces lies between `MIN` and the value of a full field, within the signed range (rule R67). -/
theorem FieldSpec.decodeValue_bounds {S : FieldSpec pw rw} (h : S.scalarOk = true) (w : RegWord) :
    S.minVal.toInt ≤ S.decodeValue w ∧ S.decodeValue w ≤ S.minVal.toInt + S.wm * S.res.toNat ∧
      -(2 ^ (pw - 1)) ≤ S.decodeValue w ∧ S.decodeValue w ≤ 2 ^ (pw - 1) - 1 := by
  obtain ⟨-, -, -, h3⟩ := FieldSpec.of_scalarOk h
  have hlo := BitVec.le_toInt S.minVal
  have h1 : (S.fieldOf w : Int) * S.res.toNat ≤ S.wm * S.res.toNat := by
    exact_mod_cast Nat.mul_le_mul_right _ (S.fieldOf_le w)
  have h0 : 0 ≤ (S.fieldOf w : Int) * S.res.toNat := by positivity
  unfold pmax at h3
  unfold FieldSpec.decodeValue
  refine ⟨by omega, by omega, by omega, by omega⟩

/-- The implied bound is no less than the minimum, and the quantized value of a sub-field fits its mask (rule R73). -/
theorem SubField.quantized_bounds {F : SubField pw rw} (h : F.ok = true) (v : Int) :
    F.minVal.toInt ≤ F.impliedMax ∧ 0 ≤ F.quantized v ∧ F.quantized v ≤ F.mask.toNat := by
  obtain ⟨hr, -⟩ := SubField.of_ok h
  have h0 : 0 ≤ (F.mask.toNat : Int) * F.res.toNat := by positivity
  have hle : F.minVal.toInt ≤ F.impliedMax := by unfold SubField.impliedMax; omega
  refine ⟨hle, quantize_nonneg hle (by positivity), ?_⟩
  refine (quantize_le_top hle (by exact_mod_cast hr)).trans ?_
  unfold fdiv SubField.impliedMax
  rw [add_sub_cancel_left, Int.mul_ediv_cancel _ (by omega)]

/-- What a dual-value decode produces lies between the minimum and the implied bound (rule R79 d). -/
theorem SubField.decodeByte_bounds {F : SubField pw rw} (h : F.ok = true) (b : Byte) :
    F.minVal.toInt ≤ F.decodeByte b ∧ F.decodeByte b ≤ F.impliedMax ∧
      -(2 ^ (pw - 1)) ≤ F.decodeByte b ∧ F.decodeByte b ≤ 2 ^ (pw - 1) - 1 := by
  obtain ⟨-, hm⟩ := SubField.of_ok h
  have hlo := BitVec.le_toInt F.minVal
  have hb : (b &&& F.mask).toNat ≤ F.mask.toNat := by rw [BitVec.toNat_and]; exact Nat.and_le_right
  have h1 : ((b &&& F.mask).toNat : Int) * F.res.toNat ≤ F.mask.toNat * F.res.toNat := by
    exact_mod_cast Nat.mul_le_mul_right _ hb
  have h0 : 0 ≤ ((b &&& F.mask).toNat : Int) * F.res.toNat := by positivity
  unfold pmax at hm
  unfold SubField.decodeByte SubField.impliedMax at *
  refine ⟨by omega, by omega, by omega, by omega⟩

/-- A physical value built from an integer in range has that value. -/
theorem toInt_ofInt_phys (hpw : 1 ≤ pw) {x : Int} (h1 : -(2 ^ (pw - 1)) ≤ x) (h2 : x ≤ 2 ^ (pw - 1) - 1) :
    (BitVec.ofInt pw x).toInt = x := by
  have hp : ((2 ^ pw : Nat) : Int) = 2 * 2 ^ (pw - 1) := by
    rw [← pow_succ']; push_cast; congr 1; omega
  rw [BitVec.toInt_ofInt]; apply Int.bmod_eq_of_le <;> omega

/-- The physical value of a field is the field: 17 bits hold any 16-bit number (rule R6). -/
theorem FieldSpec.toInt_ofNat_fieldOf (S : FieldSpec pw rw) (hpw : 17 ≤ pw)
    (hS : S.offset.toNat + S.width.toNat ≤ 16) (w : RegWord) :
    (BitVec.ofNat pw (S.fieldOf w)).toInt = S.fieldOf w := by
  have hle := S.fieldOf_le w
  have hwm : S.wm < 2 ^ 16 := by
    have h2 : 2 ^ S.width.toNat ≤ 2 ^ 16 := Nat.pow_le_pow_right (by omega) (by omega)
    have := Nat.one_le_two_pow (n := S.width.toNat)
    unfold FieldSpec.wm; omega
  have h17 : 2 ^ 16 * 2 ≤ 2 ^ pw := by
    have := Nat.pow_le_pow_right (n := 2) (by omega) hpw
    omega
  rw [BitVec.toInt_eq_toNat_cond, BitVec.toNat_ofNat, Nat.mod_eq_of_lt (by omega)]
  split <;> omega

/-! ## Sub-fields of a word -/

/-- A bit of the field that a dual-value encode stores. -/
theorem SubField.getLsbD_fieldFor {F : SubField pw rw} (h : F.ok = true) (v : Int) (i : Nat) :
    (F.fieldFor v).getLsbD i = ((F.quantized v).toNat.testBit i && F.mask.getLsbD i) := by
  obtain ⟨-, q0, q1⟩ := SubField.quantized_bounds h v
  have hm := F.mask.isLt
  obtain ⟨n, hn⟩ := Int.eq_ofNat_of_zero_le q0
  have : (BitVec.ofInt 8 (F.quantized v)).toNat = (F.quantized v).toNat := by
    rw [hn]; simp only [BitVec.ofInt_natCast, BitVec.toNat_ofNat, Int.toNat_natCast]
    exact Nat.mod_eq_of_lt (by omega)
  unfold SubField.fieldFor
  rw [BitVec.getLsbD_and]
  simp only [BitVec.getLsbD, this]

/-- A bit of the word that `DENCL` produces. -/
theorem SubField.getLsbD_encodeLow {F : SubField pw rw} (h : F.ok = true) (v : Int) (w : RegWord) {i : Nat}
    (hi : i < 16) :
    (F.encodeLow v w).getLsbD i =
      if i < 8 ∧ F.mask.getLsbD i = true then (F.quantized v).toNat.testBit i else w.getLsbD i := by
  unfold SubField.encodeLow SubField.fmLow
  rw [getLsbD_merge]
  simp only [BitVec.truncate_eq_setWidth, BitVec.getLsbD_setWidth, hi, SubField.getLsbD_fieldFor h]
  by_cases h8 : i < 8
  · cases hm : F.mask.getLsbD i <;> simp [h8]
  · have : F.mask.getLsbD i = false := BitVec.getLsbD_of_ge _ _ (by omega)
    simp [h8, this]

/-- A bit of the word that `DENCH` produces. -/
theorem SubField.getLsbD_encodeHigh {F : SubField pw rw} (h : F.ok = true) (v : Int) (w : RegWord) {i : Nat}
    (hi : i < 16) :
    (F.encodeHigh v w).getLsbD i =
      if 8 ≤ i ∧ F.mask.getLsbD (i - 8) = true then (F.quantized v).toNat.testBit (i - 8) else w.getLsbD i := by
  unfold SubField.encodeHigh SubField.fmHigh
  rw [getLsbD_merge]
  simp only [BitVec.truncate_eq_setWidth, BitVec.getLsbD_shiftLeft, BitVec.getLsbD_setWidth, hi,
    SubField.getLsbD_fieldFor h]
  by_cases h8 : i < 8
  · have : ¬ 8 ≤ i := by omega
    simp [h8, this]
  · have h' : 8 ≤ i := by omega
    have h'' : i - 8 < 16 := by omega
    cases hm : F.mask.getLsbD (i - 8) <;> simp [h8, h', h'']

end Sys2Proof

namespace Sys2Proof.Machine

open Sys2Proof

/-! ## What a conversion answers -/

section Block

variable {C : Config.Params} (v : BitVec C.PW) (w : RegWord) (f fail : Bool)

theorem Block.enc_of_ok {S : FieldSpec C.PW C.RW} (h : S.scalarOk = true) :
    Block.enc v w (.scalar S) f fail =
      ⟨fail || f, ⟨f, if f then .readFail else .none, S.encodeWord v.toInt (if f then 0 else w), 0⟩⟩ := by
  simp [Block.enc, Descriptor.forScalar, h]

theorem Block.bfi_of_ok {S : FieldSpec C.PW C.RW} (h : S.bitfieldOk = true) :
    Block.bfi v w (.bitfield S) f fail =
      ⟨fail || f, ⟨f, if f then .readFail else .none, S.insertWord v.toInt (if f then 0 else w), 0⟩⟩ := by
  simp [Block.bfi, Descriptor.forBitfield, h]

theorem Block.dencl_of_ok {S : DualSpec C.PW C.RW} (h : S.ok = true) :
    Block.dencl v w (.dual S) f fail =
      ⟨fail || f, ⟨f, if f then .readFail else .none, S.sub0.encodeLow v.toInt (if f then 0 else w), 0⟩⟩ := by
  simp [Block.dencl, Descriptor.forDual, h]

theorem Block.dench_of_ok {S : DualSpec C.PW C.RW} (h : S.ok = true) :
    Block.dench v w (.dual S) f fail =
      ⟨fail || f, ⟨f, if f then .readFail else .none, S.sub1.encodeHigh v.toInt (if f then 0 else w), 0⟩⟩ := by
  simp [Block.dench, Descriptor.forDual, h]

theorem Block.dec_of_ok {S : FieldSpec C.PW C.RW} (h : S.scalarOk = true) :
    Block.dec w (.scalar S) f fail =
      ⟨fail || f, ⟨f, if f then .readFail else .none, 0, if f then 0 else BitVec.ofInt C.PW (S.decodeValue w)⟩⟩ := by
  cases f <;> simp [Block.dec, Descriptor.forScalar, h]

theorem Block.bfx_of_ok {S : FieldSpec C.PW C.RW} (h : S.bitfieldOk = true) :
    Block.bfx w (.bitfield S) f fail =
      ⟨fail || f, ⟨f, if f then .readFail else .none, 0, if f then 0 else BitVec.ofNat C.PW (S.fieldOf w)⟩⟩ := by
  cases f <;> simp [Block.bfx, Descriptor.forBitfield, h]

theorem Block.ddecl_of_ok {S : DualSpec C.PW C.RW} (h : S.ok = true) :
    Block.ddecl w (.dual S) f fail =
      ⟨fail || f, ⟨f, if f then .readFail else .none, 0,
        if f then 0 else BitVec.ofInt C.PW (S.sub0.decodeByte (lowByte w))⟩⟩ := by
  cases f <;> simp [Block.ddecl, Descriptor.forDual, h]

theorem Block.ddech_of_ok {S : DualSpec C.PW C.RW} (h : S.ok = true) :
    Block.ddech w (.dual S) f fail =
      ⟨fail || f, ⟨f, if f then .readFail else .none, 0,
        if f then 0 else BitVec.ofInt C.PW (S.sub1.decodeByte (highByte w))⟩⟩ := by
  cases f <;> simp [Block.ddech, Descriptor.forDual, h]

end Block

/-- A descriptor that is not `SpecOK` for the operation: `BAD_SPEC`, no state change (rule R111). -/
theorem exec_of_not_specOk {i : Instr} (h : i.specOk = false) (s : State) :
    exec i s = .next { s with rsp := some (PortResponse.failed .badSpec) } := by
  cases i <;> simp_all [Instr.specOk, exec, execEnc, execDec, execBfi, execBfx, execDencl, execDench, execDdecl,
    execDdech, Block.enc, Block.dec, Block.bfi, Block.bfx, Block.dencl, Block.dench, Block.ddecl, Block.ddech,
    State.settle]

section Accepted

variable (v : Phys) (w : RegWord) (f : Bool) (s : State)

theorem exec_enc {S : FieldSpec Config.PW Config.RW} (h : S.scalarOk = true) :
    exec (.enc v w (.scalar S) f) s = .next { s with
      fail := s.fail || f
      rsp := some ⟨f, if f then .readFail else .none, S.encodeWord v.toInt (if f then 0 else w), 0⟩ } := by
  simp only [exec, execEnc, State.settle, Block.enc_of_ok v w f s.fail h]

theorem exec_bfi {S : FieldSpec Config.PW Config.RW} (h : S.bitfieldOk = true) :
    exec (.bfi v w (.bitfield S) f) s = .next { s with
      fail := s.fail || f
      rsp := some ⟨f, if f then .readFail else .none, S.insertWord v.toInt (if f then 0 else w), 0⟩ } := by
  simp only [exec, execBfi, State.settle, Block.bfi_of_ok v w f s.fail h]

theorem exec_dencl {S : DualSpec Config.PW Config.RW} (h : S.ok = true) :
    exec (.dencl v w (.dual S) f) s = .next { s with
      fail := s.fail || f
      rsp := some ⟨f, if f then .readFail else .none, S.sub0.encodeLow v.toInt (if f then 0 else w), 0⟩ } := by
  simp only [exec, execDencl, State.settle, Block.dencl_of_ok v w f s.fail h]

theorem exec_dench {S : DualSpec Config.PW Config.RW} (h : S.ok = true) :
    exec (.dench v w (.dual S) f) s = .next { s with
      fail := s.fail || f
      rsp := some ⟨f, if f then .readFail else .none, S.sub1.encodeHigh v.toInt (if f then 0 else w), 0⟩ } := by
  simp only [exec, execDench, State.settle, Block.dench_of_ok v w f s.fail h]

theorem exec_dec {S : FieldSpec Config.PW Config.RW} (h : S.scalarOk = true) :
    exec (.dec w (.scalar S) f) s = .next { s with
      fail := s.fail || f
      rsp := some ⟨f, if f then .readFail else .none, 0,
        if f then 0 else BitVec.ofInt Config.PW (S.decodeValue w)⟩ } := by
  simp only [exec, execDec, State.settle, Block.dec_of_ok w f s.fail h]

theorem exec_bfx {S : FieldSpec Config.PW Config.RW} (h : S.bitfieldOk = true) :
    exec (.bfx w (.bitfield S) f) s = .next { s with
      fail := s.fail || f
      rsp := some ⟨f, if f then .readFail else .none, 0,
        if f then 0 else BitVec.ofNat Config.PW (S.fieldOf w)⟩ } := by
  simp only [exec, execBfx, State.settle, Block.bfx_of_ok w f s.fail h]

theorem exec_ddecl {S : DualSpec Config.PW Config.RW} (h : S.ok = true) :
    exec (.ddecl w (.dual S) f) s = .next { s with
      fail := s.fail || f
      rsp := some ⟨f, if f then .readFail else .none, 0,
        if f then 0 else BitVec.ofInt Config.PW (S.sub0.decodeByte (lowByte w))⟩ } := by
  simp only [exec, execDdecl, State.settle, Block.ddecl_of_ok w f s.fail h]

theorem exec_ddech {S : DualSpec Config.PW Config.RW} (h : S.ok = true) :
    exec (.ddech w (.dual S) f) s = .next { s with
      fail := s.fail || f
      rsp := some ⟨f, if f then .readFail else .none, 0,
        if f then 0 else BitVec.ofInt Config.PW (S.sub1.decodeByte (highByte w))⟩ } := by
  simp only [exec, execDdech, State.settle, Block.ddech_of_ok w f s.fail h]

end Accepted

end Sys2Proof.Machine
end

