-- ==== Sys2Proof/Laws/Decode.lean ====
section
/-!
SUPPORT. What the decoder can answer, once (rules R41, R46, R47 and R53 of spec/30_encoding.md).
-/

namespace Sys2Proof

/-- Everything that reading a descriptor can give. -/
theorem decodeSpec_cases (raw : BitVec 160) :
    (commonReservedZero raw = true ∧ (specKind raw).toNat = 0 ∧ fieldReservedZero raw = true ∧
      decodeSpec raw = .scalar (readFieldSpec raw)) ∨
    (commonReservedZero raw = true ∧ (specKind raw).toNat = 1 ∧ decodeSpec raw = .dual (readDualSpec raw)) ∨
    (commonReservedZero raw = true ∧ (specKind raw).toNat = 2 ∧ fieldReservedZero raw = true ∧
      decodeSpec raw = .bitfield (readFieldSpec raw)) ∨
    (rawIllegal raw = true ∧ decodeSpec raw = .illegal raw) := by
  have hlt := (specKind raw).isLt
  have e (n : Nat) (hn : n < 4) : (specKind raw = BitVec.ofNat 2 n) ↔ (specKind raw).toNat = n := by
    rw [← BitVec.toNat_inj, BitVec.toNat_ofNat, Nat.mod_eq_of_lt hn]
  have e1 := e 1 (by omega)
  have e3 := e 3 (by omega)
  by_cases hc : commonReservedZero raw = true
  · by_cases hf : fieldReservedZero raw = true
    · rcases (by omega : (specKind raw).toNat = 0 ∨ (specKind raw).toNat = 1 ∨ (specKind raw).toNat = 2 ∨
        (specKind raw).toNat = 3) with h | h | h | h <;>
        simp_all [decodeSpec, rawIllegal]
    · rcases (by omega : (specKind raw).toNat = 0 ∨ (specKind raw).toNat = 1 ∨ (specKind raw).toNat = 2 ∨
        (specKind raw).toNat = 3) with h | h | h | h <;>
        simp_all [decodeSpec, rawIllegal]
  · simp [decodeSpec, rawIllegal, hc]

/-- What is read from 160 bits is well-formed. -/
theorem decodeSpec_wf (raw : BitVec 160) : (decodeSpec raw).wf = true := by
  rcases decodeSpec_cases raw with ⟨-, -, -, h⟩ | ⟨-, -, h⟩ | ⟨-, -, -, h⟩ | ⟨hi, h⟩ <;> rw [h]
  · rfl
  · rfl
  · rfl
  · exact hi

/-- An illegal bit pattern is read as itself. -/
theorem decodeSpec_illegal {raw : BitVec 160} (h : rawIllegal raw = true) : decodeSpec raw = .illegal raw := by
  rcases decodeSpec_cases raw with ⟨hc, hk, hf, -⟩ | ⟨hc, hk, -⟩ | ⟨hc, hk, hf, -⟩ | ⟨-, h'⟩
  · have : specKind raw = 0 := BitVec.eq_of_toNat_eq hk
    simp [rawIllegal, hc, hf, this] at h
  · have : specKind raw = 1 := BitVec.eq_of_toNat_eq hk
    simp [rawIllegal, hc, this] at h
  · have : specKind raw = 2 := BitVec.eq_of_toNat_eq hk
    simp [rawIllegal, hc, hf, this] at h
  · exact h'

/-- A request is of format N, of format P or W, or reserved, by its operation code. -/
theorem decode_cases (r : Request) :
    (r.op.toNat = 0 ∧ decode r = .nop) ∨
    (r.op.toNat = 1 ∧ decode r = .enc r.physIn r.wordIn (decodeSpec r.spec) r.rdFail) ∨
    (r.op.toNat = 2 ∧ decode r = .dec r.wordIn (decodeSpec r.spec) r.rdFail) ∨
    (r.op.toNat = 3 ∧ decode r = .bfi r.physIn r.wordIn (decodeSpec r.spec) r.rdFail) ∨
    (r.op.toNat = 4 ∧ decode r = .bfx r.wordIn (decodeSpec r.spec) r.rdFail) ∨
    (r.op.toNat = 5 ∧ decode r = .dencl r.physIn r.wordIn (decodeSpec r.spec) r.rdFail) ∨
    (r.op.toNat = 6 ∧ decode r = .dench r.physIn r.wordIn (decodeSpec r.spec) r.rdFail) ∨
    (r.op.toNat = 7 ∧ decode r = .ddecl r.wordIn (decodeSpec r.spec) r.rdFail) ∨
    (r.op.toNat = 8 ∧ decode r = .ddech r.wordIn (decodeSpec r.spec) r.rdFail) ∨
    (r.op.toNat = 9 ∧ decode r = .rdst) ∨
    (r.op.toNat = 10 ∧ decode r = .clrf) ∨
    (r.op.toNat = 11 ∧ decode r = .reservedB) ∨
    (12 ≤ r.op.toNat ∧ decode r = .reservedCF (r.op.extractLsb' 0 2)) := by
  have hlt := r.op.isLt
  by_cases h : 12 ≤ r.op.toNat
  · have e : decode r = .reservedCF (r.op.extractLsb' 0 2) := by
      unfold decode
      split <;> first | omega | rfl
    simp [h, e]
  · rcases (by omega : r.op.toNat = 0 ∨ r.op.toNat = 1 ∨ r.op.toNat = 2 ∨ r.op.toNat = 3 ∨ r.op.toNat = 4 ∨
      r.op.toNat = 5 ∨ r.op.toNat = 6 ∨ r.op.toNat = 7 ∨ r.op.toNat = 8 ∨ r.op.toNat = 9 ∨ r.op.toNat = 10 ∨
      r.op.toNat = 11) with h | h | h | h | h | h | h | h | h | h | h | h <;> simp [decode, h]

end Sys2Proof
end

