-- ==== Sys2Proof/Laws/PerInstr.lean ====
section
/-!
SUPPORT. Statements made for each instruction as syntax.

`OpcodeRow`: the request of an instruction carries an operation code that matches exactly one row of the table,
and that row is the instruction's own (rules R41 and R57 of spec/30_encoding.md).
-/

namespace Sys2Proof.Laws.OpcodeRow

open Sys2Proof

/-- The operation code of the instruction's request matches one row of the table, the one with its mnemonic. -/
def Statement (i : Instr) : Prop :=
  (opTable.filter fun row => row.matches (encode i).op).map OpRow.mnemonic = [i.mnemonic]

theorem nop : Statement .nop := by unfold Statement; decide
theorem enc (v : Phys) (w : RegWord) (S : Spec) (rdFail : Bool) : Statement (.enc v w S rdFail) := by
  change (opTable.filter fun row => row.matches 0x1).map OpRow.mnemonic = ["ENC"]; decide
theorem dec (w : RegWord) (S : Spec) (rdFail : Bool) : Statement (.dec w S rdFail) := by
  change (opTable.filter fun row => row.matches 0x2).map OpRow.mnemonic = ["DEC"]; decide
theorem bfi (v : Phys) (w : RegWord) (S : Spec) (rdFail : Bool) : Statement (.bfi v w S rdFail) := by
  change (opTable.filter fun row => row.matches 0x3).map OpRow.mnemonic = ["BFI"]; decide
theorem bfx (w : RegWord) (S : Spec) (rdFail : Bool) : Statement (.bfx w S rdFail) := by
  change (opTable.filter fun row => row.matches 0x4).map OpRow.mnemonic = ["BFX"]; decide
theorem dencl (v : Phys) (w : RegWord) (S : Spec) (rdFail : Bool) : Statement (.dencl v w S rdFail) := by
  change (opTable.filter fun row => row.matches 0x5).map OpRow.mnemonic = ["DENCL"]; decide
theorem dench (v : Phys) (w : RegWord) (S : Spec) (rdFail : Bool) : Statement (.dench v w S rdFail) := by
  change (opTable.filter fun row => row.matches 0x6).map OpRow.mnemonic = ["DENCH"]; decide
theorem ddecl (w : RegWord) (S : Spec) (rdFail : Bool) : Statement (.ddecl w S rdFail) := by
  change (opTable.filter fun row => row.matches 0x7).map OpRow.mnemonic = ["DDECL"]; decide
theorem ddech (w : RegWord) (S : Spec) (rdFail : Bool) : Statement (.ddech w S rdFail) := by
  change (opTable.filter fun row => row.matches 0x8).map OpRow.mnemonic = ["DDECH"]; decide
theorem rdst : Statement .rdst := by unfold Statement; decide
theorem clrf : Statement .clrf := by unfold Statement; decide
theorem reservedB : Statement .reservedB := by unfold Statement; decide
theorem reservedCF (low : BitVec 2) : Statement (.reservedCF low) := by
  unfold Statement; revert low; decide

end Sys2Proof.Laws.OpcodeRow
end

