-- ==== Sys2Proof/Laws/Threads.lean ====
section
/-!
SUPPORT. What a bus transfer, a step of a thread and a step of the machine can do, once each.
-/

namespace Sys2Proof.Machine

open Sys2Proof

/-! ## The bus -/

/-- A transfer of one byte is never off the end. -/
@[simp] theorem offEnd_one (addr : Byte) : offEnd addr .one = false := rfl

/-- A two-byte transfer is off the end at 0xFF alone (rule R35). -/
@[simp] theorem offEnd_two (addr : Byte) : offEnd addr .two = true ↔ addr = 0xFF := by
  simp [offEnd]

/-- Storing bytes keeps the canonical form. -/
theorem wf_storeBytes (bs : List Byte) (m : Memory) (addr : Byte) (h : m.wf = true) :
    (storeBytes m addr bs).wf = true := by
  induction bs generalizing m addr with
  | nil => exact h
  | cons b bs ih => exact ih _ _ (Memory.wf_writeByte m addr b h)

/-- A write keeps the canonical form, whether it fails or not. -/
theorem wf_memWrite (m : Memory) (addr : Byte) (bs : List Byte) (busFail : Bool) (h : m.wf = true) :
    (memWrite m addr bs busFail).2.wf = true := by
  cases busFail
  · exact wf_storeBytes bs m addr h
  · exact h

/-- The memory a write move leaves. -/
def WriteMove.mem : WriteMove → Memory
  | .finished _ m => m
  | .firstByte m _ => m

/-- Starting a write keeps the canonical form. -/
theorem wf_startWrite (m : Memory) (addr : Byte) (bs : List Byte) (busFail whole : Bool) (h : m.wf = true) :
    (startWrite m addr bs busFail whole).mem.wf = true := by
  match bs with
  | [] => exact wf_memWrite m addr _ busFail h
  | [b] => exact wf_memWrite m addr _ busFail h
  | b0 :: b1 :: rest =>
    simp only [startWrite]; split
    · exact Memory.wf_writeByte m addr b0 h
    · exact wf_memWrite m addr _ busFail h

/-- The memory of a write move goes into the step unchanged. -/
@[simp] theorem afterWrite_fst (mv : WriteMove) (f : Byte → Job) : (afterWrite mv f).1 = mv.mem := by
  cases mv <;> rfl

/-- The bus step of a sequence keeps the canonical form. -/
theorem Job.wf_busMove (j : Job) (m : Memory) (busFail whole : Bool) (h : m.wf = true) :
    (j.busMove m busFail whole).1.wf = true := by
  cases j with
  | get a n S p =>
    cases p <;> simp only [Job.busMove] <;> first | exact h | (split <;> exact h)
  | set a n S v p =>
    cases p with
    | start => simp only [Job.busMove]; split <;> exact h
    | secondByte b0 => exact h
    | request st w => exact h
    | write w => simpa [Job.busMove] using wf_startWrite m _ _ busFail whole h
    | writeSecond b1 => exact Memory.wf_writeByte m _ _ h
  | memRead addr n p =>
    cases p <;> simp only [Job.busMove] <;> first | exact h | (split <;> exact h)
  | memWrite1 addr b0 => simpa [Job.busMove] using wf_startWrite m addr [b0] busFail whole h
  | memWrite2 addr b0 b1 p =>
    cases p with
    | start => simpa [Job.busMove] using wf_startWrite m addr [b0, b1] busFail whole h
    | secondByte => exact Memory.wf_writeByte m _ _ h
  | adcget _ _ _ _ _ => exact h
  | encz _ _ => exact h
  | qnt _ _ _ => exact h
  | bset _ _ => exact h
  | bclr _ _ => exact h
  | issue _ => exact h

/-! ## A step of a thread -/

/-- Everything a step of a sequence can do, if it answers a next state: the request of the sequence runs and its
response is delivered, or the bus step happens. -/
theorem jobStep_cases {k : Nat} {t : Thread} {j : Job} {busFail whole : Bool} {s s' : State}
    (h : jobStep k t j busFail whole s = .next s') :
    (∃ i u, j.request? = some i ∧ exec i s = .next u ∧ s' = u.deliver k t j) ∨
    (j.request? = none ∧ j.offEnd = false ∧
      s' = { s with mem := (j.busMove s.mem busFail whole).1,
                    threads := s.threads.set k (t.advance (j.busMove s.mem busFail whole).2) }) := by
  unfold jobStep at h
  split at h
  · next i hi =>
    split at h
    · next u hu => exact .inl ⟨i, u, hi, hu, by injection h with h; exact h.symm⟩
    · cases h
    · cases h
  · next hn =>
    split at h
    · cases h
    · next hf => exact .inr ⟨hn, by simpa using hf, by injection h with h; exact h.symm⟩

/-- The sequence a thread is in is the first of its list. -/
theorem State.jobOf_eq_some {s : State} {k : Nat} {t : Thread} {j : Job} (h : s.jobOf k = some (t, j)) :
    s.threads[k]? = some t ∧ ∃ js, t.jobs = j :: js := by
  unfold State.jobOf at h
  split at h
  · cases h
  · next t' ht =>
    split at h
    · cases h
    · next j' js hj => cases h; exact ⟨ht, js, hj⟩

/-- A thread's sequence, from its list. -/
theorem State.jobOf_of {s : State} {k : Nat} {t : Thread} {j : Job} {js : List Job} (ht : s.threads[k]? = some t)
    (hj : t.jobs = j :: js) : s.jobOf k = some (t, j) := by
  simp [State.jobOf, ht, hj]

/-- A thread whose first sequence is `j` steps as `j` does. -/
theorem threadStep_of_jobOf {s : State} {k : Nat} {t : Thread} {j : Job} (h : s.jobOf k = some (t, j))
    (busFail whole : Bool) : threadStep k busFail whole s = jobStep k t j busFail whole s := by
  simp [threadStep, h]

/-- A sequence whose next step is a request makes it, and its thread gets the response. -/
theorem jobStep_request {k : Nat} {t : Thread} {j : Job} {i : Instr} {s u : State} {r : Response}
    (busFail whole : Bool) (hi : j.request? = some i) (hu : exec i s = .next u) (hr : u.rsp = some r) :
    jobStep k t j busFail whole s = .next (u.setThread k (t.advance (j.answer r))) := by
  simp [jobStep, hi, hu, State.deliver, hr]

/-- A sequence whose next step is on the bus makes it, unless it is off the end. -/
theorem jobStep_bus {k : Nat} {t : Thread} {j : Job} {s : State} (busFail whole : Bool) (hi : j.request? = none)
    (hf : j.offEnd = false) :
    jobStep k t j busFail whole s =
      .next { s with mem := (j.busMove s.mem busFail whole).1,
                     threads := s.threads.set k (t.advance (j.busMove s.mem busFail whole).2) } := by
  simp [jobStep, hi, hf, State.setThread]

/-! ## A step of the machine -/

/-- With nothing presented the machine waits. -/
theorem step_nil {s : State} (h : s.inputs = []) : step s = .next s := by
  unfold step; rw [h]

/-- A step reacts to the first input. -/
theorem step_cons {s : State} {e : Event} {rest : List Event} (h : s.inputs = e :: rest) :
    step s = react e { s with inputs := rest } := by
  unfold step; rw [h]

/-- Everything a step can do, if it answers a next state. -/
theorem step_cases {s t : State} (h : step s = .next t) :
    (s.inputs = [] ∧ t = s) ∨ ∃ e rest, s.inputs = e :: rest ∧ react e { s with inputs := rest } = .next t := by
  unfold step at h
  split at h
  · next hn => exact .inl ⟨hn, by injection h with h; exact h.symm⟩
  · next e rest hc => exact .inr ⟨e, rest, hc, h⟩

/-- A run of no step. -/
theorem run_zero (s : State) : Sys2Proof.core.run 0 s = .next s := rfl

/-- A run that starts with a step to a next state. -/
theorem run_of_step {n : Nat} {s t : State} (h : step s = .next t) :
    Sys2Proof.core.run (n + 1) s = Sys2Proof.core.run n t := by
  have h' : Sys2Proof.core.step s = .next t := h
  simp only [Host.Core.run]
  rw [h']

end Sys2Proof.Machine
end

