-- ==== Sys2Proof/Tests/Slice0.lean ====
section
/-!
SUPPORT. The model's own tests, and for every obligation that has hypotheses a witness that meets them all.

The expected results of the tests are those that spec/95_test_vectors.md prints: the records of its section 3, the
vectors of its sections 2.1 to 2.6 and the descriptor words of its head.
-/

namespace Sys2Proof.Tests

open Sys2Proof Sys2Proof.Machine

/-! ## The descriptors of spec/95_test_vectors.md that are made up to exercise the rules -/

/-- `NEG` -/
def NEG : FieldSpec Config.PW Config.RW := scalarSpec 0x10 8 0 5 (-100) 1000
/-- `T` -/
def T : DualSpec Config.PW Config.RW := dualSpec 0x26 0 0xFF 12 3200 0xFF 64
/-- `BA` -/
def BA : FieldSpec Config.PW Config.RW := bitfieldSpec 0x34 1 12
/-- `BB` -/
def BB : FieldSpec Config.PW Config.RW := bitfieldSpec 0x34 3 4
/-- the descriptor of section 2.2 that meets the bound of rule R49 with equality -/
def EDGE : FieldSpec Config.PW Config.RW := scalarSpec 0x02 16 0 65535 (-2147352578) 2147483647
/-- the whole-word field of section 2.4 -/
def WHOLE : FieldSpec Config.PW Config.RW := bitfieldSpec 0x34 16 0
/-- `WIDTH = 0` of section 2.1 -/
def EMPTY : FieldSpec Config.PW Config.RW := scalarSpec 0x10 0 5 10 100 105
/-- `MAX = MIN` of section 2.1 -/
def POINT : FieldSpec Config.PW Config.RW := scalarSpec 0x10 4 4 3 50 50
/-- the mask that is not contiguous of section 2.3 -/
def GAPPED : DualSpec Config.PW Config.RW := dualSpec 0x26 0 0xF0 1 3200 0xFF 64
/-- `KIND = 3` of section 2.6 -/
def KIND3 : BitVec 160 := joinWords 0x00000040 0x00001FC0 0x00000000 0x00000607 0x00030002
/-- the reserved bit W0[18] of section 2.6 -/
def RESERVED18 : BitVec 160 := joinWords 0x00000040 0x00001FC0 0x00000000 0x00000607 0x00040002

/-! ## Well-formed terms -/

theorem test_wf_legal : (Instr.enc 0 0 (.scalar ICHG) true).wf = true ∧ (Instr.ddech 0 (.dual T) false).wf = true := by
  decide
theorem test_wf_kind3 : (Instr.dec 0 (.illegal KIND3) false).wf = true := by decide
theorem test_wf_reserved_bit : (Instr.bfi 0 0 (.illegal RESERVED18) false).wf = true := by decide
theorem test_wf_refuses_enc : (Instr.enc 0 0 (.illegal 0) false).wf = false := by decide
theorem test_wf_refuses_dec : (Instr.dec 0 (.illegal 0) false).wf = false := by decide
theorem test_wf_refuses_bfi : (Instr.bfi 0 0 (.illegal (writeFieldSpec 2 BA)) false).wf = false := by decide
theorem test_wf_refuses_bfx : (Instr.bfx 0 (.illegal (writeFieldSpec 2 BA)) false).wf = false := by decide
theorem test_wf_refuses_dencl : (Instr.dencl 0 0 (.illegal (writeDualSpec T)) false).wf = false := by decide
theorem test_wf_refuses_dench : (Instr.dench 0 0 (.illegal (writeDualSpec T)) false).wf = false := by decide
theorem test_wf_refuses_ddecl : (Instr.ddecl 0 (.illegal (writeDualSpec T)) false).wf = false := by decide
theorem test_wf_refuses_ddech : (Instr.ddech 0 (.illegal (writeDualSpec T)) false).wf = false := by decide

/-! ## Decoding: the records of section 3, the words of the head -/

/-- The instruction of a record. -/
def read (b : Nat) : Instr := decode (Request.ofBits (BitVec.ofNat recordBits b))

theorem test_decode_nop : read 0x000000000000000000000000000000000000000000000000000000 = .nop := by decide
theorem test_decode_enc : read 0x020000008000003F800000000000000C0E0000000400000BB9C07E = .enc 1500 0xE03F (.scalar ICHG) false := by decide
theorem test_decode_dec : read 0x040000008000003F800000000000000C0E00000004000000000001 = .dec 0x0000 (.scalar ICHG) true := by decide
theorem test_decode_bfi : read 0x06000000020000000E0000000000000806000400680000000C2000 = .bfi 6 0x1000 (.bitfield BB) false := by decide
theorem test_decode_bfx : read 0x080000000200000002000000000000040200040064000000000008 = .bfx 0x0004 (.bitfield (bitfieldSpec 0x32 1 2)) false := by decide
theorem test_decode_dencl : read 0x0A0080001800001900000000000001FFFE0002004C000007D00000 = .dencl 1000 0x0000 (.dual T) false := by decide
theorem test_decode_dench : read 0x0C0080001800001900000000000001FFFE0002004C0000271000A6 = .dench 5000 0x0053 (.dual T) false := by decide
theorem test_decode_ddecl : read 0x0E0080001800001900000000000001FFFE0002004C0000000038A6 = .ddecl 0x1C53 (.dual T) false := by decide
theorem test_decode_ddech : read 0x100080001800001900000000000001FFFE0002004C0000000038A6 = .ddech 0x1C53 (.dual T) false := by decide
theorem test_decode_rdst : read 0x120000000000000000000000000000000000000000000000000000 = .rdst := by decide
theorem test_decode_clrf : read 0x140000000000000000000000000000000000000000000000000000 = .clrf := by decide
theorem test_decode_reservedB : read 0x160000000000000000000000000000000000000000000000000001 = .reservedB := by decide
theorem test_decode_reservedCF : read 0x1C0000000000000000000000000000000000000000000000000000 = .reservedCF 2 := by decide

/-- The other way round, for the record worked in the head of the file. -/
theorem test_encode_enc : (encode (.enc 1500 0xE03F (.scalar ICHG) false)).toBits =
    0x020000008000003F800000000000000C0E0000000400000BB9C07E := by decide
theorem test_spec_OTGV_HI : decodeSpec (joinWords 0x00000008 0x00005140 0x00000500 0x0000020C 0x00000006) =
    .scalar OTGV_HI := by decide
theorem test_spec_NEG : decodeSpec (joinWords 0x00000005 0x000003E8 0xFFFFFF9C 0x00000008 0x00000010) =
    .scalar NEG := by decide
theorem test_spec_BA : decodeSpec (joinWords 0x00000001 0x00000001 0x00000000 0x00000C01 0x00020034) =
    .bitfield BA := by decide
theorem test_spec_T : decodeSpec (joinWords 0x0040000C 0x00000C80 0x00000000 0x0000FFFF 0x00010026) =
    .dual T := by decide
theorem test_spec_kind3 : decodeSpec KIND3 = .illegal KIND3 := by decide
theorem test_spec_reserved : decodeSpec RESERVED18 = .illegal RESERVED18 := by decide

/-- What a byte string is read as, or the name it is rejected by. -/
def readBytes (bs : List Byte) : Option Instr × Option DecodeError :=
  match decodeBytes bs with
  | .ok i => (some i, none)
  | .error e => (none, some e)

theorem test_bytes_reservedB : readBytes (0x16 :: List.replicate 25 0x00 ++ [0x01]) = (some .reservedB, none) := by decide
theorem test_bytes_short : readBytes (List.replicate 26 0x00) = (none, some .wrongLength) := by decide
theorem test_bytes_padding : readBytes (0x20 :: List.replicate 26 0x00) = (none, some .nonzeroPadding) := by decide
theorem test_table_word : decodeTableWord 4 0x0 = some .nop ∧ decodeTableWord 4 0xA = some .clrf ∧
    decodeTableWord 4 0xB = some .reservedB ∧ decodeTableWord 4 0xF = some (.reservedCF 3) ∧
    decodeTableWord 4 0x10 = none := by decide

/-! ## One instruction on a small state: sections 2.1 to 2.6 -/

/-- The response to an instruction, and `FAIL'`, with `FAIL` before it. -/
def answerOf (fail : Bool) (i : Instr) : Option (Response × Bool) :=
  match exec i { State.reset with fail := fail } with
  | .next t => t.rsp.map fun r => (r, t.fail)
  | .fault _ => none
  | .refused _ => none

theorem test_enc_clamps_low_and_keeps :
    answerOf false (.enc (-5) 0xFFFF (.scalar ICHG) false) = some (⟨false, .none, 0xE03F, 0⟩, false) := by decide
theorem test_enc_wraps :
    answerOf false (.enc 6400 0x7FAA (.scalar OTGI) false) = some (⟨false, .none, 0x00AA, 0⟩, false) := by decide
theorem test_dec_negative :
    answerOf true (.dec 0x0000 (.scalar NEG) false) = some (⟨false, .none, 0, -100⟩, true) := by decide
theorem test_dec_failed_read :
    answerOf true (.dec 0x0700 (.scalar VINDPM) true) = some (⟨true, .readFail, 0, 0⟩, true) := by decide
theorem test_bfi_negative :
    answerOf false (.bfi (-1) 0x0000 (.bitfield (bitfieldSpec 0x34 3 5)) false) = some (⟨false, .none, 0x00E0, 0⟩, false) := by decide
theorem test_bfi_not_canonical :
    answerOf false (.bfi 1 0x0000 (.bitfield { BA with maxVal := 3 }) false) = some (⟨true, .badSpec, 0, 0⟩, false) := by decide
theorem test_bfx_second_field :
    answerOf false (.bfx 0x1060 (.bitfield BB) false) = some (⟨false, .none, 0, 6⟩, false) := by decide
theorem test_bfx_wrong_kind :
    answerOf false (.bfx 0x1000 (.scalar BA) false) = some (⟨true, .badSpec, 0, 0⟩, false) := by decide
theorem test_dencl_narrow_mask :
    answerOf false (.dencl 500 0xABCD (.dual (dualSpec 0x26 0 0x3F 10 3200 0xFF 64)) false) = some (⟨false, .none, 0xABF2, 0⟩, false) := by decide
theorem test_dencl_failed_read :
    answerOf false (.dencl 1000 0xABCD (.dual T) true) = some (⟨true, .readFail, 0x0053, 0⟩, true) := by decide
theorem test_dench_keeps_low :
    answerOf false (.dench 5000 0x0053 (.dual T) false) = some (⟨false, .none, 0x1C53, 0⟩, false) := by decide
theorem test_dench_clamps_high :
    answerOf false (.dench 30000 0x0000 (.dual T) false) = some (⟨false, .none, 0xFF00, 0⟩, false) := by decide
theorem test_ddecl_low_byte :
    answerOf false (.ddecl 0x1C53 (.dual T) false) = some (⟨false, .none, 0, 996⟩, false) := by decide
theorem test_ddecl_checks_both_halves :
    answerOf false (.ddecl 0x1C53 (.dual (dualSpec 0x26 0 0xFF 12 3200 0xFF 0)) true) = some (⟨true, .badSpec, 0, 0⟩, false) := by decide
theorem test_ddech_high_byte :
    answerOf false (.ddech 0x1C53 (.dual T) false) = some (⟨false, .none, 0, 4992⟩, false) := by decide
theorem test_ddech_failed_read :
    answerOf false (.ddech 0x1C53 (.dual T) true) = some (⟨true, .readFail, 0, 0⟩, true) := by decide
theorem test_nop :
    answerOf true (read 0x000000000000000000000000000000000000000000000000000001) = some (⟨false, .none, 0, 0⟩, true) := by decide
theorem test_rdst :
    answerOf true (.rdst) = some (⟨false, .none, 0, 1⟩, true) := by decide
theorem test_clrf :
    answerOf true (.clrf) = some (⟨false, .none, 0, 1⟩, false) := by decide
theorem test_clrf_already_clear :
    answerOf false (.clrf) = some (⟨false, .none, 0, 0⟩, false) := by decide
theorem test_reservedB_with_failed_read :
    answerOf false (read 0x160000000000000000000000000000000000000000000000000001) = some (⟨true, .badOp, 0, 0⟩, false) := by decide
theorem test_reservedCF :
    answerOf true (.reservedCF 3) = some (⟨true, .badOp, 0, 0⟩, true) := by decide
theorem test_bound_met_with_equality :
    answerOf false (.dec 0xFFFF (.scalar EDGE) false) = some (⟨false, .none, 0, 2147483647⟩, false) := by decide
theorem test_bound_missed_by_one :
    answerOf false (.dec 0xFFFF (.scalar { EDGE with minVal := -2147352577 }) false) =
      some (⟨true, .badSpec, 0, 0⟩, false) := by decide

/-! ## The block at other parameters (rule R6): hand calculations from rules R49 and R60 -/

/-- A step of 15, the largest of `RW = 4`, from the least value of `PW = 17`: `15 * 15 - 65536 = -65311`. -/
theorem test_block_other_parameters :
    Block.run (C := { PW := 17, RW := 4, FRAC := 2 }) ⟨0x2, .scalar ⟨0x10, 4, 4, 15, -65536, 65535⟩, 0, 0x00F0, false⟩ false =
      ⟨false, ⟨false, .none, 0, -65311⟩⟩ := by decide
/-- `65535 * 2` is out of the range of `PW = 17`, and in that of `PW = 18`. -/
theorem test_block_bound_is_of_PW :
    (Block.run (C := { PW := 17 }) ⟨0x2, .scalar ⟨0x10, 16, 0, 2, 0, 1⟩, 0, 0xFFFF, false⟩ false).rsp =
      ⟨true, .badSpec, 0, 0⟩ ∧
    (Block.run (C := { PW := 18 }) ⟨0x2, .scalar ⟨0x10, 16, 0, 2, 0, 1⟩, 0, 0xFFFF, false⟩ false).rsp =
      ⟨false, .none, 0, 131070⟩ := by decide

/-! ## The step, the memory and a thread -/

/-- The state after a step, or the same state if it does not go on. -/
def after (s : State) : State :=
  match step s with
  | .next t => t
  | .fault _ => s
  | .refused _ => s

/-- A machine of one thread with these sequences, whose outside world does these things. -/
def oneThread (mem : Memory) (jobs : List Job) (inputs : List Event) : State :=
  { State.reset with mem := mem, threads := [{ jobs := jobs, done := [] }], inputs := inputs }

theorem test_fetch_word : (after (({ State.reset with fail := true } : State).withFetchWord 4 0xA)).fail = false := by decide
theorem test_idle : after State.reset = State.reset := by decide
/-- The start of program P1: `M[0x02] = 0x3F`, `M[0x03] = 0xE0`, and the read of `SET ICHG, 1500`. -/
theorem test_set_reads_little_endian :
    (after (oneThread [(0x02, 0x3F), (0x03, 0xE0)] [.set .scalar .two (.scalar ICHG) 1500 .start]
      [.thread 0 false true])).threads =
    [{ jobs := [.set .scalar .two (.scalar ICHG) 1500 (.request false 0xE03F)], done := [] }] := by decide
/-- Step 3 of program P1: the write of 0xE5FF stores 0xFF at 0x02 and 0xE5 at 0x03. -/
theorem test_set_writes_little_endian :
    (after (oneThread [(0x02, 0x3F), (0x03, 0xE0)] [.set .scalar .two (.scalar ICHG) 1500 (.write 0xE5FF)]
      [.thread 0 false true])).mem = [(0x02, 0xFF), (0x03, 0xE5)] := by decide
/-- Step 2 of program P4: the read fails, and the word is 0x0000. -/
theorem test_get_failed_read :
    (after (oneThread [] [.get .scalar .two (.scalar ICHG) .start] [.thread 0 true false])).threads =
    [{ jobs := [.get .scalar .two (.scalar ICHG) (.request true 0x0000)], done := [] }] := by decide
/-- A one-byte register gives `Pack16(b0, 0x00)` (rule R34). -/
theorem test_get_one_byte :
    (after (oneThread [(0x2E, 0xA5), (0x2F, 0xFF)] [.get .bitfield .one (.bitfield MANUFACTURER_ID) .start]
      [.thread 0 false true])).threads =
    [{ jobs := [.get .bitfield .one (.bitfield MANUFACTURER_ID) (.request false 0x00A5)], done := [] }] := by decide
theorem test_memory_order : Memory.writeByte (Memory.writeByte (Memory.writeByte [] 0x10 1) 0x02 2) 0x10 3 =
    [(0x02, 2), (0x10, 3)] := by decide

/-! ## Witnesses: the hypotheses of each obligation are met together -/

/-- The two-byte read and write of `SET`, its request, and a later `GET`. -/
def demo : State := oneThread [(0x02, 0x3F), (0x03, 0xE0)]
  [.set .scalar .two (.scalar ICHG) 1500 .start, .get .scalar .two (.scalar ICHG) .start]
  [.thread 0 false true, .thread 0 false false, .thread 0 false true, .thread 0 false true, .thread 0 true true]

/-- Two threads that set two fields of one word. -/
def race : State :=
  { State.reset with
    threads := [{ jobs := [.set .bitfield .two (.bitfield BA) 1 .start], done := [] },
                { jobs := [.set .bitfield .two (.bitfield BB) 6 .start], done := [] }]
    inputs := [.thread 0 false true, .thread 1 false true, .thread 0 false true, .thread 1 false true,
               .thread 0 false true, .thread 1 false true] }

theorem witness_EveryInstructionComesBackFromItsRecord :
    (Instr.dench (-1) 0xFFFF (.illegal (BitVec.allOnes 160)) true).wf = true ∧ (Instr.reservedCF 3).wf = true := by
  decide
theorem witness_DescriptorAndItsBitsDetermineEachOther :
    (Descriptor.dual T : Spec).wf = true ∧ (Descriptor.illegal KIND3 : Spec).wf = true := by decide
theorem witness_UnreadFieldsHaveNoEffect_format_W : ∃ r r' : Request, r ≠ r' ∧ r.op = r'.op ∧
    r.op ∈ [0x2#4, 0x4#4, 0x7#4, 0x8#4] ∧ r.spec = r'.spec ∧ r.wordIn = r'.wordIn ∧ r.rdFail = r'.rdFail :=
  ⟨wordRequest 0x8 7 (.dual T) true, physRequest 0x8 5 7 (.dual T) true, by decide, by decide⟩
theorem witness_UnreadFieldsHaveNoEffect_format_N : ∃ r r' : Request, r ≠ r' ∧ r.op = r'.op ∧
    r.op ∈ [0x0#4, 0x9#4, 0xA#4] :=
  ⟨bareRequest 0xA, physRequest 0xA 5 0xFFFF (.illegal KIND3) true, by decide, by decide⟩
theorem witness_SpecOkIsTheWrittenCondition :
    (decode (wordRequest 0x2 0xFFFF (.scalar EDGE) false)).specOk = true ∧
    (decode (physRequest 0x3 0 0 (.bitfield WHOLE) false)).specOk = true ∧
    (decode (wordRequest 0x8 0 (.dual GAPPED) false)).specOk = true ∧
    ((0x8 : BitVec 4) ≠ 0x0 ∧ (0x8 : BitVec 4) < 0x9 ∧
      (decode (wordRequest 0x8 0 (.scalar ICHG) false)).specOk = false) := by decide
theorem witness_ResetClearsStatus : ∃ (s : State) (rest : List Event), s.fail = true ∧ s.inputs = .reset :: rest :=
  ⟨{ State.reset with fail := true, inputs := [.reset] }, [], rfl, rfl⟩
theorem witness_ResetIsIdempotentAndTotal : ∃ (n : Nat) (s : State) (rest : List Event), s.fail = true ∧ n = 2 ∧
    s.inputs = List.replicate (n + 1) .reset ++ rest :=
  ⟨2, { State.reset with fail := true, inputs := [.reset, .reset, .reset, .reset] }, [.reset], rfl, rfl, rfl⟩
theorem witness_EveryStepKeepsTheInvariant : demo.Inv = true ∧ ∃ t, step demo = .next t := ⟨by decide, _, rfl⟩
theorem witness_ContainedHostNeverStopsTheMachine : demo.contained = true ∧ race.contained = true := by decide
theorem witness_StepRunsThePresentedRequest : ∃ s r rest, State.inputs s = .request r :: rest :=
  ⟨State.reset.withFetchWord 4 1, _, _, rfl⟩
theorem witness_StepRunsTheRequestOfAThread : ∃ (s : State) (k : Nat) (b w : Bool) (rest : List Event) (th : Thread)
    (j : Job) (js : List Job) (i : Instr), s.inputs = .thread k b w :: rest ∧ s.threads[k]? = some th ∧
    th.jobs = j :: js ∧ j.request? = some i ∧ i.specOk = true :=
  ⟨after demo, 0, _, _, _, _, _, _, _, rfl, rfl, rfl, rfl, by decide⟩
theorem witness_scalar_conversions : EDGE.scalarOk = true ∧ EMPTY.scalarOk = true ∧ NEG.scalarOk = true ∧
    (Instr.enc 1 0 (.bitfield BA) true).specOk = false ∧ (Instr.dec 0 (.dual T) false).specOk = false := by decide
theorem witness_bitfield_conversions : BA.bitfieldOk = true ∧ WHOLE.bitfieldOk = true ∧
    (bitfieldSpec 0x34 0 7).bitfieldOk = true ∧ (Instr.bfi 1 0 (.scalar BA) true).specOk = false ∧
    (Instr.bfx 0 (.illegal KIND3) false).specOk = false := by decide
theorem witness_dual_conversions : T.ok = true ∧ GAPPED.ok = true ∧
    (Instr.dencl 1 0 (.scalar ICHG) false).specOk = false ∧ (Instr.dench 1 0 (.bitfield BA) false).specOk = false ∧
    (Instr.ddecl 0 (.illegal RESERVED18) true).specOk = false ∧
    (Instr.ddech 0 (.dual (dualSpec 0x26 0 0xFF 0 0 0xFF 1)) false).specOk = false := by decide
theorem witness_operation_codes : ∃ r0 r1 r2 r3 : Request, r0.op = 0x0 ∧ r1.op = 0x9 ∧ r2.op = 0xA ∧ r3.op ≥ 0xB ∧
    r3.rdFail = true :=
  ⟨bareRequest 0x0, bareRequest 0x9, bareRequest 0xA, { bareRequest 0xB with rdFail := true }, by decide⟩
theorem witness_IllegalDescriptorIsBadSpec : Claims.bits KIND3 16 2 = 3 ∧ Claims.bits RESERVED18 18 14 ≠ 0 ∧
    (bareRequest 0x1).op ≠ 0x0 ∧ (bareRequest 0x8).op < 0x9 ∧ (bareRequest 0xA).op ∈ [0x0#4, 0x9#4, 0xA#4] := by decide
theorem witness_FlagChanges_falls : ∃ s t : State, step s = .next t ∧ s.fail = true ∧ t.fail = false :=
  ⟨({ State.reset with fail := true } : State).withFetchWord 4 0xA, _, rfl, rfl, rfl⟩
theorem witness_FlagChanges_rises : ∃ s t : State, step s = .next t ∧ s.fail = false ∧ t.fail = true :=
  ⟨{ State.reset with inputs := [.request (encode (.dec 0 (.scalar ICHG) true))] }, _, rfl, rfl, by decide⟩
theorem witness_FlagIsCumulative : ∃ (rs : List Request) (s : State) (rest : List Event),
    s.inputs = rs.map .request ++ rest ∧ (∀ r ∈ rs, r.op ≠ 0xA) ∧
    (rs.any fun r => (decode r).specOk && (decode r).readFailed) = true :=
  ⟨[encode (.dec 0 (.scalar ICHG) true), encode .rdst],
   { State.reset with inputs := [.request (encode (.dec 0 (.scalar ICHG) true)), .request (encode .rdst), .reset] },
   [.reset], rfl, by decide, by decide⟩
theorem witness_ResponseDependsOnTheRequestAlone : ∃ (i : Instr) (s s' : State), s ≠ s' ∧
    (i = .rdst ∨ i = .clrf → s.fail = s'.fail) :=
  ⟨.dec 0 (.scalar ICHG) false, State.reset, demo, by decide, by decide⟩
theorem witness_AddressFieldIsNotRead : ∃ (r : Request) (spec' : BitVec 160), r.spec ≠ spec' ∧
    r.spec.toNat / 2 ^ 16 = spec'.toNat / 2 ^ 16 ∧ (decode r).specOk = true :=
  ⟨encode (.dec 0 (.scalar ICHG) false), encodeSpec (.scalar { ICHG with addr := 0xFFFF }), by decide⟩
theorem witness_laws_under_Fits : ICHG.scalarOk = true ∧ Claims.Fits ICHG ∧ NEG.scalarOk = true ∧ Claims.Fits NEG ∧
    (6399 : Phys).toInt ≤ (6400 : Phys).toInt ∧ (1472 : Phys).toInt = Claims.Q (1500 : Phys).toInt ICHG := by
  refine ⟨by decide, by unfold Claims.Fits; decide, by decide, by unfold Claims.Fits; decide, by decide, by decide⟩
theorem witness_not_Fits : OTGI.scalarOk = true ∧ ¬ Claims.Fits OTGI ∧ VINDPM.scalarOk = true ∧ ¬ Claims.Fits VINDPM := by
  refine ⟨by decide, by unfold Claims.Fits; decide, by decide, by unfold Claims.Fits; decide⟩
theorem witness_EncodePreservesAndIsIndependent : ∃ w w' : RegWord, w ≠ w' ∧
    w &&& Claims.mask ICHG = w' &&& Claims.mask ICHG ∧
    Claims.mask (scalarSpec 0x02 6 0 1 0 63) &&& Claims.mask ICHG = 0 ∧
    (scalarSpec 0x02 6 0 1 0 63).scalarOk = true :=
  ⟨0x0000, 0xE03F, by decide⟩
theorem witness_DecodeRangeAndReencode : (Claims.DEC 0x05C0 ICHG).toInt ≤ ICHG.maxVal.toInt ∧
    (Claims.DEC 0x7FF8 MAXV).toInt > MAXV.maxVal.toInt ∧ MAXV.scalarOk = true := by decide
theorem witness_DegenerateDescriptorsOfTheCornerTable : EMPTY.scalarOk = true ∧ EMPTY.width = 0 ∧
    EDGE.scalarOk = true ∧ EDGE.width = 16 ∧ EDGE.offset = 0 ∧ POINT.scalarOk = true ∧ POINT.maxVal = POINT.minVal ∧
    EMPTY.maxVal.toInt - EMPTY.minVal.toInt < EMPTY.res.toNat := by decide
theorem witness_BitfieldLaws : BA.bitfieldOk = true ∧ BB.bitfieldOk = true ∧ (scalarSpec 0x34 2 8 1 0 3).scalarOk = true ∧
    (0 ≤ (7 : Phys).toInt ∧ (7 : Phys).toInt ≤ 2 ^ BB.width.toNat - 1) ∧ (-1 : Phys).toInt < 0 ∧
    (8 : Phys).toInt > 2 ^ BB.width.toNat - 1 ∧ Claims.mask BA &&& Claims.mask BB = 0 ∧
    Claims.mask BA &&& Claims.mask (scalarSpec 0x34 2 8 1 0 3) = 0 ∧
    (0x1000 : RegWord) &&& Claims.mask BA = 0x1060 &&& Claims.mask BA := by decide
theorem witness_DualValueLaws : T.ok = true ∧ Claims.contiguous T.sub0 ∧ Claims.contiguous T.sub1 ∧
    GAPPED.ok = true ∧ (0x1C53 : RegWord).toNat % 256 = (0x0053 : RegWord).toNat % 256 ∧
    (0x1C53 : RegWord).toNat / 256 = (0x1C00 : RegWord).toNat / 256 :=
  ⟨by decide, ⟨8, by decide⟩, ⟨8, by decide⟩, by decide, by decide, by decide⟩
theorem witness_FixedPointScale_scalar : NEG.scalarOk = true ∧ (scalarSpec 0x10 8 0 20 (-400) 4000).scalarOk = true ∧
    Claims.scaledField 2 NEG (scalarSpec 0x10 8 0 20 (-400) 4000) ∧ (-396 : Phys).toInt = (-99 : Phys).toInt * 2 ^ 2 := by
  refine ⟨by decide, by decide, by unfold Claims.scaledField; decide, by decide⟩
theorem witness_FixedPointScale_dual : T.ok = true ∧ (dualSpec 0x26 0 0xFF 48 12800 0xFF 256).ok = true ∧
    Claims.scaledSub 2 T.sub0 (dualSpec 0x26 0 0xFF 48 12800 0xFF 256).sub0 ∧
    Claims.scaledSub 2 T.sub1 (dualSpec 0x26 0 0xFF 48 12800 0xFF 256).sub1 := by
  refine ⟨by decide, by decide, by unfold Claims.scaledSub; decide, by unfold Claims.scaledSub; decide⟩
theorem witness_FixedPointScale_label : ∃ (r : PortRequest ⟨32, 16, 0⟩) (r' : PortRequest ⟨32, 16, 8⟩),
    r.op = r'.op ∧ r.spec = r'.spec ∧ r.physIn = r'.physIn ∧ r.wordIn = r'.wordIn ∧ r.rdFail = r'.rdFail :=
  ⟨⟨0x1, .scalar ICHG, 1500, 0xE03F, false⟩, ⟨0x1, .scalar ICHG, 1500, 0xE03F, false⟩, rfl, rfl, rfl, rfl, rfl⟩
theorem witness_SpecOk_at_the_least_parameters : Config.admits { PW := 17, RW := 1 } = true ∧
    (⟨0, 16, 0, 1, -65536, 65535⟩ : FieldSpec 17 1).scalarOk = true ∧
    (⟨0, 16, 0, 1, 0, 65535⟩ : FieldSpec 17 1).bitfieldOk = true ∧
    (⟨0, ⟨-65536, 0xFF, 1⟩, ⟨65280, 0xFF, 1⟩⟩ : DualSpec 17 1).ok = true := by decide
theorem witness_SpecOk_refused : (⟨0, 16, 0, 1, 1, 1⟩ : FieldSpec 17 1).scalarOk = false ∧
    (⟨0, 16, 0, 1, 1, 65535⟩ : FieldSpec 17 1).bitfieldOk = false ∧
    (⟨0, ⟨65281, 0xFF, 1⟩, ⟨0, 0xFF, 1⟩⟩ : DualSpec 17 1).ok = false ∧
    ((0x5 : BitVec 4) ≤ 0x8 ∧ (0x8 : BitVec 4) ≤ 0x8) := by decide
theorem witness_transfer_whole : Claims.transfer 0 .two false [.thread 0 false true] ∧
    Claims.transfer 0 .two true [.thread 0 true false] ∧ Claims.transfer 0 .one false [.thread 0 false false] :=
  ⟨.inl ⟨true, rfl, by decide⟩, .inl ⟨false, rfl, by decide⟩, .inl ⟨false, rfl, by decide⟩⟩
theorem witness_transfer_split : Claims.transfer 0 .two false [.thread 0 false false, .thread 0 true true] :=
  .inr ⟨rfl, rfl, true, true, rfl⟩
theorem witness_MemReadReturnsTheBytesOrZeros : ∃ (s : State) (evs rest : List Event) (th : Thread) (addr : Byte)
    (js : List Job), Claims.transfer 0 .two false evs ∧ s.inputs = evs ++ rest ∧ s.threads[0]? = some th ∧
    th.jobs = .memRead addr .two .start :: js ∧ addr ≠ 0xFF :=
  ⟨oneThread [] [.memRead 0xFE .two .start] [.thread 0 false false, .thread 0 true true], _, [], _, 0xFE, [],
    witness_transfer_split, rfl, rfl, rfl, by decide⟩
theorem witness_MemRead_one_byte_at_0xFF : ∃ (s : State) (evs rest : List Event) (th : Thread) (js : List Job),
    Claims.transfer 0 .one true evs ∧ s.inputs = evs ++ rest ∧ s.threads[0]? = some th ∧
    th.jobs = .memRead 0xFF .one .start :: js :=
  ⟨oneThread [] [.memRead 0xFF .one .start] [.thread 0 true true], [.thread 0 true true], [], _, [],
    .inl ⟨true, rfl, by decide⟩, rfl, rfl, rfl⟩
theorem witness_MemWriteStoresAllOrNothing_one : ∃ (s : State) (evs rest : List Event) (th : Thread) (addr b0 : Byte)
    (js : List Job), s.threads[0]? = some th ∧ th.jobs = .memWrite1 addr b0 :: js ∧ Claims.transfer 0 .one false evs ∧
    s.inputs = evs ++ rest :=
  ⟨oneThread [] [.memWrite1 0xFF 7] [.thread 0 false false], [.thread 0 false false], [], _, 0xFF, 7, [], rfl, rfl,
    .inl ⟨false, rfl, by decide⟩, rfl⟩
theorem witness_MemWriteStoresAllOrNothing_two : ∃ (s : State) (evs rest : List Event) (th : Thread) (addr b0 b1 : Byte)
    (js : List Job), s.threads[0]? = some th ∧ th.jobs = .memWrite2 addr b0 b1 .start :: js ∧ addr ≠ 0xFF ∧
    Claims.transfer 0 .two true evs ∧ s.inputs = evs ++ rest :=
  ⟨oneThread [] [.memWrite2 0xFE 7 8 .start] [.thread 0 true false], [.thread 0 true false], [], _, 0xFE, 7, 8, [],
    rfl, rfl, by decide, .inl ⟨false, rfl, by decide⟩, rfl⟩
theorem witness_MemWriteStoresAllOrNothing_split : ∃ (s : State) (evs rest rest' : List Event) (th : Thread)
    (addr b0 b1 : Byte) (js : List Job), s.threads[0]? = some th ∧ th.jobs = .memWrite2 addr b0 b1 .start :: js ∧
    addr ≠ 0xFF ∧ Claims.transfer 0 .two false evs ∧ s.inputs = evs ++ rest ∧
    s.inputs = .thread 0 false false :: rest' :=
  ⟨oneThread [] [.memWrite2 0xFE 7 8 .start] [.thread 0 false false, .thread 0 true true], _, [], _, _, 0xFE, 7, 8, [],
    rfl, rfl, by decide, witness_transfer_split, rfl, rfl⟩
theorem witness_GetReadsTheWordAndDecodesIt : ∃ (s : State) (b' w' : Bool) (evs rest : List Event) (th : Thread)
    (a : Access) (S : Spec) (js : List Job), Claims.transfer 0 .two false evs ∧
    s.inputs = evs ++ .thread 0 b' w' :: rest ∧ s.threads[0]? = some th ∧ th.jobs = .get a .two S .start :: js ∧
    busAddr S ≠ 0xFF :=
  ⟨oneThread [] [.get .dualHigh .two (.dual T) .start] [.thread 0 false false, .thread 0 true true,
    .thread 0 false false], false, false, _, [], _, _, _, _, witness_transfer_split, rfl, rfl, rfl, by decide⟩
theorem witness_GetReads_one_byte : ∃ (s : State) (b' w' : Bool) (evs rest : List Event) (th : Thread) (a : Access)
    (S : Spec) (js : List Job), Claims.transfer 0 .one false evs ∧ s.inputs = evs ++ .thread 0 b' w' :: rest ∧
    s.threads[0]? = some th ∧ th.jobs = .get a .one S .start :: js :=
  ⟨oneThread [] [.get .bitfield .one (.bitfield DEVICE_ID) .start] [.thread 0 false true, .thread 0 false false], _, _,
    [.thread 0 false true], [], _, _, _, _, .inl ⟨true, rfl, by decide⟩, rfl, rfl, rfl⟩
theorem witness_GetReads_failed_read : ∃ (s : State) (b' w' : Bool) (evs rest : List Event) (th : Thread) (a : Access)
    (S : Spec) (js : List Job), Claims.transfer 0 .two true evs ∧ s.inputs = evs ++ .thread 0 b' w' :: rest ∧
    s.threads[0]? = some th ∧ th.jobs = .get a .two S .start :: js ∧ busAddr S ≠ 0xFF ∧
    (a.decodeInstr 0 S true).specOk = true ∧ s.fail = false :=
  ⟨oneThread [] [.get .scalar .two (.scalar ICHG) .start] [.thread 0 true false, .thread 0 false false], _, _,
    [.thread 0 true false], [], _, _, _, _, .inl ⟨false, rfl, by decide⟩, rfl, rfl, rfl, by decide, by decide, rfl⟩
theorem witness_SetReadsEncodesAndWritesBack : ∃ (b' w' : Bool) (evs evs' rest : List Event) (th : Thread)
    (a : Access) (S : Spec) (v : Phys) (js : List Job), demo.threads[0]? = some th ∧
    th.jobs = .set a .two S v .start :: js ∧ busAddr S ≠ 0xFF ∧ Claims.transfer 0 .two false evs ∧
    Claims.transfer 0 .two false evs' ∧ demo.inputs = evs ++ .thread 0 b' w' :: (evs' ++ rest) :=
  ⟨false, false, [.thread 0 false true], [.thread 0 false true], _, _, _, _, _, _, rfl, rfl, by decide,
    .inl ⟨true, rfl, by decide⟩, .inl ⟨true, rfl, by decide⟩, rfl⟩
theorem witness_SetReads_split : ∃ (s : State) (b' w' : Bool) (evs evs' rest : List Event) (th : Thread)
    (a : Access) (S : Spec) (v : Phys) (js : List Job), s.threads[0]? = some th ∧
    th.jobs = .set a .two S v .start :: js ∧ busAddr S ≠ 0xFF ∧ Claims.transfer 0 .two false evs ∧
    Claims.transfer 0 .two false evs' ∧ s.inputs = evs ++ .thread 0 b' w' :: (evs' ++ rest) :=
  ⟨oneThread [] [.set .dualLow .two (.dual T) 1000 .start] [.thread 0 false false, .thread 0 true true,
    .thread 0 false false, .thread 0 false false, .thread 0 true true], false, false, _, _, [], _, _, _, _, _, rfl, rfl,
    by decide, witness_transfer_split, witness_transfer_split, rfl⟩
theorem witness_SetReads_failed_read : ∃ (s : State) (b' w' : Bool) (evs rest : List Event) (th : Thread)
    (a : Access) (S : Spec) (v : Phys) (js : List Job), s.threads[0]? = some th ∧ th.jobs = .set a .one S v .start :: js ∧
    Claims.transfer 0 .one true evs ∧ s.inputs = evs ++ .thread 0 b' w' :: rest :=
  ⟨oneThread [] [.set .bitfield .one (.bitfield BA) 1 .start] [.thread 0 true true, .thread 0 false false], false, false,
    [.thread 0 true true], [], _, _, _, _, _, rfl, rfl, .inl ⟨true, rfl, by decide⟩, rfl⟩
theorem witness_SetReads_response_status : ∃ u p u' p',
    exec (Access.scalar.encodeInstr 1500 (Claims.wordRead demo.mem 0x02 .two false) (.scalar ICHG) false) demo =
      .next u ∧ u.rsp = some p ∧ p.status = false ∧
    exec (Access.scalar.encodeInstr 1500 (Claims.wordRead demo.mem 0x02 .two true) (.scalar ICHG) true) demo =
      .next u' ∧ u'.rsp = some p' ∧ p'.status = true :=
  ⟨_, _, _, _, rfl, rfl, rfl, rfl, rfl, rfl⟩
theorem witness_AdcGetQuantizesTheLiveValue : ∃ (s : State) (th : Thread), T.ok = true ∧ Claims.contiguous T.sub0 ∧
    Claims.contiguous T.sub1 ∧ s.threads[0]? = some th ∧ th.jobs = [.adcget (.dual T) true 1000 5000 .first] ∧
    s.inputs = [.thread 0 false false, .thread 0 false false, .thread 0 false false] :=
  ⟨oneThread [] [.adcget (.dual T) true 1000 5000 .first] [.thread 0 false false, .thread 0 false false,
    .thread 0 false false], _, by decide, ⟨8, by decide⟩, ⟨8, by decide⟩, rfl, rfl, rfl⟩
theorem witness_GetAfterOwnSetSeesTheWrite : ∃ (k : Nat) (b2 w2 b5 w5 : Bool) (rest : List Event) (th : Thread)
    (js : List Job), ICHG.scalarOk = true ∧ Claims.Fits ICHG ∧ busAddr (.scalar ICHG) ≠ 0xFF ∧
    demo.threads[k]? = some th ∧
    th.jobs = .set .scalar .two (.scalar ICHG) 1500 .start :: .get .scalar .two (.scalar ICHG) .start :: js ∧
    demo.inputs = .thread k false true :: .thread k b2 w2 :: .thread k false true :: .thread k false true ::
      .thread k b5 w5 :: rest :=
  ⟨0, false, false, true, true, [], _, [], by decide, by unfold Claims.Fits; decide, by decide, rfl, rfl, rfl⟩
theorem witness_BusStepStoresOnlyWhereItSays : ∃ (s t : State) (b w : Bool) (rest : List Event) (th : Thread) (j : Job)
    (js : List Job), s.inputs = .thread 0 b w :: rest ∧ s.threads[0]? = some th ∧ th.jobs = j :: js ∧
    j.request? = none ∧ step s = .next t ∧ j.storeAddrs b w = [0x02, 0x03] :=
  ⟨oneThread [] [.set .scalar .two (.scalar ICHG) 1500 (.write 0xE5FF)] [.thread 0 false true], _, _, _, _, _, _, _, rfl,
    rfl, rfl, rfl, rfl, by decide⟩
theorem witness_AgentWriteStoresOneByte : ∃ (s : State) (rest : List Event), s.inputs = .agentWrite 0xFF 1 :: rest :=
  ⟨{ State.reset with inputs := [.agentWrite 0xFF 1] }, [], rfl⟩
theorem witness_TwoByteAccessAtTheLastAddressIsRefused : ∃ (s : State) (th : Thread) (j : Job) (js : List Job),
    s.inputs = [.thread 0 false true] ∧ s.threads[0]? = some th ∧ th.jobs = j :: js ∧
    (∃ a S v, j = .set a .two S v .start ∧ busAddr S = 0xFF) :=
  ⟨oneThread [] [.set .scalar .two (.scalar { ICHG with addr := 0x12FF }) 0 .start] [.thread 0 false true], _, _, _, rfl,
    rfl, rfl, _, _, _, rfl, by decide⟩
theorem witness_TwoByteAccess_get : busAddr (.scalar { ICHG with addr := 0x00FF }) = 0xFF := by decide
theorem witness_InterleavedSetsLoseAnUpdate : ∃ (rest : List Event) (th tl : Thread), BA.bitfieldOk = true ∧
    BB.bitfieldOk = true ∧ Claims.mask BA &&& Claims.mask BB = 0 ∧
    busAddr (.bitfield BA) = busAddr (.bitfield BB) ∧ busAddr (.bitfield BA) ≠ 0xFF ∧
    race.threads[0]? = some th ∧ race.threads[1]? = some tl ∧
    th.jobs = [.set .bitfield .two (.bitfield BA) 1 .start] ∧ tl.jobs = [.set .bitfield .two (.bitfield BB) 6 .start] ∧
    race.inputs = .thread 0 false true :: .thread 1 false true :: .thread 0 false true :: .thread 1 false true ::
      .thread 0 false true :: .thread 1 false true :: rest :=
  ⟨[], _, _, by decide, by decide, by decide, by decide, by decide, rfl, rfl, rfl, rfl, rfl⟩
theorem witness_TornWordReachesTheBlock : ∃ (s : State) (th : Thread), busAddr (.scalar ICHG) ≠ 0xFF ∧
    s.threads[0]? = some th ∧ th.jobs = [.get .scalar .two (.scalar ICHG) .start] ∧
    s.inputs = [.thread 0 false false, .agentWrite (busAddr (.scalar ICHG) + 1) 0x05, .thread 0 false false,
      .thread 0 false false] :=
  ⟨oneThread [] [.get .scalar .two (.scalar ICHG) .start] [.thread 0 false false, .agentWrite 0x03 0x05,
    .thread 0 false false, .thread 0 false false], _, by decide, rfl, rfl, rfl⟩
theorem witness_PseudoOperations_requests : ∃ (s : State) (th : Thread) (j : Job) (i : Instr),
    s.threads[0]? = some th ∧ (∃ x S, j = .bset x S ∧ i = .bfi 1 x S false) ∧ th.jobs = [j] ∧
    s.inputs = [.thread 0 false false] :=
  ⟨oneThread [] [.bset 0 (.bitfield BA)] [.thread 0 false false], _, _, _, rfl, ⟨_, _, rfl, rfl⟩, rfl, rfl⟩
theorem witness_PseudoOperations_ENCZ : ∃ (s : State) (th : Thread) (j : Job) (i : Instr),
    s.threads[0]? = some th ∧ (∃ v S, j = .encz v S ∧ i = .enc v 0x0000 S false) ∧ th.jobs = [j] ∧
    s.inputs = [.thread 0 false false] :=
  ⟨oneThread [] [.encz 1500 (.scalar ICHG)] [.thread 0 false false], _, _, _, rfl, ⟨_, _, rfl, rfl⟩, rfl, rfl⟩
theorem witness_PseudoOperations_BCLR : ∃ (s : State) (th : Thread) (j : Job) (i : Instr),
    s.threads[0]? = some th ∧ (∃ x S, j = .bclr x S ∧ i = .bfi 0 x S false) ∧ th.jobs = [j] ∧
    s.inputs = [.thread 0 false false] :=
  ⟨oneThread [] [.bclr 0xFFFF (.bitfield BA)] [.thread 0 false false], _, _, _, rfl, ⟨_, _, rfl, rfl⟩, rfl, rfl⟩
theorem witness_PseudoOperations_issue : ∃ (s : State) (th : Thread) (j : Job) (i : Instr),
    s.threads[0]? = some th ∧ (∃ r, j = .issue r ∧ i = decode r) ∧ th.jobs = [j] ∧ s.inputs = [.thread 0 false false] :=
  ⟨oneThread [] [.issue (bareRequest 0xA)] [.thread 0 false false], _, _, _, rfl, ⟨_, rfl, rfl⟩, rfl, rfl⟩
theorem witness_PseudoOperations_QNT : ∃ (s : State) (th : Thread), s.threads[0]? = some th ∧
    th.jobs = [.qnt 1500 (.scalar ICHG) .first] ∧ s.inputs = [.thread 0 false false, .thread 0 true true] :=
  ⟨oneThread [] [.qnt 1500 (.scalar ICHG) .first] [.thread 0 false false, .thread 0 true true], _, rfl, rfl, rfl⟩

end Sys2Proof.Tests
end

section
/-!
SUPPORT. The label `FRAC` and fixed-point scaling (rule R9), and the value of each conversion of the machine in terms
of the model's definitions of it.
-/

namespace Sys2Proof

/-! ## Scaled values -/

/-- Scaling the value and both bounds scales the clamp. -/
theorem clamp_mul {k : Int} (hk : 0 < k) (v lo hi : Int) : clamp (v * k) (lo * k) (hi * k) = clamp v lo hi * k := by
  simp only [clamp, gt_iff_lt, mul_lt_mul_iff_left₀ hk, ite_mul]

/-- Scaling the value, the bounds and the step leaves the quantized value alone (rule R9). -/
theorem quantize_mul {k : Int} (hk : 0 < k) (lo hi res v : Int) :
    quantize (lo * k) (hi * k) (res * k) (v * k) = quantize lo hi res v := by
  unfold quantize fdiv
  rw [clamp_mul hk, ← Int.sub_mul, Int.mul_ediv_mul_of_pos_left _ _ hk]

variable {pw rw pw' rw' frac : Nat}

section Scalar

variable {S : FieldSpec pw rw} {T : FieldSpec pw' rw'} (h : Claims.scaledField frac S T)
include h

theorem FieldSpec.quantized_scaled (v : Int) : T.quantized (v * 2 ^ frac) = S.quantized v := by
  obtain ⟨-, -, hmin, hmax, hres⟩ := h
  unfold FieldSpec.quantized
  rw [hmin, hmax, hres]
  push_cast
  exact quantize_mul (by positivity) _ _ _ _

/-- Scaling leaves the place of the field alone, so the word is the same (rule R9). -/
theorem FieldSpec.encodeWord_scaled (v : Int) (w : RegWord) : T.encodeWord (v * 2 ^ frac) w = S.encodeWord v w := by
  have hq := FieldSpec.quantized_scaled h v
  obtain ⟨hwidth, hoffset, -⟩ := h
  simp only [FieldSpec.encodeWord, FieldSpec.fieldFor, FieldSpec.fm, FieldSpec.place, FieldSpec.wm, hq, hwidth, hoffset]

theorem FieldSpec.decodeValue_scaled (w : RegWord) : T.decodeValue w = S.decodeValue w * 2 ^ frac := by
  obtain ⟨hwidth, hoffset, hmin, -, hres⟩ := h
  simp only [FieldSpec.decodeValue, FieldSpec.fieldOf, FieldSpec.wm, hwidth, hoffset, hmin, hres]
  push_cast
  ring

end Scalar

section Dual

variable {F : SubField pw rw} {G : SubField pw' rw'} (h : Claims.scaledSub frac F G)
include h

/-- The implied upper bound scales with the minimum and the step (rules R9 and R77). -/
theorem SubField.impliedMax_scaled : G.impliedMax = F.impliedMax * 2 ^ frac := by
  obtain ⟨hmask, hmin, hres⟩ := h
  unfold SubField.impliedMax
  rw [hmask, hmin, hres]
  push_cast
  ring

theorem SubField.fieldFor_scaled (v : Int) : G.fieldFor (v * 2 ^ frac) = F.fieldFor v := by
  have hmax := SubField.impliedMax_scaled h
  obtain ⟨hmask, hmin, hres⟩ := h
  unfold SubField.fieldFor SubField.quantized
  rw [hmask, hmin, hmax, hres]
  push_cast
  rw [quantize_mul (by positivity)]

theorem SubField.encodeLow_scaled (v : Int) (w : RegWord) : G.encodeLow (v * 2 ^ frac) w = F.encodeLow v w := by
  unfold SubField.encodeLow SubField.fmLow
  have hmask : G.mask = F.mask := h.1
  rw [SubField.fieldFor_scaled h, hmask]

theorem SubField.encodeHigh_scaled (v : Int) (w : RegWord) : G.encodeHigh (v * 2 ^ frac) w = F.encodeHigh v w := by
  unfold SubField.encodeHigh SubField.fmHigh
  have hmask : G.mask = F.mask := h.1
  rw [SubField.fieldFor_scaled h, hmask]

theorem SubField.decodeByte_scaled (b : Byte) : G.decodeByte b = F.decodeByte b * 2 ^ frac := by
  obtain ⟨hmask, hmin, hres⟩ := h
  unfold SubField.decodeByte
  rw [hmask, hmin, hres]
  push_cast
  ring

end Dual

/-- A request under another label `FRAC`. -/
def PortRequest.relabel {PW RW FRAC : Nat} (FRAC' : Nat) (r : PortRequest ⟨PW, RW, FRAC⟩) :
    PortRequest ⟨PW, RW, FRAC'⟩ :=
  ⟨r.op, r.spec, r.physIn, r.wordIn, r.rdFail⟩

end Sys2Proof

namespace Sys2Proof.Machine

open Sys2Proof

/-! ## The label FRAC -/

section Label

variable {PW RW FRAC : Nat} (FRAC' : Nat)

/-- A response under another label `FRAC`. -/
def PortResponse.relabel (p : PortResponse ⟨PW, RW, FRAC⟩) : PortResponse ⟨PW, RW, FRAC'⟩ :=
  ⟨p.status, p.cause, p.wordOut, p.physOut⟩

/-- The effect of an operation under another label `FRAC`. -/
def Effect.relabel (e : Effect ⟨PW, RW, FRAC⟩) : Effect ⟨PW, RW, FRAC'⟩ := ⟨e.fail, e.rsp.relabel FRAC'⟩

/-- Acceptance does not read the label. -/
theorem accept_relabel {α : Type} (spec : Option α) (rdFail : Bool) (w : RegWord) (fail : Bool)
    (body : α → Accepted → PortResponse ⟨PW, RW, FRAC⟩) :
    (accept spec rdFail w fail body).relabel FRAC' =
      accept spec rdFail w fail fun S a => (body S a).relabel FRAC' := by
  cases spec with
  | none => rfl
  | some S => cases rdFail <;> rfl

theorem Accepted.encoded_relabel (a : Accepted) (word : RegWord) :
    (a.encoded word : PortResponse ⟨PW, RW, FRAC⟩).relabel FRAC' = a.encoded word := rfl

theorem Accepted.decoded_relabel (a : Accepted) (phys : BitVec PW) :
    (a.decoded (C := ⟨PW, RW, FRAC⟩) phys).relabel FRAC' = a.decoded (C := ⟨PW, RW, FRAC'⟩) phys := by
  unfold Accepted.decoded
  split <;> rfl

/-- The block does not read the label: it commutes with a change of it (rule R9). -/
theorem Block.run_relabel (r : PortRequest ⟨PW, RW, FRAC⟩) (fail : Bool) :
    Block.run (r.relabel FRAC') fail = (Block.run r fail).relabel FRAC' := by
  unfold Block.run
  dsimp only [PortRequest.relabel]
  split
  case h_2 | h_4 | h_6 | h_7 =>
    simp only [Block.enc, Block.bfi, Block.dencl, Block.dench, accept_relabel, Accepted.encoded_relabel]
  case h_3 | h_5 | h_8 | h_9 =>
    simp only [Block.dec, Block.bfx, Block.ddecl, Block.ddech, accept_relabel, Accepted.decoded_relabel]
  all_goals rfl -- format N and the reserved codes: the answer is written out

end Label

end Sys2Proof.Machine

namespace Sys2Proof.Claims

open Sys2Proof Sys2Proof.Machine

/-! ## The six scaled operations in the machine -/

section Scalar

variable {S : FieldSpec Config.PW Config.RW} (h : S.scalarOk = true) (w : RegWord)
include h

/-- `ENC` of the machine is the model's word (rule R59). -/
theorem ENC_eq (v : Phys) : ENC v w S = S.encodeWord v.toInt w := by
  simp [ENC, wordOut, response, exec_enc _ _ _ _ h]

/-- `DEC` of the machine is the model's value, which fits a physical value (rules R60 and R62). -/
theorem toInt_DEC : (DEC w S).toInt = S.decodeValue w := by
  obtain ⟨-, -, hlo, hhi⟩ := FieldSpec.decodeValue_bounds h w
  simp [DEC, physOut, response, exec_dec _ _ _ h, toInt_ofInt_phys (by decide) hlo hhi]

end Scalar

section Dual

variable {S : DualSpec Config.PW Config.RW} (h : S.ok = true) (w : RegWord)
include h

/-- `DENCL` of the machine is the model's word (rule R73). -/
theorem DENCL_eq (v : Phys) : DENCL v w S = S.sub0.encodeLow v.toInt w := by
  simp [DENCL, wordOut, response, exec_dencl _ _ _ _ h]

/-- `DENCH` of the machine is the model's word (rule R74). -/
theorem DENCH_eq (v : Phys) : DENCH v w S = S.sub1.encodeHigh v.toInt w := by
  simp [DENCH, wordOut, response, exec_dench _ _ _ _ h]

/-- `DDECL` of the machine is the model's value, which fits a physical value (rule R75). -/
theorem toInt_DDECL : (DDECL w S).toInt = S.sub0.decodeByte (lowByte w) := by
  obtain ⟨-, -, hlo, hhi⟩ := SubField.decodeByte_bounds (DualSpec.of_ok h).1 (lowByte w)
  simp [DDECL, physOut, response, exec_ddecl _ _ _ h, toInt_ofInt_phys (by decide) hlo hhi]

/-- `DDECH` of the machine is the model's value, which fits a physical value (rule R76). -/
theorem toInt_DDECH : (DDECH w S).toInt = S.sub1.decodeByte (highByte w) := by
  obtain ⟨-, -, hlo, hhi⟩ := SubField.decodeByte_bounds (DualSpec.of_ok h).2 (highByte w)
  simp [DDECH, physOut, response, exec_ddech _ _ _ h, toInt_ofInt_phys (by decide) hlo hhi]

end Dual

end Sys2Proof.Claims

namespace Sys2Proof

open Sys2Proof Sys2Proof.Machine

/-- Settles O44: the block commutes with a change of the label, and scaling the value with the bounds and the step
leaves every quantized value alone. -/
theorem fixedPointScaleIsTransparent : Obligations.FixedPointScaleIsTransparent := by
  unfold Obligations.FixedPointScaleIsTransparent
  refine ⟨?label, ?scalar, ?sub, ?scalarMachine, ?dualMachine⟩
  case label =>
    intro PW RW FRAC FRAC' r r' fail hop hspec hphys hword hrd
    have hr' : r' = r.relabel FRAC' := by rw [PortRequest.relabel, hop, hspec, hphys, hword, hrd]
    rw [hr', Block.run_relabel]
    exact ⟨rfl, rfl, rfl, rfl, rfl⟩
  case scalar =>
    intro pw rw pw' rw' frac S T v w h
    exact ⟨FieldSpec.encodeWord_scaled h v w, FieldSpec.decodeValue_scaled h w⟩
  case sub =>
    intro pw rw pw' rw' frac F G v w b h
    exact ⟨SubField.encodeLow_scaled h v w, SubField.encodeHigh_scaled h v w, SubField.decodeByte_scaled h b⟩
  case scalarMachine =>
    intro frac S T v v' w hS hT h hv
    rw [Claims.ENC_eq hT, Claims.ENC_eq hS, Claims.toInt_DEC hT, Claims.toInt_DEC hS, hv]
    exact ⟨FieldSpec.encodeWord_scaled h _ w, FieldSpec.decodeValue_scaled h w⟩
  case dualMachine =>
    intro frac S T v v' w hS hT h0 h1 hv
    rw [Claims.DENCL_eq hT, Claims.DENCL_eq hS, Claims.DENCH_eq hT, Claims.DENCH_eq hS, Claims.toInt_DDECL hT,
      Claims.toInt_DDECL hS, Claims.toInt_DDECH hT, Claims.toInt_DDECH hS, hv]
    exact ⟨SubField.encodeLow_scaled h0 _ w, SubField.encodeHigh_scaled h1 _ w, SubField.decodeByte_scaled h0 _,
      SubField.decodeByte_scaled h1 _⟩

end Sys2Proof
end

section
/-! SUPPORT and PROOF. Quantizing a real-valued quantity (rule R8). -/

namespace Sys2Proof

/-- The floor of the clamp of a real value between integer bounds is the clamp of its floor. -/
theorem floor_max_min (v : ℝ) (lo hi : Int) : ⌊max (lo : ℝ) (min v hi)⌋ = max lo (min ⌊v⌋ hi) := by
  rw [Int.floor_mono.map_max, Int.floor_mono.map_min, Int.floor_intCast, Int.floor_intCast]

/-- Settles O45: the floor passes through the division by an integer, the subtraction and the clamp. -/
theorem floorOfThePhysicalValueLosesNothing : Obligations.FloorOfThePhysicalValueLosesNothing := by
  unfold Obligations.FloorOfThePhysicalValueLosesNothing
  intro v lo hi res hle hres
  obtain ⟨n, rfl⟩ := Int.eq_ofNat_of_zero_le (by omega : 0 ≤ res)
  calc ⌊(max (lo : ℝ) (min v hi) - lo) / ((n : Int) : ℝ)⌋
      = ⌊max (lo : ℝ) (min v hi) - lo⌋ / (n : Int) := by rw [Int.cast_natCast, Int.floor_div_natCast]
    _ = (max lo (min ⌊v⌋ hi) - lo) / (n : Int) := by rw [Int.floor_sub_intCast, floor_max_min]
    _ = quantize lo hi n ⌊v⌋ := by rw [quantize, fdiv, clamp_eq_max_min hle]

end Sys2Proof
end

section
/-!
SUPPORT. `SpecOK` as rule R49 writes it, the range of the quantized value (rule R62), and what the block answers to each
operation code (rules R16 and R41), at any parameters.
-/

namespace Sys2Proof

variable {pw rw : Nat}

/-! ## `SpecOK` as a condition (rule R49) -/

theorem FieldSpec.scalarOk_iff (S : FieldSpec pw rw) : S.scalarOk = true ↔
    S.offset.toNat + S.width.toNat ≤ 16 ∧ S.minVal.toInt ≤ S.maxVal.toInt ∧ 1 ≤ S.res.toNat ∧
      S.minVal.toInt + (2 ^ S.width.toNat - 1) * S.res.toNat ≤ 2 ^ (pw - 1) - 1 := by
  simp only [FieldSpec.scalarOk, Bool.and_eq_true, decide_eq_true_eq, and_assoc, S.wm_int, pmax]

theorem FieldSpec.bitfieldOk_iff (S : FieldSpec pw rw) : S.bitfieldOk = true ↔
    S.offset.toNat + S.width.toNat ≤ 16 ∧ S.minVal.toInt = 0 ∧ S.res.toNat = 1 ∧
      S.maxVal.toInt = 2 ^ S.width.toNat - 1 := by
  simp only [FieldSpec.bitfieldOk, Bool.and_eq_true, decide_eq_true_eq, and_assoc, S.wm_int]

theorem DualSpec.ok_iff (S : DualSpec pw rw) : S.ok = true ↔ 1 ≤ S.sub0.res.toNat ∧ 1 ≤ S.sub1.res.toNat ∧
    S.sub0.minVal.toInt + S.sub0.mask.toNat * S.sub0.res.toNat ≤ 2 ^ (pw - 1) - 1 ∧
    S.sub1.minVal.toInt + S.sub1.mask.toNat * S.sub1.res.toNat ≤ 2 ^ (pw - 1) - 1 := by
  simp only [DualSpec.ok, SubField.ok, Bool.and_eq_true, decide_eq_true_eq]
  exact ⟨fun ⟨⟨hr0, hm0⟩, hr1, hm1⟩ => ⟨hr0, hr1, hm0, hm1⟩, fun ⟨hr0, hr1, hm0, hm1⟩ => ⟨⟨hr0, hm0⟩, hr1, hm1⟩⟩

/-- Only a scalar descriptor that is `SpecOK` is accepted by `ENC` and `DEC`. -/
theorem Descriptor.forScalar_eq_none {D : Descriptor pw rw} (h : ∀ S, D = .scalar S → S.scalarOk = false) :
    D.forScalar = none := by
  cases D with
  | scalar S => simp [Descriptor.forScalar, h S rfl]
  | dual | bitfield | illegal => rfl

/-- Only a bitfield-only descriptor that is `SpecOK` is accepted by `BFI` and `BFX`. -/
theorem Descriptor.forBitfield_eq_none {D : Descriptor pw rw} (h : ∀ S, D = .bitfield S → S.bitfieldOk = false) :
    D.forBitfield = none := by
  cases D with
  | bitfield S => simp [Descriptor.forBitfield, h S rfl]
  | scalar | dual | illegal => rfl

/-- Only a dual-value descriptor that is `SpecOK` is accepted by the dual-value operations. -/
theorem Descriptor.forDual_eq_none {D : Descriptor pw rw} (h : ∀ S, D = .dual S → S.ok = false) :
    D.forDual = none := by
  cases D with
  | dual S => simp [Descriptor.forDual, h S rfl]
  | scalar | bitfield | illegal => rfl

/-! ## The quantized value -/

/-- The quantized value is the quotient that the statements write. -/
theorem quantize_eq_quotient {lo hi : Int} (h : lo ≤ hi) (res v : Int) :
    quantize lo hi res v = Claims.quotient lo hi res v := by
  rw [quantize, fdiv, clamp_eq_max_min h, Claims.quotient]

theorem FieldSpec.quantized_eq_quotient {S : FieldSpec pw rw} (h : S.scalarOk = true) (v : Int) :
    S.quantized v = Claims.quotient S.minVal.toInt S.maxVal.toInt S.res.toNat v := by
  obtain ⟨-, hle, -⟩ := FieldSpec.of_scalarOk h
  exact quantize_eq_quotient hle _ v

theorem SubField.quantized_eq_quotient {F : SubField pw rw} (h : F.ok = true) (v : Int) : F.quantized v =
    Claims.quotient F.minVal.toInt (F.minVal.toInt + F.mask.toNat * F.res.toNat) F.res.toNat v := by
  obtain ⟨hle, -⟩ := SubField.quantized_bounds h v
  exact quantize_eq_quotient hle _ v

/-- The quantized value of a scalar descriptor is at most the distance of two physical values (rule R62). -/
theorem FieldSpec.quantized_le {S : FieldSpec pw rw} (h : S.scalarOk = true) (hpw : 1 ≤ pw) (v : Int) :
    S.quantized v ≤ 2 ^ pw - 1 := by
  obtain ⟨-, hle, hres, -⟩ := FieldSpec.of_scalarOk h
  have hmin := BitVec.le_toInt S.minVal
  have hmax := BitVec.toInt_lt (x := S.maxVal)
  have hpow : (2 : Int) ^ pw = 2 * 2 ^ (pw - 1) := by rw [← pow_succ', Nat.sub_add_cancel hpw]
  calc S.quantized v ≤ (S.maxVal.toInt - S.minVal.toInt) / S.res.toNat := quantize_le_top hle (by omega)
    _ ≤ S.maxVal.toInt - S.minVal.toInt := Int.ediv_le_self _ (by omega)
    _ ≤ 2 ^ pw - 1 := by omega

/-! ## What an operation takes and gives after a failed read -/

/-- A bit of the word that an accepted operation takes: `0x0000` after a failed read (rule R110). -/
theorem getLsbD_takenWord (f : Bool) (w : RegWord) (i : Nat) :
    (if f then 0 else w : RegWord).getLsbD i = (!f && w.getLsbD i) := by
  cases f <;> simp

/-- The value of a decode: 0 after a failed read (rule R110). -/
theorem toInt_decoded (f : Bool) (x : BitVec pw) :
    (if f then 0 else x : BitVec pw).toInt = if f then 0 else x.toInt := by
  cases f <;> simp

end Sys2Proof

namespace Sys2Proof.Machine

open Sys2Proof

/-! ## The block by operation code (rules R16, R41 and R52) -/

section Run

variable {C : Config.Params} {r : PortRequest C} (fail : Bool)

theorem Block.run_nop (h : r.op = 0x0) : Block.run r fail = Block.nop fail := by simp [Block.run, h]
theorem Block.run_enc (h : r.op = 0x1) : Block.run r fail = Block.enc r.physIn r.wordIn r.spec r.rdFail fail := by
  simp [Block.run, h]
theorem Block.run_dec (h : r.op = 0x2) : Block.run r fail = Block.dec r.wordIn r.spec r.rdFail fail := by
  simp [Block.run, h]
theorem Block.run_bfi (h : r.op = 0x3) : Block.run r fail = Block.bfi r.physIn r.wordIn r.spec r.rdFail fail := by
  simp [Block.run, h]
theorem Block.run_bfx (h : r.op = 0x4) : Block.run r fail = Block.bfx r.wordIn r.spec r.rdFail fail := by
  simp [Block.run, h]
theorem Block.run_dencl (h : r.op = 0x5) : Block.run r fail = Block.dencl r.physIn r.wordIn r.spec r.rdFail fail := by
  simp [Block.run, h]
theorem Block.run_dench (h : r.op = 0x6) : Block.run r fail = Block.dench r.physIn r.wordIn r.spec r.rdFail fail := by
  simp [Block.run, h]
theorem Block.run_ddecl (h : r.op = 0x7) : Block.run r fail = Block.ddecl r.wordIn r.spec r.rdFail fail := by
  simp [Block.run, h]
theorem Block.run_ddech (h : r.op = 0x8) : Block.run r fail = Block.ddech r.wordIn r.spec r.rdFail fail := by
  simp [Block.run, h]
theorem Block.run_rdst (h : r.op = 0x9) : Block.run r fail = Block.rdst fail := by simp [Block.run, h]
theorem Block.run_clrf (h : r.op = 0xA) : Block.run r fail = Block.clrf fail := by simp [Block.run, h]
theorem Block.run_reserved (h : r.op ≥ 0xB) : Block.run r fail = rejectOp fail := by
  have h' : 0xB ≤ r.op.toNat := h
  unfold Block.run
  split
  case h_12 => rfl
  all_goals omega

/-- A conversion without a `SpecOK` descriptor of its kind answers `BAD_SPEC` and changes nothing (rule R111). -/
theorem Block.run_badSpec
    (h : (r.op = 0x1 ∨ r.op = 0x2) ∧ r.spec.forScalar = none ∨ (r.op = 0x3 ∨ r.op = 0x4) ∧ r.spec.forBitfield = none ∨
      (0x5 ≤ r.op ∧ r.op ≤ 0x8) ∧ r.spec.forDual = none) :
    Block.run r fail = ⟨fail, PortResponse.failed .badSpec⟩ := by
  rcases h with ⟨hop | hop, hS⟩ | ⟨hop | hop, hS⟩ | ⟨⟨hlo, hhi⟩, hS⟩
  · rw [Block.run_enc fail hop, Block.enc, hS, accept_none]
  · rw [Block.run_dec fail hop, Block.dec, hS, accept_none]
  · rw [Block.run_bfi fail hop, Block.bfi, hS, accept_none]
  · rw [Block.run_bfx fail hop, Block.bfx, hS, accept_none]
  · rcases (by bv_omega : r.op = 0x5 ∨ r.op = 0x6 ∨ r.op = 0x7 ∨ r.op = 0x8) with hop | hop | hop | hop
    · rw [Block.run_dencl fail hop, Block.dencl, hS, accept_none]
    · rw [Block.run_dench fail hop, Block.dench, hS, accept_none]
    · rw [Block.run_ddecl fail hop, Block.ddecl, hS, accept_none]
    · rw [Block.run_ddech fail hop, Block.ddech, hS, accept_none]

end Run

/-- The machine is the block at the default parameters: the effect of a request is that of its record. -/
theorem exec_decode (q : Request) (s : State) : exec (decode q) s = .next (s.settle (Block.run q.record s.fail)) := by
  rcases decode_cases q with h | h | h | h | h | h | h | h | h | h | h | h | ⟨hop, hd⟩
  on_goal 13 =>
    have hge : q.record.op ≥ 0xB := (by omega : 0xB ≤ q.op.toNat)
    rw [hd, Block.run_reserved _ hge]
    rfl
  all_goals -- one code each: `decode` and `Block.run` choose the same operation
    obtain ⟨hop, hd⟩ := h
    simp only [hd, Block.run, Request.record, hop]
    rfl

end Sys2Proof.Machine
end

section
/-! PROOF. The block at every admitted parameter (rule R6). -/

namespace Sys2Proof.Machine

open Sys2Proof

/-- Settles O46: each conversion answers by its own rule, whose bits and bounds the laws of the codec give. -/
theorem specOkKeepsResultsInRange : Obligations.SpecOkKeepsResultsInRange := by
  unfold Obligations.SpecOkKeepsResultsInRange
  refine ⟨fun C hC => ?block, ⟨by decide, rfl⟩, fun q s => exec_decode q s⟩
  have hpw : 17 ≤ C.PW := by simp only [Config.admits, Bool.and_eq_true, decide_eq_true_eq] at hC; exact hC.1
  refine ⟨fun S => ⟨S.scalarOk_iff, S.bitfieldOk_iff⟩, fun S => S.ok_iff, ?scalarRange, ?subRange, fun r fail =>
    ⟨?nop, ?rdst, ?clrf, ?reserved, ?badSpec, ?enc, ?dec, ?bfi, ?bfx, ?dencl, ?dench, ?ddecl, ?ddech⟩⟩
  case scalarRange =>
    intro S v w h
    obtain ⟨-, -, hlo, hhi⟩ := FieldSpec.decodeValue_bounds h w
    exact ⟨hlo, hhi, FieldSpec.quantized_nonneg h v, FieldSpec.quantized_le h (by omega) v⟩
  case subRange =>
    intro F v b h
    obtain ⟨-, -, hlo, hhi⟩ := SubField.decodeByte_bounds h b
    exact ⟨hlo, hhi, (SubField.quantized_bounds h v).2⟩
  case nop => exact Block.run_nop fail
  case rdst =>
    intro hop
    rw [Block.run_rdst fail hop, Block.rdst, statusOf_phys (by omega)]
    rfl
  case clrf =>
    intro hop
    rw [Block.run_clrf fail hop, Block.clrf, statusOf_phys (by omega)]
    rfl
  case reserved => exact Block.run_reserved fail
  case badSpec =>
    intro h
    refine Block.run_badSpec fail (h.imp ?_ (Or.imp ?_ ?_))
    · exact And.imp_right Descriptor.forScalar_eq_none
    · exact And.imp_right Descriptor.forBitfield_eq_none
    · exact And.imp_right Descriptor.forDual_eq_none
  case enc =>
    intro S hS h hop
    rw [Block.run_enc fail hop, hS, Block.enc_of_ok _ _ _ _ h]
    refine ⟨_, rfl, fun i hi => ?_⟩
    rw [S.getLsbD_encodeWord _ _ hi, getLsbD_takenWord, FieldSpec.quantized_eq_quotient h]
  case dec =>
    intro S hS h hop
    obtain ⟨-, -, hlo, hhi⟩ := FieldSpec.decodeValue_bounds h r.wordIn
    rw [Block.run_dec fail hop, hS, Block.dec_of_ok _ _ _ h]
    refine ⟨_, rfl, ?_⟩
    rw [toInt_decoded, toInt_ofInt_phys (by omega) hlo hhi, FieldSpec.decodeValue, S.fieldOf_eq]
  case bfi =>
    intro S hS h hop
    obtain ⟨hplace, -⟩ := FieldSpec.of_bitfieldOk h
    rw [Block.run_bfi fail hop, hS, Block.bfi_of_ok _ _ _ _ h]
    refine ⟨_, rfl, fun i hi => ?_⟩
    rw [S.getLsbD_insertWord (by omega) hplace _ _ hi, getLsbD_takenWord]
  case bfx =>
    intro S hS h hop
    obtain ⟨hplace, -⟩ := FieldSpec.of_bitfieldOk h
    rw [Block.run_bfx fail hop, hS, Block.bfx_of_ok _ _ _ h]
    refine ⟨_, rfl, ?_⟩
    rw [toInt_decoded, S.toInt_ofNat_fieldOf hpw hplace, S.fieldOf_eq]
  case dencl =>
    intro S hS h hop
    obtain ⟨h0, -⟩ := DualSpec.of_ok h
    rw [Block.run_dencl fail hop, hS, Block.dencl_of_ok _ _ _ _ h]
    refine ⟨_, rfl, fun i hi => ?_⟩
    rw [SubField.getLsbD_encodeLow h0 _ _ hi, getLsbD_takenWord, SubField.quantized_eq_quotient h0]
  case dench =>
    intro S hS h hop
    obtain ⟨-, h1⟩ := DualSpec.of_ok h
    rw [Block.run_dench fail hop, hS, Block.dench_of_ok _ _ _ _ h]
    refine ⟨_, rfl, fun i hi => ?_⟩
    rw [SubField.getLsbD_encodeHigh h1 _ _ hi, getLsbD_takenWord, SubField.quantized_eq_quotient h1]
  case ddecl =>
    intro S hS h hop
    obtain ⟨h0, -⟩ := DualSpec.of_ok h
    obtain ⟨-, -, hlo, hhi⟩ := SubField.decodeByte_bounds h0 (lowByte r.wordIn)
    rw [Block.run_ddecl fail hop, hS, Block.ddecl_of_ok _ _ _ h]
    refine ⟨_, rfl, ?_⟩
    rw [toInt_decoded, toInt_ofInt_phys (by omega) hlo hhi, SubField.decodeByte, BitVec.toNat_and, toNat_lowByte]
  case ddech =>
    intro S hS h hop
    obtain ⟨-, h1⟩ := DualSpec.of_ok h
    obtain ⟨-, -, hlo, hhi⟩ := SubField.decodeByte_bounds h1 (highByte r.wordIn)
    rw [Block.run_ddech fail hop, hS, Block.ddech_of_ok _ _ _ h]
    refine ⟨_, rfl, ?_⟩
    rw [toInt_decoded, toInt_ofInt_phys (by omega) hlo hhi, SubField.decodeByte, BitVec.toNat_and, toNat_highByte]

end Sys2Proof.Machine
end

section
/-!
SUPPORT. An instruction as the block's effect on the flag and the response port (rules R15, R16 and R24 of
spec/10_state.md): everything `exec` does, and what one input does to the flag, once each.
-/

namespace Sys2Proof.Machine

open Sys2Proof

/-! ## The effect of an instruction -/

/-- The response of an acceptance does not depend on the flag (rules R15 and R112). -/
theorem accept_rsp_eq {C : Config.Params} {α : Type} (spec : Option α) (rdFail : Bool) (w : RegWord) (fail fail' : Bool)
    (body : α → Accepted → PortResponse C) :
    (accept spec rdFail w fail body).rsp = (accept spec rdFail w fail' body).rsp := by
  cases spec with
  | none => rfl
  | some S => simp only [accept_some]

/-- The effect of an instruction on `STATUS.FAIL` and the response port: the block's operation of that name. -/
def effectOf (i : Instr) (fail : Bool) : Effect Config.standard :=
  match i with
  | .nop => Block.nop fail
  | .enc v w S rdFail => Block.enc v w S rdFail fail
  | .dec w S rdFail => Block.dec w S rdFail fail
  | .bfi v w S rdFail => Block.bfi v w S rdFail fail
  | .bfx w S rdFail => Block.bfx w S rdFail fail
  | .dencl v w S rdFail => Block.dencl v w S rdFail fail
  | .dench v w S rdFail => Block.dench v w S rdFail fail
  | .ddecl w S rdFail => Block.ddecl w S rdFail fail
  | .ddech w S rdFail => Block.ddech w S rdFail fail
  | .rdst => Block.rdst fail
  | .clrf => Block.clrf fail
  | .reservedB => rejectOp fail
  | .reservedCF _ => rejectOp fail

/-- An instruction completes in every state, and what it does to the machine is its effect (rules R15 and R113). -/
theorem exec_eq_settle (i : Instr) (s : State) : exec i s = .next (s.settle (effectOf i s.fail)) := by
  cases i <;> rfl

/-- The flag by rule R24, as a choice on `CLRF`. -/
theorem failAfter_eq_ite (i : Instr) (fail : Bool) :
    failAfter i fail = if i = .clrf then false else fail || (i.specOk && i.readFailed) := by
  by_cases h : i = .clrf <;> simp [failAfter, h]

/-- `STATUS.FAIL` after an instruction follows rule R24. -/
@[simp] theorem effectOf_fail (i : Instr) (fail : Bool) : (effectOf i fail).fail = failAfter i fail := by
  rw [failAfter_eq_ite]
  cases i with
  | nop | rdst | reservedB | reservedCF => exact (Bool.or_false fail).symm
  | clrf => rfl
  | enc | dec | bfi | bfx | dencl | dench | ddecl | ddech => exact accept_fail ..

/-- The response of an instruction is legal (rules R40, R107 and R110). -/
theorem effectOf_rsp_wf (i : Instr) (fail : Bool) : (effectOf i fail).rsp.wf = true := by
  cases i with
  | nop | rdst | clrf => exact PortResponse.success_zero_wf _
  | reservedB | reservedCF => exact PortResponse.failed_wf (by decide)
  | enc | bfi | dencl | dench => exact accept_wf _ _ _ _ _ fun _ a => a.encoded_wf _
  | dec | bfx | ddecl | ddech => exact accept_wf _ _ _ _ _ fun _ a => a.decoded_wf _

/-- Only `RDST` and `CLRF` answer by the flag (rules R15 and R24). -/
theorem effectOf_rsp_eq {i : Instr} {fail fail' : Bool} (h : i = .rdst ∨ i = .clrf → fail = fail') :
    (effectOf i fail).rsp = (effectOf i fail').rsp := by
  cases i with
  | rdst => rw [h (.inl rfl)]
  | clrf => rw [h (.inr rfl)]
  | nop | reservedB | reservedCF => rfl
  | enc | dec | bfi | bfx | dencl | dench | ddecl | ddech => exact accept_rsp_eq ..

/-- Everything an instruction does to the flag (rule R24). -/
theorem exec_fail {i : Instr} {s u : State} (h : exec i s = .next u) : u.fail = failAfter i s.fail := by
  rw [exec_eq_settle] at h
  cases h
  exact effectOf_fail i s.fail

/-! ## The flag over one input -/

/-- `CLRF` alone clears a flag that is set (rule R24). -/
theorem eq_clrf_of_failAfter {i : Instr} (h : failAfter i true = false) : i = .clrf := by
  simpa [failAfter] using h

/-- An accepted failed read alone sets a flag that is clear (rules R24 and R109). -/
theorem accepted_of_failAfter {i : Instr} (h : failAfter i false = true) : i.specOk = true ∧ i.readFailed = true := by
  simp only [failAfter, Bool.false_or, Bool.and_eq_true] at h
  exact h.2

/-- Delivering a response leaves the flag alone. -/
@[simp] theorem State.deliver_fail (s : State) (k : Nat) (t : Thread) (j : Job) : (s.deliver k t j).fail = s.fail := by
  unfold State.deliver
  split <;> rfl

/-- A thread that has no sequence takes no step. -/
theorem threadStep_of_jobOf_none {s : State} {k : Nat} (h : s.jobOf k = none) (busFail whole : Bool) :
    threadStep k busFail whole s = .next s := by
  simp [threadStep, h]

/-- Which instruction an input runs does not depend on the inputs after it. -/
theorem Event.instr?_inputs (e : Event) (s : State) (rest : List Event) :
    e.instr? { s with inputs := rest } = e.instr? s := by
  cases e <;> rfl

/-- The instruction that a thread runs is the request of the sequence it is in. -/
theorem Event.instr?_thread {s : State} {k : Nat} {t : Thread} {j : Job} (h : s.jobOf k = some (t, j))
    (busFail whole : Bool) : (Event.thread k busFail whole).instr? s = j.request? := by
  simp [Event.instr?, h]

/-- Everything an input can do to the flag: a reset clears it, a request changes it by rule R24, and nothing else
touches it (rules R17, R23 and R24). -/
theorem react_fail {e : Event} {s t : State} (h : react e s = .next t) :
    (e = .reset ∧ t.fail = false) ∨ (∃ i, e.instr? s = some i ∧ t.fail = failAfter i s.fail) ∨ t.fail = s.fail := by
  cases e with
  | request r => exact .inr (.inl ⟨decode r, rfl, exec_fail h⟩)
  | reset => cases h; exact .inl ⟨rfl, rfl⟩
  | agentWrite addr b => cases h; exact .inr (.inr rfl)
  | thread k busFail whole =>
    simp only [react] at h
    cases hj : s.jobOf k with
    | none =>
      rw [threadStep_of_jobOf_none hj] at h
      cases h
      exact .inr (.inr rfl)
    | some tj =>
      obtain ⟨th, j⟩ := tj
      rw [threadStep_of_jobOf hj] at h
      obtain ⟨i, u, hi, hu, rfl⟩ | ⟨-, -, rfl⟩ := jobStep_cases h
      · exact .inr (.inl ⟨i, (Event.instr?_thread hj ..).trans hi, (u.deliver_fail k th j).trans (exec_fail hu)⟩)
      · exact .inr (.inr rfl)

end Sys2Proof.Machine
end

section
/-! PROOF. Reset, the step, the flag and the frame of the instructions (rules R13 to R24 of spec/10_state.md). -/

namespace Sys2Proof.Machine

open Sys2Proof

/-- Settles O29: every instruction settles one effect, whose flag follows rule R24 and whose response is legal. -/
theorem instructionChangesFlagAndResponseOnly : Obligations.InstructionChangesFlagAndResponseOnly := by
  unfold Obligations.InstructionChangesFlagAndResponseOnly
  intro i s
  refine ⟨_, effectOf_rsp_wf i s.fail, ?_⟩
  rw [exec_eq_settle, ← failAfter_eq_ite, ← effectOf_fail]
  rfl

/-- Settles O31: a step that changes the flag takes an input, which is a reset or a request that rule R24 lets change
it. -/
theorem flagChangesOnlyByClearResetOrAcceptedFailedRead :
    Obligations.FlagChangesOnlyByClearResetOrAcceptedFailedRead := by
  unfold Obligations.FlagChangesOnlyByClearResetOrAcceptedFailedRead
  intro s t h
  obtain ⟨-, rfl⟩ | ⟨e, rest, hin, hr⟩ := step_cases h
  · exact ⟨fun hs ht => by simp [hs] at ht, fun hs ht => by simp [hs] at ht⟩
  have hflag := react_fail hr
  rw [Event.instr?_inputs] at hflag
  refine ⟨fun hs ht => ⟨e, rest, hin, ?falls⟩, fun hs ht => ?rises⟩ <;> rw [hs, ht] at hflag
  case falls =>
    obtain ⟨he, -⟩ | ⟨i, hi, hf⟩ | hf := hflag
    · exact .inl he
    · exact .inr (hi.trans (congrArg some (eq_clrf_of_failAfter hf.symm)))
    · cases hf
  case rises =>
    obtain ⟨-, hf⟩ | ⟨i, hi, hf⟩ | hf := hflag
    · cases hf
    · exact ⟨e, rest, i, hin, hi, accepted_of_failAfter hf.symm⟩
    · cases hf

/-- Settles O33: both states settle the instruction's effect, whose response only `RDST` and `CLRF` take from the
flag. -/
theorem responseDependsOnTheRequestAlone : Obligations.ResponseDependsOnTheRequestAlone := by
  unfold Obligations.ResponseDependsOnTheRequestAlone
  intro i s s' h
  refine ⟨_, _, _, exec_eq_settle i s, exec_eq_settle i s', rfl, ?rsp, ?flag⟩
  case rsp => rw [State.settle_rsp, effectOf_rsp_eq h]
  case flag => intro hf; rw [State.settle_fail, State.settle_fail, hf]

/-- Settles O9: a reset step leaves `State.resetBlock`, which has the flag and the port of `State.reset`. -/
theorem resetClearsStatus : Obligations.ResetClearsStatus := by
  unfold Obligations.ResetClearsStatus
  refine ⟨rfl, rfl, rfl, rfl, fun s rest h => ⟨_, step_cons h, ?_⟩⟩
  simp

/-- Settles O11: nothing is listed in memory and nothing stands on the response port. -/
theorem invariantHoldsAfterReset : Obligations.InvariantHoldsAfterReset := by
  unfold Obligations.InvariantHoldsAfterReset
  rw [State.Inv, State.reset_mem_wf]
  rfl

/-- Settles O14: a step reacts to the first input, here the request. -/
theorem stepRunsThePresentedRequest : Obligations.StepRunsThePresentedRequest := by
  unfold Obligations.StepRunsThePresentedRequest
  intro s r rest h
  exact step_cons h

/-- Settles O15: the thread's sequence makes its request, whose response stands on the port. -/
theorem stepRunsTheRequestOfAThread : Obligations.StepRunsTheRequestOfAThread := by
  unfold Obligations.StepRunsTheRequestOfAThread
  intro s k b w rest th j js i hin hth hjobs hreq
  have hexec := exec_eq_settle i { s with inputs := rest }
  have hjob : State.jobOf { s with inputs := rest } k = some (th, j) := State.jobOf_of hth hjobs
  refine ⟨_, _, hexec, rfl, ?_⟩
  calc step s = threadStep k b w { s with inputs := rest } := step_cons hin
    _ = jobStep k th j b w { s with inputs := rest } := threadStep_of_jobOf hjob b w
    _ = _ := jobStep_request b w hreq hexec rfl

end Sys2Proof.Machine
end

section
/-!
SUPPORT and PROOF. What every step keeps: the invariant of the memory and the response port, and the host's duty of
rule R35. Each is a lemma about the machine's reaction to one input.
-/

namespace Sys2Proof.Machine

open Sys2Proof

/-! ## Delivering a response -/

@[simp] theorem State.deliver_mem (s : State) (k : Nat) (t : Thread) (j : Job) : (s.deliver k t j).mem = s.mem := by
  unfold State.deliver
  split <;> rfl

@[simp] theorem State.deliver_rsp (s : State) (k : Nat) (t : Thread) (j : Job) : (s.deliver k t j).rsp = s.rsp := by
  unfold State.deliver
  split <;> rfl

/-! ## The invariant -/

theorem State.inv_iff (s : State) :
    s.Inv = true ↔ s.mem.wf = true ∧ s.rsp.all PortResponse.wf = true := by
  simp only [State.Inv, Bool.and_eq_true]

/-- An instruction stores nothing, and its response is legal. -/
theorem exec_inv {i : Instr} {s u : State} (hs : s.Inv = true) (h : exec i s = .next u) : u.Inv = true := by
  obtain ⟨hmem, -⟩ := s.inv_iff.mp hs
  rw [exec_eq_settle] at h
  cases h
  exact (State.inv_iff _).mpr ⟨hmem, effectOf_rsp_wf i s.fail⟩

/-- Every reaction to an input keeps the invariant. -/
theorem react_inv {e : Event} {s t : State} (hs : s.Inv = true) (h : react e s = .next t) : t.Inv = true := by
  obtain ⟨hmem, hrsp⟩ := s.inv_iff.mp hs
  cases e with
  | request r => exact exec_inv hs h
  | reset => cases h; exact (State.inv_iff _).mpr ⟨hmem, rfl⟩
  | agentWrite addr b => cases h; exact (State.inv_iff _).mpr ⟨Memory.wf_writeByte _ addr b hmem, hrsp⟩
  | thread k busFail whole =>
    simp only [react] at h
    cases hj : s.jobOf k with
    | none => rw [threadStep_of_jobOf_none hj] at h; cases h; exact hs
    | some tj =>
      obtain ⟨th, j⟩ := tj
      rw [threadStep_of_jobOf hj] at h
      obtain ⟨i, u, -, hu, rfl⟩ | ⟨-, -, rfl⟩ := jobStep_cases h
      · have hinv := (State.inv_iff u).mp (exec_inv hs hu)
        rw [State.inv_iff, State.deliver_mem, State.deliver_rsp]
        exact hinv
      · exact (State.inv_iff _).mpr ⟨j.wf_busMove _ _ _ hmem, hrsp⟩

/-- Settles O12: a step waits or reacts to an input, and every reaction keeps the invariant. -/
theorem everyStepKeepsTheInvariant : Obligations.EveryStepKeepsTheInvariant := by
  unfold Obligations.EveryStepKeepsTheInvariant
  intro s t hs h
  obtain ⟨-, rfl⟩ | ⟨e, rest, -, hr⟩ := step_cases h
  · exact hs
  · exact react_inv (s := { s with inputs := rest }) hs hr

/-! ## No two-byte access at 0xFF (rule R35) -/

/-- Whether what is left of a sequence makes a two-byte access at 0xFF. -/
def Progress.offEnd : Progress → Bool
  | .more j => j.offEnd
  | .finished _ => false

theorem Thread.contained_iff (t : Thread) : t.contained = true ↔ ∀ j ∈ t.jobs, j.offEnd = false := by
  simp [Thread.contained]

theorem State.contained_iff (s : State) : s.contained = true ↔ ∀ t ∈ s.threads, t.contained = true := by
  simp [State.contained]

/-- A response leads a sequence to no other address. -/
theorem Job.offEnd_answer {j : Job} (h : j.offEnd = false) (r : Response) : (j.answer r).offEnd = false := by
  cases j with
  | get a n S p =>
    cases p with
    | start | secondByte => exact h
    | request => rfl
  | set a n S v p =>
    cases p with
    | request st w =>
      simp only [Job.answer]
      split
      · rfl
      · exact h
    | _ => exact h
  | adcget S sel v0 v1 p => cases p <;> rfl
  | qnt v S p => cases p <;> rfl
  | memRead | memWrite1 | memWrite2 => exact h
  | encz | bset | bclr | issue => rfl

/-- A write goes on only with its second byte. -/
theorem offEnd_afterWrite (mv : WriteMove) {second : Byte → Job} (h : ∀ b1, (second b1).offEnd = false) :
    (afterWrite mv second).2.offEnd = false := by
  cases mv with
  | finished => rfl
  | firstByte m b1 => exact h b1

/-- A bus step leads a sequence to no other address. -/
theorem Job.offEnd_busMove {j : Job} (h : j.offEnd = false) (m : Memory) (busFail whole : Bool) :
    (j.busMove m busFail whole).2.offEnd = false := by
  cases j with
  | get a n S p =>
    cases p with
    | start => simp only [Job.busMove]; split <;> exact h
    | secondByte | request => exact h
  | set a n S v p =>
    cases p with
    | start => simp only [Job.busMove]; split <;> exact h
    | secondByte | request => exact h
    | write w => exact offEnd_afterWrite _ fun _ => h
    | writeSecond b1 => rfl
  | memRead addr n p =>
    cases p with
    | start =>
      simp only [Job.busMove]
      split
      · rfl
      · exact h
    | secondByte b0 => rfl
  | memWrite1 addr b0 => exact offEnd_afterWrite _ fun _ => h
  | memWrite2 addr b0 b1 p =>
    cases p with
    | start => exact offEnd_afterWrite _ fun _ => h
    | secondByte => rfl
  | adcget | encz | qnt | bset | bclr | issue => exact h

theorem Thread.contained_advance {t : Thread} {p : Progress} (ht : t.contained = true) (hp : p.offEnd = false) :
    (t.advance p).contained = true := by
  rw [Thread.contained_iff] at ht ⊢
  have htail : ∀ j ∈ t.jobs.tail, j.offEnd = false := fun j hj => ht j (List.mem_of_mem_tail hj)
  cases p with
  | more j => exact List.forall_mem_cons.mpr ⟨hp, htail⟩
  | finished r => exact htail

theorem State.contained_setThread {s : State} {t : Thread} (hs : s.contained = true) (ht : t.contained = true)
    (k : Nat) : (s.setThread k t).contained = true := by
  rw [State.contained_iff] at hs ⊢
  intro t' h'
  rcases List.mem_or_eq_of_mem_set h' with hmem | rfl
  · exact hs t' hmem
  · exact ht

/-- A step of a contained sequence answers a contained state (rules R35 and R113). -/
theorem jobStep_contained {k : Nat} {t : Thread} {j : Job} {s : State} (busFail whole : Bool)
    (hs : s.contained = true) (ht : t.contained = true) (hj : j.offEnd = false) :
    ∃ u, jobStep k t j busFail whole s = .next u ∧ u.contained = true := by
  cases hreq : j.request? with
  | some i =>
    exact ⟨_, jobStep_request busFail whole hreq (exec_eq_settle i s) rfl,
      State.contained_setThread (s := s.settle _) hs (Thread.contained_advance ht (Job.offEnd_answer hj _)) k⟩
  | none =>
    exact ⟨_, jobStep_bus busFail whole hreq hj,
      State.contained_setThread hs (Thread.contained_advance ht (Job.offEnd_busMove hj s.mem busFail whole)) k⟩

/-- Every input finds an answer in a contained state, and the answer is contained. -/
theorem react_contained (e : Event) {s : State} (hs : s.contained = true) :
    ∃ t, react e s = .next t ∧ t.contained = true := by
  cases e with
  | request r => exact ⟨_, exec_eq_settle (decode r) s, hs⟩
  | reset => exact ⟨_, rfl, hs⟩
  | agentWrite addr b => exact ⟨_, rfl, hs⟩
  | thread k busFail whole =>
    simp only [react]
    cases hj : s.jobOf k with
    | none => exact ⟨s, threadStep_of_jobOf_none hj busFail whole, hs⟩
    | some tj =>
      obtain ⟨th, j⟩ := tj
      obtain ⟨hth, js, hjobs⟩ := State.jobOf_eq_some hj
      have hcont : th.contained = true := s.contained_iff.mp hs th (List.mem_of_getElem? hth)
      have hfirst : j.offEnd = false := th.contained_iff.mp hcont j (by simp [hjobs])
      rw [threadStep_of_jobOf hj]
      exact jobStep_contained busFail whole hs hcont hfirst

/-- Settles O13: a step waits or reacts to an input, and a contained state answers every input with a contained one. -/
theorem containedHostNeverStopsTheMachine : Obligations.ContainedHostNeverStopsTheMachine := by
  unfold Obligations.ContainedHostNeverStopsTheMachine
  intro s hs
  cases hin : s.inputs with
  | nil => exact ⟨s, step_nil hin, hs⟩
  | cons e rest =>
    obtain ⟨t, ht, hc⟩ := react_contained e (s := { s with inputs := rest }) hs
    exact ⟨t, (step_cons hin).trans ht, hc⟩

end Sys2Proof.Machine
end

section
/-!
SUPPORT. The bytes that a store leaves, one step of a thread as a step of the machine, and an undisturbed bus transfer
as a run (rules R28, R29, R36 and R130).
-/

namespace Sys2Proof.Machine

open Sys2Proof

/-! ## The bytes that a store leaves -/

/-- Everything a store does to the bytes that can be read. -/
theorem Memory.readByte_writeByte (m : Memory) (addr b a : Byte) :
    (m.writeByte addr b).readByte a = if a = addr then b else m.readByte a := by
  split
  · next h => rw [h, Memory.readByte_writeByte_same]
  · next h => exact Memory.readByte_writeByte_other m b h

/-- Two bytes stored one after the other. -/
theorem readByte_storeTwo (m : Memory) (addr b0 b1 a : Byte) :
    ((m.writeByte addr b0).writeByte (addr + 1) b1).readByte a =
      if a = addr then b0 else if a = addr + 1 then b1 else m.readByte a := by
  simp only [Memory.readByte_writeByte]
  by_cases h : a = addr
  · simp [h]
  · simp [h]

/-- The bytes after a write of a register of one or two bytes that did not fail (rules R29 and R34). -/
theorem readByte_storeBytes_word (m : Memory) (addr : Byte) (w : RegWord) (n : NBytes) (a : Byte) :
    (storeBytes m addr (bytesOfWord w n)).readByte a =
      if a = addr then lowByte w else if n = .two ∧ a = addr + 1 then highByte w else m.readByte a := by
  cases n with
  | one => simpa [storeBytes, bytesOfWord] using Memory.readByte_writeByte m addr (lowByte w) a
  | two => simpa [storeBytes, bytesOfWord] using readByte_storeTwo m addr (lowByte w) (highByte w) a

/-! ## A step of the machine that is a step of a thread -/

section ThreadStep

variable {s : State} {k : Nat} {busFail whole : Bool} {rest : List Event} {th : Thread} {j : Job} {js : List Job}
  (hin : s.inputs = .thread k busFail whole :: rest) (hth : s.threads[k]? = some th) (hjobs : th.jobs = j :: js)
include hin hth hjobs

/-- The machine steps as the first sequence of the thread does. -/
theorem step_thread : step s = jobStep k th j busFail whole { s with inputs := rest } :=
  have hjob : State.jobOf { s with inputs := rest } k = some (th, j) := State.jobOf_of hth hjobs
  (step_cons hin).trans (threadStep_of_jobOf hjob busFail whole)

/-- The sequence's request runs, and its response stands on the port and goes to the thread. -/
theorem step_request {i : Instr} (hreq : j.request? = some i) :
    step s = .next { s with
      fail := (effectOf i s.fail).fail, rsp := some (effectOf i s.fail).rsp, inputs := rest,
      threads := s.threads.set k (th.advance (j.answer (effectOf i s.fail).rsp)) } :=
  (step_thread hin hth hjobs).trans (jobStep_request busFail whole hreq (exec_eq_settle i _) rfl)

/-- The sequence's bus step happens. -/
theorem step_bus (hreq : j.request? = none) (hoff : j.offEnd = false) :
    step s = .next { s with
      mem := (j.busMove s.mem busFail whole).1, inputs := rest,
      threads := s.threads.set k (th.advance (j.busMove s.mem busFail whole).2) } :=
  (step_thread hin hth hjobs).trans (jobStep_bus busFail whole hreq hoff)

/-- A bus step off the end is refused (rule R35). -/
theorem step_refused (hreq : j.request? = none) (hoff : j.offEnd = true) : step s = .refused .wordAtLastAddress := by
  rw [step_thread hin hth hjobs, jobStep, hreq]
  exact if_pos hoff

end ThreadStep

/-- Advancing twice replaces the first sequence once. -/
@[simp] theorem Thread.advance_more_advance (t : Thread) (j : Job) (p : Progress) :
    (t.advance (.more j)).advance p = t.advance p := by
  cases p <;> rfl

/-- A finished sequence leaves the list of its thread. -/
theorem Thread.advance_finished {t : Thread} {j : Job} {js : List Job} (h : t.jobs = j :: js) (r : Result) :
    t.advance (.finished r) = { jobs := js, done := r :: t.done } := by
  simp [Thread.advance, h]

/-- A sequence that goes on takes its own place in the list of its thread. -/
theorem Thread.advance_more {t : Thread} {j : Job} {js : List Job} (h : t.jobs = j :: js) (j' : Job) :
    t.advance (.more j') = { jobs := j' :: js, done := t.done } := by
  simp [Thread.advance, h]

/-- A thread that is there is the one put in its place. -/
theorem getElem?_set_thread {threads : List Thread} {k : Nat} {th : Thread} (h : threads[k]? = some th) (t : Thread) :
    (threads.set k t)[k]? = some t := by
  simp [List.getElem?_set_self', h]

/-! ## Runs -/

/-- A run that goes on from where another one ended. -/
theorem run_add {m n : Nat} {s t : State} (h : Sys2Proof.core.run m s = .next t) :
    Sys2Proof.core.run (m + n) s = Sys2Proof.core.run n t := by
  induction m generalizing s with
  | zero => cases h; rw [Nat.zero_add]
  | succ m ih =>
    cases hs : step s with
    | next u =>
      rw [run_of_step hs] at h
      rw [Nat.add_right_comm, run_of_step hs, ih h]
    | fault r => cases r
    | refused r =>
      have hs' : Sys2Proof.core.step s = .refused r := hs
      simp only [Host.Core.run, hs'] at h
      cases h

/-- A run of one step. -/
theorem run_one {s t : State} (h : step s = .next t) : Sys2Proof.core.run 1 s = .next t :=
  (run_of_step h).trans (run_zero t)

/-! ## An undisturbed transfer -/

/-- The next steps of the sequence `j` are a transfer of `n` bytes, which leaves `out busFail`: in one step, or in two
if it does not fail and its bytes travel apart (rules R36 and R130). -/
structure Job.Transfers (j : Job) (n : NBytes) (m : Memory) (out : Bool → Memory × Progress) : Prop where
  request : j.request? = none
  offEnd : j.offEnd = false
  whole : ∀ busFail whole, (n = .two → busFail = false → whole = true) → j.busMove m busFail whole = out busFail
  apart : n = .two → ∃ j' m', j'.request? = none ∧ j'.offEnd = false ∧ j.busMove m false false = (m', .more j') ∧
    ∀ busFail whole, j'.busMove m' busFail whole = out false

/-- The thread steps of an undisturbed transfer run to its outcome, however its bytes travel. -/
theorem run_transfer {s : State} {k : Nat} {n : NBytes} {busFail : Bool} {evs rest : List Event} {th : Thread} {j : Job}
    {js : List Job} {out : Bool → Memory × Progress} {m : Memory} {p : Progress}
    (hevs : Claims.transfer k n busFail evs) (hin : s.inputs = evs ++ rest) (hth : s.threads[k]? = some th)
    (hjobs : th.jobs = j :: js) (hj : j.Transfers n s.mem out) (hout : out busFail = (m, p)) :
    Sys2Proof.core.run evs.length s = .next { s with
      mem := m, inputs := rest, threads := s.threads.set k (th.advance p) } := by
  obtain ⟨whole, rfl, hwhole⟩ | ⟨hn, rfl, b, w, rfl⟩ := hevs
  · have hstep := step_bus hin hth hjobs hj.request hj.offEnd
    rw [hj.whole busFail whole hwhole, hout] at hstep
    exact run_one hstep
  · obtain ⟨j', m', hreq, hoff, hfirst, hsecond⟩ := hj.apart hn
    have hstep := step_bus hin hth hjobs hj.request hj.offEnd
    rw [hfirst] at hstep
    have hstep' := step_bus (s := { s with
      mem := m', inputs := .thread k b w :: rest, threads := s.threads.set k (th.advance (.more j')) })
      rfl (getElem?_set_thread hth _) rfl hreq hoff
    simp only [hsecond, hout, Thread.advance_more_advance, List.set_set] at hstep'
    exact (run_of_step hstep).trans (run_one hstep')

/-- An undisturbed transfer that stores nothing and leads to a request, with the request. -/
theorem run_transfer_request {s : State} {k : Nat} {n : NBytes} {busFail b w : Bool} {evs rest : List Event}
    {th : Thread} {j j' : Job} {js : List Job} {i : Instr} {out : Bool → Memory × Progress}
    (hevs : Claims.transfer k n busFail evs) (hin : s.inputs = evs ++ .thread k b w :: rest)
    (hth : s.threads[k]? = some th) (hjobs : th.jobs = j :: js) (hj : j.Transfers n s.mem out)
    (hout : out busFail = (s.mem, .more j')) (hreq : j'.request? = some i) :
    Sys2Proof.core.run (evs.length + 1) s = .next { s with
      fail := (effectOf i s.fail).fail, rsp := some (effectOf i s.fail).rsp, inputs := rest,
      threads := s.threads.set k (th.advance (j'.answer (effectOf i s.fail).rsp)) } := by
  have hread := run_transfer hevs hin hth hjobs hj hout
  have hstep := step_request (s := { s with
    inputs := .thread k b w :: rest, threads := s.threads.set k (th.advance (.more j')) })
    rfl (getElem?_set_thread hth _) rfl hreq
  simp only [Thread.advance_more_advance, List.set_set] at hstep
  exact (run_add hread).trans (run_one hstep)

/-! ## The transfers of the sequences -/

/-- A transfer of two bytes that is not at 0xFF is not off the end. -/
theorem offEnd_eq_false {addr : Byte} {n : NBytes} (h : n = .two → addr ≠ 0xFF) : offEnd addr n = false := by
  cases n with
  | one => rfl
  | two => simpa [offEnd] using h rfl

/-- The status of a read is that of the bus (rule R28). -/
@[simp] theorem memRead_fst (m : Memory) (addr : Byte) (n : NBytes) (busFail : Bool) :
    (memRead m addr n busFail).1 = busFail := by
  cases n <;> cases busFail <;> rfl

/-- The status of a write is that of the bus (rule R29). -/
@[simp] theorem memWrite_fst (m : Memory) (addr : Byte) (bs : List Byte) (busFail : Bool) :
    (memWrite m addr bs busFail).1 = busFail := by
  cases busFail <;> rfl

/-- The word of the bytes that a read returns (rules R27, R28 and R34). -/
theorem wordOfBytes_memRead (m : Memory) (addr : Byte) (n : NBytes) (busFail : Bool) :
    wordOfBytes (memRead m addr n busFail).2 = Claims.wordRead m addr n busFail := by
  cases n <;> cases busFail <;> rfl

/-- A read whose bytes do not travel apart takes one step. -/
theorem startRead_whole {m : Memory} {addr : Byte} {n : NBytes} {busFail whole : Bool}
    (h : n = .two → busFail = false → whole = true) :
    startRead m addr n busFail whole = .finished busFail (memRead m addr n busFail).2 := by
  have hwhole : ¬(n == .two && !busFail && !whole) = true := by
    simp only [Bool.and_eq_true, beq_iff_eq, Bool.not_eq_true', not_and]
    rintro ⟨hn, hfail⟩
    simp [h hn hfail]
  rw [startRead, if_neg hwhole, memRead_fst]

/-- A write whose bytes do not travel apart takes one step. -/
theorem startWrite_whole {m : Memory} {addr : Byte} {bs : List Byte} {busFail whole : Bool}
    (h : 2 ≤ bs.length → busFail = false → whole = true) :
    startWrite m addr bs busFail whole = .finished busFail (memWrite m addr bs busFail).2 := by
  match bs with
  | [] | [_] => simp only [startWrite, memWrite_fst]
  | b0 :: b1 :: rest =>
    have hwhole : ¬(!busFail && !whole) = true := by
      cases busFail
      · simp [h (by simp) rfl]
      · simp
    rw [startWrite, if_neg hwhole, memWrite_fst]

/-- What a `GET` reads is the word that its request takes. -/
theorem Job.get_transfers {a : Access} {n : NBytes} {S : Spec} (hS : n = .two → busAddr S ≠ 0xFF) (m : Memory) :
    (Job.get a n S .start).Transfers n m fun busFail =>
      (m, .more (.get a n S (.request busFail (Claims.wordRead m (busAddr S) n busFail)))) where
  request := rfl
  offEnd := offEnd_eq_false hS
  whole busFail whole h := by simp only [Job.busMove, startRead_whole h, wordOfBytes_memRead]
  apart hn := by
    subst hn
    exact ⟨.get a .two S (.secondByte (m.readByte (busAddr S))), m, rfl, offEnd_eq_false hS, rfl, fun _ _ => rfl⟩

/-- What a `SET` reads is the word that its request takes. -/
theorem Job.set_transfers {a : Access} {n : NBytes} {S : Spec} (hS : n = .two → busAddr S ≠ 0xFF) (v : Phys)
    (m : Memory) :
    (Job.set a n S v .start).Transfers n m fun busFail =>
      (m, .more (.set a n S v (.request busFail (Claims.wordRead m (busAddr S) n busFail)))) where
  request := rfl
  offEnd := offEnd_eq_false hS
  whole busFail whole h := by simp only [Job.busMove, startRead_whole h, wordOfBytes_memRead]
  apart hn := by
    subst hn
    exact ⟨.set a .two S v (.secondByte (m.readByte (busAddr S))), m, rfl, offEnd_eq_false hS, rfl, fun _ _ => rfl⟩

/-- The write-back of a `SET`. -/
theorem Job.set_write_transfers {a : Access} {n : NBytes} {S : Spec} (hS : n = .two → busAddr S ≠ 0xFF) (v : Phys)
    (w : RegWord) (m : Memory) :
    (Job.set a n S v (.write w)).Transfers n m fun busFail =>
      ((memWrite m (busAddr S) (bytesOfWord w n) busFail).2, .finished (.status busFail)) where
  request := rfl
  offEnd := offEnd_eq_false hS
  whole busFail whole h := by
    have hlen : 2 ≤ (bytesOfWord w n).length → busFail = false → whole = true := by
      cases n with
      | one => simp [bytesOfWord]
      | two => exact fun _ => h rfl
    simp only [Job.busMove, startWrite_whole hlen, afterWrite]
  apart hn := by
    subst hn
    exact ⟨.set a .two S v (.writeSecond (highByte w)), m.writeByte (busAddr S) (lowByte w), rfl, offEnd_eq_false hS,
      rfl, fun _ _ => rfl⟩

/-- A bare `MemRead` (rule R28). -/
theorem Job.memRead_transfers {addr : Byte} {n : NBytes} (haddr : n = .two → addr ≠ 0xFF) (m : Memory) :
    (Job.memRead addr n .start).Transfers n m fun busFail =>
      (m, .finished (.bytes busFail (Machine.memRead m addr n busFail).2)) where
  request := rfl
  offEnd := offEnd_eq_false haddr
  whole busFail whole h := by simp only [Job.busMove, startRead_whole h]
  apart hn := by
    subst hn
    exact ⟨.memRead addr .two (.secondByte (m.readByte addr)), m, rfl, offEnd_eq_false haddr, rfl, fun _ _ => rfl⟩

/-- A bare `MemWrite` of one byte (rule R29). -/
theorem Job.memWrite1_transfers (addr b0 : Byte) (m : Memory) :
    (Job.memWrite1 addr b0).Transfers .one m fun busFail =>
      ((memWrite m addr [b0] busFail).2, .finished (.status busFail)) where
  request := rfl
  offEnd := rfl
  whole busFail whole _ := by simp only [Job.busMove, startWrite_whole (bs := [b0]) (by simp), afterWrite]
  apart hn := nomatch hn

/-- A bare `MemWrite` of two bytes (rule R29). -/
theorem Job.memWrite2_transfers {addr : Byte} (haddr : addr ≠ 0xFF) (b0 b1 : Byte) (m : Memory) :
    (Job.memWrite2 addr b0 b1 .start).Transfers .two m fun busFail =>
      ((memWrite m addr [b0, b1] busFail).2, .finished (.status busFail)) where
  request := rfl
  offEnd := offEnd_eq_false fun _ => haddr
  whole busFail whole h := by
    simp only [Job.busMove, startWrite_whole (bs := [b0, b1]) fun _ => h rfl, afterWrite]
  apart _ := ⟨.memWrite2 addr b0 b1 .secondByte, m.writeByte addr b0, rfl, offEnd_eq_false fun _ => haddr, rfl,
    fun _ _ => rfl⟩

end Sys2Proof.Machine
end

section
/-!
SUPPORT. The requests of the accessors after a failed read, the frame of a bus step, and the round trip of a scalar
field that `Fits` (rules R25, R29, R64 and R110).
-/

namespace Sys2Proof

variable {pw rw : Nat}

/-- What is encoded into a field that `Fits` is what is read back from it (rule R64). -/
theorem FieldSpec.fieldOf_encodeWord {S : FieldSpec pw rw} (h : S.scalarOk = true) {v : Int}
    (hfit : S.quantized v ≤ S.wm) (w : RegWord) : (S.fieldOf (S.encodeWord v w) : Int) = S.quantized v := by
  obtain ⟨hplace, -⟩ := FieldSpec.of_scalarOk h
  have hwm := S.wm_int
  have hq := FieldSpec.quantized_nonneg h v
  have hlt : (S.quantized v).toNat < 2 ^ S.width.toNat := by
    zify
    omega
  have hbits : S.fieldOf (S.encodeWord v w) = (S.quantized v).toNat := by
    apply Nat.eq_of_testBit_eq
    intro i
    rw [S.testBit_fieldOf]
    by_cases hi : i < S.width.toNat
    · rw [S.getLsbD_encodeWord v w (by omega)]
      simp [hi]
    · rw [Nat.testBit_lt_two_pow (hlt.trans_le (Nat.pow_le_pow_right (by omega) (by omega)))]
      simp [hi]
  omega

/-- The quantized value of a descriptor that `Fits` fits its field (rules R62 and R63). -/
theorem FieldSpec.quantized_le_wm {S : FieldSpec Config.PW Config.RW} (h : S.scalarOk = true) (hfits : Claims.Fits S)
    (v : Int) : S.quantized v ≤ S.wm := by
  obtain ⟨-, hle, hres, -⟩ := FieldSpec.of_scalarOk h
  rw [S.wm_int]
  exact (quantize_le_top hle (by omega)).trans hfits

/-- Decoding what was encoded gives `Q(v)` if the descriptor `Fits` (rule R64). -/
theorem FieldSpec.decodeValue_encodeWord {S : FieldSpec Config.PW Config.RW} (h : S.scalarOk = true)
    (hfits : Claims.Fits S) (v : Int) (w : RegWord) : S.decodeValue (S.encodeWord v w) = Claims.Q v S := by
  rw [FieldSpec.decodeValue, FieldSpec.fieldOf_encodeWord h (FieldSpec.quantized_le_wm h hfits v),
    FieldSpec.quantized_eq_quotient h, add_comm]
  rfl

end Sys2Proof

namespace Sys2Proof.Machine

open Sys2Proof

/-! ## The requests of the accessors -/

/-- After a failed read an operation answers `BAD_SPEC` or its own response to a failed read (rules R110 to R112). -/
theorem accept_rsp_of_readFailed {C : Config.Params} {α : Type} {P : PortResponse C → Prop} {spec : Option α}
    {w : RegWord} {fail : Bool} {body : α → Accepted → PortResponse C} (hbad : P (PortResponse.failed .badSpec))
    (hbody : ∀ S, P (body S ⟨true, 0⟩)) : P (accept spec true w fail body).rsp := by
  cases spec with
  | none => exact hbad
  | some S => exact hbody S

/-- After a failed read every encode fails (rule R110). -/
theorem encode_readFailed (a : Access) (v : Phys) (w : RegWord) (S : Spec) (fail : Bool) :
    (effectOf (a.encodeInstr v w S true) fail).rsp.status = true := by
  cases a <;> exact accept_rsp_of_readFailed (P := fun r => r.status = true) rfl fun _ => rfl

/-- After a failed read every decode fails with value 0 (rule R110). -/
theorem decode_readFailed (a : Access) (w : RegWord) (S : Spec) (fail : Bool) :
    (effectOf (a.decodeInstr w S true) fail).rsp.physOut = 0 ∧
      (effectOf (a.decodeInstr w S true) fail).rsp.status = true := by
  cases a <;>
    exact accept_rsp_of_readFailed (P := fun r => r.physOut = 0 ∧ r.status = true) ⟨rfl, rfl⟩ fun _ => ⟨rfl, rfl⟩

/-- An accepted decode after a failed read sets `FAIL` (rule R109), whatever the word. -/
theorem failAfter_decode_readFailed {a : Access} {w w' : RegWord} {S : Spec}
    (h : (a.decodeInstr w S true).specOk = true) (fail : Bool) : failAfter (a.decodeInstr w' S true) fail = true := by
  cases a <;> simpa [failAfter, Access.decodeInstr, Instr.readFailed, Instr.specOk] using .inr h

/-! ## The frame of a bus step -/

/-- Starting a write of one byte changes only the addresses it is said to store to. -/
theorem readByte_startWrite_one {m : Memory} {addr b0 a : Byte} {busFail whole : Bool}
    (h : a ∉ startWriteAddrs addr .one busFail whole) :
    (startWrite m addr [b0] busFail whole).mem.readByte a = m.readByte a := by
  cases busFail with
  | true => rfl
  | false => exact Memory.readByte_writeByte_other m b0 (by simpa [startWriteAddrs] using h)

/-- Starting a write of two bytes changes only the addresses it is said to store to. -/
theorem readByte_startWrite_two {m : Memory} {addr b0 b1 a : Byte} {busFail whole : Bool}
    (h : a ∉ startWriteAddrs addr .two busFail whole) :
    (startWrite m addr [b0, b1] busFail whole).mem.readByte a = m.readByte a := by
  cases busFail with
  | true => rfl
  | false =>
    cases whole with
    | false => exact Memory.readByte_writeByte_other m b0 (by simpa [startWriteAddrs] using h)
    | true =>
      obtain ⟨h0, h1⟩ : a ≠ addr ∧ a ≠ addr + 1 := by simpa [startWriteAddrs] using h
      exact (readByte_storeTwo m addr b0 b1 a).trans (by rw [if_neg h0, if_neg h1])

/-- A bus step changes only the bytes its sequence is said to store to (rules R25, R29 and R36). -/
theorem Job.readByte_busMove {j : Job} {m : Memory} {busFail whole : Bool} {a : Byte}
    (h : a ∉ j.storeAddrs busFail whole) : (j.busMove m busFail whole).1.readByte a = m.readByte a := by
  cases j with
  | get _ n S p =>
    cases p with
    | start => simp only [Job.busMove]; split <;> rfl
    | secondByte | request => rfl
  | set _ n S v p =>
    cases p with
    | start => simp only [Job.busMove]; split <;> rfl
    | secondByte | request => rfl
    | write w =>
      rw [Job.busMove, afterWrite_fst]
      cases n with
      | one => exact readByte_startWrite_one h
      | two => exact readByte_startWrite_two h
    | writeSecond b1 => exact Memory.readByte_writeByte_other m b1 (by simpa [Job.storeAddrs] using h)
  | memRead addr n p =>
    cases p with
    | start => simp only [Job.busMove]; split <;> rfl
    | secondByte => rfl
  | memWrite1 addr b0 =>
    rw [Job.busMove, afterWrite_fst]
    exact readByte_startWrite_one h
  | memWrite2 addr b0 b1 p =>
    cases p with
    | start =>
      rw [Job.busMove, afterWrite_fst]
      exact readByte_startWrite_two h
    | secondByte => exact Memory.readByte_writeByte_other m b1 (by simpa [Job.storeAddrs] using h)
  | adcget | encz | qnt | bset | bclr | issue => rfl

end Sys2Proof.Machine
end

section
/-! PROOF. The bus primitives and the access sequences (rules R25 to R37 of spec/20_memory.md). -/

namespace Sys2Proof.Machine

open Sys2Proof

/-- Settles O54: a sequence that makes no request makes its bus step, whose stores are those listed. -/
theorem busStepStoresOnlyWhereItSays : Obligations.BusStepStoresOnlyWhereItSays := by
  unfold Obligations.BusStepStoresOnlyWhereItSays
  intro s t k b w rest th j js hin hth hjobs hreq h
  rw [step_thread hin hth hjobs] at h
  obtain ⟨i, u, hi, -⟩ | ⟨-, -, rfl⟩ := jobStep_cases h
  · simp [hreq] at hi
  · exact ⟨rfl, rfl, rfl, fun l hl => List.getElem?_set_ne hl.symm, fun a ha => Job.readByte_busMove ha⟩

/-- Settles O55: the reaction to the input is the store. -/
theorem agentWriteStoresOneByte : Obligations.AgentWriteStoresOneByte := by
  unfold Obligations.AgentWriteStoresOneByte
  intro s addr b rest hin
  exact ⟨_, step_cons hin, Memory.readByte_writeByte s.mem addr b⟩

/-- Settles O56: each of the four accesses is off the end, and so is refused before it starts. -/
theorem twoByteAccessAtTheLastAddressIsRefused : Obligations.TwoByteAccessAtTheLastAddressIsRefused := by
  unfold Obligations.TwoByteAccessAtTheLastAddressIsRefused
  intro s k b w rest th j js hin hth hjobs hj
  obtain ⟨a, S, rfl, hS⟩ | ⟨a, S, v, rfl, hS⟩ | rfl | ⟨b0, b1, rfl⟩ := hj
  · exact step_refused hin hth hjobs rfl ((offEnd_two _).mpr hS)
  · exact step_refused hin hth hjobs rfl ((offEnd_two _).mpr hS)
  · exact step_refused hin hth hjobs rfl rfl
  · exact step_refused hin hth hjobs rfl rfl

/-- Settles O48: the transfer of a bare read, its bytes by their number and the status of the bus. -/
theorem memReadReturnsTheBytesOrZeros : Obligations.MemReadReturnsTheBytesOrZeros := by
  unfold Obligations.MemReadReturnsTheBytesOrZeros
  intro s k b evs rest th addr n js hevs hin hth hjobs haddr
  rw [run_transfer hevs hin hth hjobs (Job.memRead_transfers haddr s.mem) rfl, Thread.advance_finished hjobs]
  cases n <;> cases b <;> rfl

/-- Settles O49: the transfers of the two bare writes, and the first step of one whose bytes travel apart. -/
theorem memWriteStoresAllOrNothing : Obligations.MemWriteStoresAllOrNothing := by
  unfold Obligations.MemWriteStoresAllOrNothing
  intro s k b evs rest th addr b0 b1 js hth
  refine ⟨?one, ?two, ?between⟩
  case one =>
    intro hjobs hevs hin
    refine ⟨(memWrite s.mem addr [b0] b).2, ?_, ?_, ?_⟩
    · rw [← Thread.advance_finished hjobs]
      exact run_transfer hevs hin hth hjobs (Job.memWrite1_transfers addr b0 s.mem) rfl
    · rintro rfl; rfl
    · rintro rfl; exact Memory.readByte_writeByte s.mem addr b0
  case two =>
    intro hjobs haddr hevs hin
    refine ⟨(memWrite s.mem addr [b0, b1] b).2, ?_, ?_, ?_⟩
    · rw [← Thread.advance_finished hjobs]
      exact run_transfer hevs hin hth hjobs (Job.memWrite2_transfers haddr b0 b1 s.mem) rfl
    · rintro rfl; rfl
    · rintro rfl; exact readByte_storeTwo s.mem addr b0 b1
  case between =>
    intro hjobs haddr hin
    refine ⟨s.mem.writeByte addr b0, ?_, Memory.readByte_writeByte s.mem addr b0⟩
    rw [← Thread.advance_more hjobs]
    exact step_bus hin hth hjobs rfl (offEnd_eq_false fun _ => haddr)

/-- Settles O50: the transfer of the read, then the step of the decode's request. -/
theorem getReadsTheWordAndDecodesIt : Obligations.GetReadsTheWordAndDecodesIt := by
  unfold Obligations.GetReadsTheWordAndDecodesIt
  intro s k b b' w' evs rest th a n S js hevs hin hth hjobs hS
  refine ⟨_, _, exec_eq_settle _ s, rfl, ?run, ?failed⟩
  case run =>
    rw [run_transfer_request hevs hin hth hjobs (Job.get_transfers hS s.mem) rfl rfl, Job.answer,
      Thread.advance_finished hjobs]
    rfl
  case failed =>
    rintro rfl
    obtain ⟨hphys, hstatus⟩ := decode_readFailed a (Claims.wordRead s.mem (busAddr S) n true) S s.fail
    refine ⟨hphys, hstatus, fun hok => ?_⟩
    rw [State.settle_fail, effectOf_fail]
    exact failAfter_decode_readFailed hok s.fail

/-- Settles O51: the transfer of the read, the step of the encode's request, and the transfer of the write-back. -/
theorem setReadsEncodesAndWritesBack : Obligations.SetReadsEncodesAndWritesBack := by
  unfold Obligations.SetReadsEncodesAndWritesBack
  intro s k b b' w' b'' evs evs' rest th a n S v js hth hjobs hS hevs hevs'
  refine ⟨_, _, exec_eq_settle _ s, rfl, ?readFailed, ?failed, ?written⟩
  case readFailed => rintro rfl; exact encode_readFailed a v _ S s.fail
  case failed =>
    intro hstatus hin
    rw [run_transfer_request hevs hin hth hjobs (Job.set_transfers hS v s.mem) rfl rfl, Job.answer, if_pos hstatus,
      Thread.advance_finished hjobs]
    rfl
  case written =>
    intro hstatus hin
    have hread := run_transfer_request hevs hin hth hjobs (Job.set_transfers hS v s.mem) rfl rfl
    set e := effectOf (a.encodeInstr v (Claims.wordRead s.mem (busAddr S) n b) S b) s.fail
    rw [Job.answer, if_neg (by simp [hstatus])] at hread
    have hwrite := run_transfer (s := { s with
      fail := e.fail, rsp := some e.rsp, inputs := evs' ++ rest,
      threads := s.threads.set k (th.advance (.more (.set a n S v (.write e.rsp.wordOut)))) })
      hevs' rfl (getElem?_set_thread hth _) rfl (Job.set_write_transfers hS v _ s.mem) rfl
    rw [Thread.advance_more_advance, List.set_set, Thread.advance_finished hjobs] at hwrite
    refine ⟨_, (run_add hread).trans hwrite, ?_, ?_⟩
    · rintro rfl; rfl
    · rintro rfl; exact readByte_storeBytes_word s.mem (busAddr S) e.rsp.wordOut n

/-- A word of two bytes reads as `w` once its bytes are those of `w`. -/
theorem wordRead_two_of_bytes {m : Memory} {addr : Byte} {w : RegWord} (hlow : m.readByte addr = lowByte w)
    (hhigh : m.readByte (addr + 1) = highByte w) : Claims.wordRead m addr .two false = w := by
  rw [← pack16_unpack w, ← hlow, ← hhigh]
  rfl

/-- A `SET` of one undisturbed thread with a working bus leaves the word that `ENC` makes of the old one. -/
theorem set_scalar_run {s : State} {k : Nat} {b w : Bool} {evs rest : List Event} {th : Thread}
    {S : FieldSpec Config.PW Config.RW} {v : Phys} {js : List Job} (hS : S.scalarOk = true)
    (haddr : busAddr (.scalar S) ≠ 0xFF) (hth : s.threads[k]? = some th)
    (hjobs : th.jobs = .set .scalar .two (.scalar S) v .start :: js) (hevs : Claims.transfer k .two false evs)
    (hin : s.inputs = evs ++ .thread k b w :: (evs ++ rest)) :
    ∃ t : State, Sys2Proof.core.run (evs.length + 1 + evs.length) s = .next t ∧
      t.threads[k]? = some { jobs := js, done := .status false :: th.done } ∧ t.fail = s.fail ∧ t.inputs = rest ∧
      Claims.wordRead t.mem (busAddr (.scalar S)) .two false =
        S.encodeWord v.toInt (Claims.wordRead s.mem (busAddr (.scalar S)) .two false) := by
  obtain ⟨u, p, hexec, hp, -, -, hset⟩ := setReadsEncodesAndWritesBack s k false b w false evs evs rest th .scalar .two
    (.scalar S) v js hth hjobs (fun _ => haddr) hevs hevs
  rw [Access.encodeInstr, exec_enc _ _ _ _ hS] at hexec
  cases hexec
  cases hp
  obtain ⟨m, hrun, -, hm⟩ := hset rfl hin
  refine ⟨_, hrun, getElem?_set_thread hth _, Bool.or_false _, rfl, wordRead_two_of_bytes ?_ ?_⟩
  · simp [hm rfl]
  · simp [hm rfl]

/-- A `GET` of one undisturbed thread with a working bus returns what `DEC` makes of the word. -/
theorem get_scalar_run {s : State} {k : Nat} {b w : Bool} {evs rest : List Event} {th : Thread}
    {S : FieldSpec Config.PW Config.RW} {js : List Job} (hS : S.scalarOk = true)
    (haddr : busAddr (.scalar S) ≠ 0xFF) (hth : s.threads[k]? = some th)
    (hjobs : th.jobs = .get .scalar .two (.scalar S) .start :: js) (hevs : Claims.transfer k .two false evs)
    (hin : s.inputs = evs ++ .thread k b w :: rest) :
    ∃ (t : State) (phys : Phys), Sys2Proof.core.run (evs.length + 1) s = .next t ∧
      t.threads[k]? = some { jobs := js, done := .value phys false :: th.done } ∧ t.fail = s.fail ∧ t.inputs = rest ∧
      phys.toInt = S.decodeValue (Claims.wordRead s.mem (busAddr (.scalar S)) .two false) := by
  obtain ⟨u, p, hexec, hp, hrun, -⟩ := getReadsTheWordAndDecodesIt s k false b w evs rest th .scalar .two (.scalar S) js
    hevs hin hth hjobs (fun _ => haddr)
  rw [Access.decodeInstr, exec_dec _ _ _ hS] at hexec
  cases hexec
  cases hp
  obtain ⟨-, -, hlo, hhi⟩ := FieldSpec.decodeValue_bounds hS (Claims.wordRead s.mem (busAddr (.scalar S)) .two false)
  exact ⟨_, _, hrun, getElem?_set_thread hth _, Bool.or_false _, rfl, toInt_ofInt_phys (by decide) hlo hhi⟩

/-- Settles O53: the word that the `SET` wrote is the word that the `GET` reads, and its decode gives `Q(v)`. -/
theorem getAfterOwnSetSeesTheWrite : Obligations.GetAfterOwnSetSeesTheWrite := by
  unfold Obligations.GetAfterOwnSetSeesTheWrite
  intro s k b2 w2 b5 w5 rest th S v js hS hfits haddr hth hjobs hin
  have hevs : Claims.transfer k .two false [.thread k false true] := .inl ⟨true, rfl, fun _ _ => rfl⟩
  obtain ⟨t, hset, htht, htfail, htin, hword⟩ := set_scalar_run hS haddr hth hjobs hevs hin
  obtain ⟨u, phys, hget, huth, hufail, huin, hphys⟩ := get_scalar_run hS haddr htht rfl hevs htin
  refine ⟨u, phys, (run_add hset).trans hget, huth, hufail.trans htfail, huin, ?_⟩
  rw [hphys, hword, FieldSpec.decodeValue_encodeWord hS hfits]

end Sys2Proof.Machine
end

section
/-!
SUPPORT. The bits of a descriptor (rules R46, R47 and R53 of spec/30_encoding.md): where each field stands, as the
number in those bits, and the five words as the parts of the 160 bits.
-/

namespace Sys2Proof

/-- Bits of bits, where the outer ones end inside the inner ones. -/
theorem extractLsb'_extractLsb' {n : Nat} (x : BitVec n) {s m s' m' : Nat} (h : s' + m' ≤ m) :
    (x.extractLsb' s m).extractLsb' s' m' = x.extractLsb' (s + s') m' := by
  apply BitVec.eq_of_getLsbD_eq
  intro i hi
  have hi' : s' + i < m := by omega
  simp [hi, hi', Nat.add_assoc]

/-- Two parts of a bit string laid end to end weigh as they stand. -/
theorem toNat_append_add {m n : Nat} (x : BitVec m) (y : BitVec n) :
    (x ++ y).toNat = x.toNat * 2 ^ n + y.toNat := by
  rw [BitVec.toNat_append, ← Nat.shiftLeft_add_eq_or_of_lt y.isLt, Nat.shiftLeft_eq]

/-! ## The number in the bits of a field -/

section Bits

variable (raw : BitVec 160)

/-- A part of a descriptor's word is the part of the 160 bits at its place in the layout (rule R47). -/
theorem specWord_extractLsb' {lo len : Nat} (k : Nat) (h : lo + len ≤ 32) :
    (specWord raw k).extractLsb' lo len = raw.extractLsb' (32 * k + lo) len :=
  extractLsb'_extractLsb' raw h

/-- The number in a part of the 160 bits, as the statements write it. -/
theorem toNat_extractLsb'_eq_bits (lo len : Nat) : (raw.extractLsb' lo len).toNat = Claims.bits raw lo len := by
  rw [BitVec.extractLsb'_toNat, Nat.shiftRight_eq_div_pow, Claims.bits]

/-- A part of the 160 bits is zero when the number in it is. -/
theorem extractLsb'_beq_zero (lo len : Nat) : (raw.extractLsb' lo len == 0) = true ↔ Claims.bits raw lo len = 0 := by
  rw [beq_iff_eq, ← BitVec.toNat_inj, toNat_extractLsb'_eq_bits, BitVec.ofNat_eq_ofNat, BitVec.toNat_zero]

/-- The number in a part of a word is the number in its bits of the layout. -/
theorem toNat_specWord_extractLsb' (k : Nat) {lo len : Nat} (h : lo + len ≤ 32) :
    ((specWord raw k).extractLsb' lo len).toNat = Claims.bits raw (32 * k + lo) len := by
  rw [specWord_extractLsb' raw k h, toNat_extractLsb'_eq_bits]

/-- The number in a word is the number in its bits of the layout. -/
theorem toNat_specWord (k : Nat) : (specWord raw k).toNat = Claims.bits raw (32 * k) 32 :=
  toNat_extractLsb'_eq_bits raw _ _

/-- The tag `KIND` is bits 17:16 (rule R46). -/
theorem toNat_specKind : (specKind raw).toNat = Claims.bits raw 16 2 := toNat_specWord_extractLsb' raw 0 (by decide)

/-- The tag, as the number in its bits. -/
theorem specKind_eq_iff (k : BitVec 2) : specKind raw = k ↔ Claims.bits raw 16 2 = k.toNat := by
  rw [← BitVec.toNat_inj, toNat_specKind]

/-- The bits reserved in every kind, at their places in the layout (rule R47). -/
theorem commonReservedZero_iff :
    commonReservedZero raw = true ↔ Claims.bits raw 18 14 = 0 ∧ Claims.bits raw 48 16 = 0 := by
  rw [commonReservedZero, specWord_extractLsb' raw 0 (by decide), specWord_extractLsb' raw 1 (by decide),
    Bool.and_eq_true, extractLsb'_beq_zero, extractLsb'_beq_zero]

/-- The bits reserved in kinds 0 and 2 alone, at their places in the layout (rule R47). -/
theorem fieldReservedZero_iff : fieldReservedZero raw = true ↔
    Claims.bits raw 37 3 = 0 ∧ Claims.bits raw 45 3 = 0 ∧ Claims.bits raw 144 16 = 0 := by
  rw [fieldReservedZero, specWord_extractLsb' raw 1 (by decide), specWord_extractLsb' raw 1 (by decide),
    specWord_extractLsb' raw 4 (by decide), Bool.and_eq_true, Bool.and_eq_true, extractLsb'_beq_zero,
    extractLsb'_beq_zero, extractLsb'_beq_zero, and_assoc]

/-- The bit patterns of rule R53, on the bits of the layout. -/
theorem rawIllegal_iff : rawIllegal raw = true ↔
    Claims.bits raw 16 2 = 3 ∨ Claims.bits raw 18 14 ≠ 0 ∨ Claims.bits raw 48 16 ≠ 0 ∨
      (Claims.bits raw 16 2 ≠ 1 ∧
        (Claims.bits raw 37 3 ≠ 0 ∨ Claims.bits raw 45 3 ≠ 0 ∨ Claims.bits raw 144 16 ≠ 0)) := by
  simp only [rawIllegal, Bool.or_eq_true, Bool.and_eq_true, beq_iff_eq, bne_iff_ne, ne_eq, Bool.not_eq_true',
    ← Bool.not_eq_true, specKind_eq_iff, commonReservedZero_iff, fieldReservedZero_iff, not_and_or, or_assoc]
  rfl

/-- The fields of a descriptor of kind 0 or 2 are the numbers in their bits of the layout. -/
theorem readFieldSpec_fields : (readFieldSpec raw).addr.toNat = Claims.bits raw 0 16 ∧
    (readFieldSpec raw).width.toNat = Claims.bits raw 32 5 ∧ (readFieldSpec raw).offset.toNat = Claims.bits raw 40 5 ∧
    (readFieldSpec raw).minVal.toNat = Claims.bits raw 64 32 ∧
    (readFieldSpec raw).maxVal.toNat = Claims.bits raw 96 32 ∧ (readFieldSpec raw).res.toNat = Claims.bits raw 128 16 :=
  ⟨toNat_specWord_extractLsb' raw 0 (by decide), toNat_specWord_extractLsb' raw 1 (by decide),
    toNat_specWord_extractLsb' raw 1 (by decide), toNat_specWord raw 2, toNat_specWord raw 3,
    toNat_specWord_extractLsb' raw 4 (by decide)⟩

/-- The fields of a descriptor of kind 1 are the numbers in their bits of the layout. -/
theorem readDualSpec_fields : (readDualSpec raw).addr.toNat = Claims.bits raw 0 16 ∧
    (readDualSpec raw).sub0.mask.toNat = Claims.bits raw 32 8 ∧
    (readDualSpec raw).sub1.mask.toNat = Claims.bits raw 40 8 ∧
    (readDualSpec raw).sub0.minVal.toNat = Claims.bits raw 64 32 ∧
    (readDualSpec raw).sub1.minVal.toNat = Claims.bits raw 96 32 ∧
    (readDualSpec raw).sub0.res.toNat = Claims.bits raw 128 16 ∧
    (readDualSpec raw).sub1.res.toNat = Claims.bits raw 144 16 :=
  ⟨toNat_specWord_extractLsb' raw 0 (by decide), toNat_specWord_extractLsb' raw 1 (by decide),
    toNat_specWord_extractLsb' raw 1 (by decide), toNat_specWord raw 2, toNat_specWord raw 3,
    toNat_specWord_extractLsb' raw 4 (by decide), toNat_specWord_extractLsb' raw 4 (by decide)⟩

end Bits

/-- A 32-bit field read as two's complement. -/
theorem toInt_eq_signed32 (x : BitVec 32) : x.toInt = Claims.signed32 x.toNat := by
  rw [BitVec.toInt_eq_toNat_cond, Claims.signed32]
  split <;> split <;> omega

/-! ## The words of a descriptor -/

open BitVec in
/-- The five words make up the descriptor. -/
theorem joinWords_specWord (raw : BitVec 160) :
    joinWords (specWord raw 4) (specWord raw 3) (specWord raw 2) (specWord raw 1) (specWord raw 0) = raw := by
  simp only [joinWords, specWord]
  iterate 4 rw [extractLsb'_append_extractLsb'_eq_extractLsb' (by rfl)]
  exact extractLsb'_eq_self

open BitVec in
/-- Each word of a descriptor is the one it was put together from. -/
theorem specWord_joinWords (w4 w3 w2 w1 w0 : BitVec 32) :
    specWord (joinWords w4 w3 w2 w1 w0) 0 = w0 ∧ specWord (joinWords w4 w3 w2 w1 w0) 1 = w1 ∧
      specWord (joinWords w4 w3 w2 w1 w0) 2 = w2 ∧ specWord (joinWords w4 w3 w2 w1 w0) 3 = w3 ∧
      specWord (joinWords w4 w3 w2 w1 w0) 4 = w4 := by
  -- the width as a sum of the parts' widths, as the library's lemmas about appended parts have it
  have hparts (x : BitVec (32 + 32 + 32 + 32 + 32)) (h : x = w4 ++ w3 ++ w2 ++ w1 ++ w0) :
      x.extractLsb' 0 32 = w0 ∧ x.extractLsb' 32 32 = w1 ∧ x.extractLsb' 64 32 = w2 ∧ x.extractLsb' 96 32 = w3 ∧
        x.extractLsb' 128 32 = w4 := by
    subst h
    simp (disch := decide) only [extractLsb'_append_eq_of_le, extractLsb'_append_eq_of_add_le]
    exact ⟨extractLsb'_eq_self, extractLsb'_eq_self, extractLsb'_eq_self, extractLsb'_eq_self, extractLsb'_eq_self⟩
  exact hparts _ rfl

/-! ## Writing a descriptor and reading it back -/

section WordParts

variable (w : BitVec 32)

open BitVec in
/-- W0 in the layout: reserved bits, `KIND`, `ADDR`. -/
theorem word0_parts : w.extractLsb' 18 14 ++ w.extractLsb' 16 2 ++ w.extractLsb' 0 16 = w := by
  iterate 2 rw [extractLsb'_append_extractLsb'_eq_extractLsb' (by rfl)]
  exact extractLsb'_eq_self

open BitVec in
/-- W1 of kinds 0 and 2 in the layout: reserved bits stand before `OFFSET` and before `WIDTH`. -/
theorem word1_parts :
    w.extractLsb' 16 16 ++ w.extractLsb' 13 3 ++ w.extractLsb' 8 5 ++ w.extractLsb' 5 3 ++ w.extractLsb' 0 5 = w := by
  iterate 4 rw [extractLsb'_append_extractLsb'_eq_extractLsb' (by rfl)]
  exact extractLsb'_eq_self

open BitVec in
/-- W1 of kind 1 in the layout: reserved bits, `MASK1`, `MASK0`. -/
theorem word1_dual_parts : w.extractLsb' 16 16 ++ w.extractLsb' 8 8 ++ w.extractLsb' 0 8 = w := by
  iterate 2 rw [extractLsb'_append_extractLsb'_eq_extractLsb' (by rfl)]
  exact extractLsb'_eq_self

/-- W4 in the layout: its halves. -/
theorem word4_parts : w.extractLsb' 16 16 ++ w.extractLsb' 0 16 = w := BitVec.extractLsb'_append_extractLsb'

end WordParts

section WriteRead

variable {raw : BitVec 160} (hc : commonReservedZero raw = true)
include hc

/-- Writing the tag and `ADDR` that were read gives W0 back. -/
theorem writeWord0_specKind : writeWord0 (specKind raw) (specAddr raw) = specWord raw 0 := by
  simp only [commonReservedZero, Bool.and_eq_true, beq_iff_eq] at hc
  obtain ⟨h0, -⟩ := hc
  have hparts := word0_parts (specWord raw 0)
  rw [h0] at hparts
  exact hparts

/-- Writing the fields that were read of a descriptor of kind 0 or 2 gives it back. -/
theorem writeFieldSpec_readFieldSpec (hf : fieldReservedZero raw = true) :
    writeFieldSpec (specKind raw) (readFieldSpec raw) = raw := by
  have h0 := writeWord0_specKind hc
  have h1 := word1_parts (specWord raw 1)
  have h4 := word4_parts (specWord raw 4)
  simp only [commonReservedZero, fieldReservedZero, Bool.and_eq_true, beq_iff_eq] at hc hf
  obtain ⟨-, h16⟩ := hc
  obtain ⟨⟨h5, h13⟩, h144⟩ := hf
  rw [h16, h13, h5] at h1
  rw [h144] at h4
  calc writeFieldSpec (specKind raw) (readFieldSpec raw)
      = joinWords (specWord raw 4) (specWord raw 3) (specWord raw 2) (specWord raw 1) (specWord raw 0) :=
        congr (congr (congrArg (joinWords · _ _) h4) h1) h0
    _ = raw := joinWords_specWord raw

/-- Writing the fields that were read of a descriptor of kind 1 gives it back. -/
theorem writeDualSpec_readDualSpec (hk : specKind raw = 1) : writeDualSpec (readDualSpec raw) = raw := by
  have h0 := writeWord0_specKind hc
  have h1 := word1_dual_parts (specWord raw 1)
  have h4 := word4_parts (specWord raw 4)
  simp only [commonReservedZero, Bool.and_eq_true, beq_iff_eq] at hc
  obtain ⟨-, h16⟩ := hc
  rw [hk] at h0
  rw [h16] at h1
  calc writeDualSpec (readDualSpec raw)
      = joinWords (specWord raw 4) (specWord raw 3) (specWord raw 2) (specWord raw 1) (specWord raw 0) :=
        congr (congr (congrArg (joinWords · _ _) h4) h1) h0
    _ = raw := joinWords_specWord raw

end WriteRead

/-- What 160 bits are read as is written as the same bits. -/
theorem encodeSpec_decodeSpec (raw : BitVec 160) : encodeSpec (decodeSpec raw) = raw := by
  rcases decodeSpec_cases raw with ⟨hc, hk, hf, h⟩ | ⟨hc, hk, h⟩ | ⟨hc, hk, hf, h⟩ | ⟨-, h⟩ <;> rw [h]
  · have hw := writeFieldSpec_readFieldSpec hc hf
    rwa [BitVec.eq_of_toNat_eq (y := 0) hk] at hw
  · exact writeDualSpec_readDualSpec hc (BitVec.eq_of_toNat_eq hk)
  · have hw := writeFieldSpec_readFieldSpec hc hf
    rwa [BitVec.eq_of_toNat_eq (y := 2) hk] at hw
  · rfl

/-! ## Reading what was written -/

section ReadWrite

open BitVec in
/-- The parts of W0 stand where `writeWord0` puts them. -/
theorem writeWord0_parts (kind : BitVec 2) (addr : BitVec 16) :
    (writeWord0 kind addr).extractLsb' 18 14 = 0 ∧ (writeWord0 kind addr).extractLsb' 16 2 = kind ∧
      (writeWord0 kind addr).extractLsb' 0 16 = addr := by
  have hparts (w0 : BitVec (14 + 2 + 16)) (h : w0 = 0#14 ++ kind ++ addr) :
      w0.extractLsb' 18 14 = 0 ∧ w0.extractLsb' 16 2 = kind ∧ w0.extractLsb' 0 16 = addr := by
    subst h
    simp (disch := decide) only [extractLsb'_append_eq_of_le, extractLsb'_append_eq_of_add_le]
    exact ⟨rfl, extractLsb'_eq_self, extractLsb'_eq_self⟩
  exact hparts _ rfl

open BitVec in
/-- The parts of W1 of a descriptor of kind 0 or 2 stand where `writeFieldSpec` puts them. -/
theorem writeWord1_parts (offset width : BitVec 5) {w1 : BitVec (16 + 3 + 5 + 3 + 5)}
    (h : w1 = 0#16 ++ 0#3 ++ offset ++ 0#3 ++ width) :
    w1.extractLsb' 16 16 = 0 ∧ w1.extractLsb' 13 3 = 0 ∧ w1.extractLsb' 8 5 = offset ∧ w1.extractLsb' 5 3 = 0 ∧
      w1.extractLsb' 0 5 = width := by
  subst h
  simp (disch := decide) only [extractLsb'_append_eq_of_le, extractLsb'_append_eq_of_add_le]
  exact ⟨rfl, rfl, extractLsb'_eq_self, rfl, extractLsb'_eq_self⟩

open BitVec in
/-- The parts of W1 of a descriptor of kind 1 stand where `writeDualSpec` puts them. -/
theorem writeWord1_dual_parts (mask1 mask0 : BitVec 8) {w1 : BitVec (16 + 8 + 8)} (h : w1 = 0#16 ++ mask1 ++ mask0) :
    w1.extractLsb' 16 16 = 0 ∧ w1.extractLsb' 8 8 = mask1 ∧ w1.extractLsb' 0 8 = mask0 := by
  subst h
  simp (disch := decide) only [extractLsb'_append_eq_of_le, extractLsb'_append_eq_of_add_le]
  exact ⟨rfl, extractLsb'_eq_self, extractLsb'_eq_self⟩

variable (kind : BitVec 2) (S : FieldSpec Config.PW Config.RW) (D : DualSpec Config.PW Config.RW)

/-- A written descriptor of kind 0 or 2 has its tag, no reserved bit, and the fields it was written from. -/
theorem read_writeFieldSpec : specKind (writeFieldSpec kind S) = kind ∧
    commonReservedZero (writeFieldSpec kind S) = true ∧ fieldReservedZero (writeFieldSpec kind S) = true ∧
    readFieldSpec (writeFieldSpec kind S) = S := by
  obtain ⟨h18, hkind, haddr⟩ := writeWord0_parts kind S.addr
  obtain ⟨h48, h45, hoffset, h37, hwidth⟩ := writeWord1_parts S.offset S.width rfl
  have h144 : (0#16 ++ S.res).extractLsb' 16 16 = 0 := BitVec.extractLsb'_append_eq_left
  have hres : (0#16 ++ S.res).extractLsb' 0 16 = S.res := BitVec.extractLsb'_append_eq_right
  simp only [specKind, commonReservedZero, fieldReservedZero, readFieldSpec, specAddr, writeFieldSpec,
    specWord_joinWords, h18, hkind, haddr, h48, h45, hoffset, h37, hwidth, h144, hres, BEq.rfl, Bool.and_self, and_self]

/-- A written descriptor of kind 1 has its tag, no reserved bit, and the fields it was written from. -/
theorem read_writeDualSpec : specKind (writeDualSpec D) = 1 ∧ commonReservedZero (writeDualSpec D) = true ∧
    readDualSpec (writeDualSpec D) = D := by
  obtain ⟨h18, hkind, haddr⟩ := writeWord0_parts 1 D.addr
  obtain ⟨h48, hmask1, hmask0⟩ := writeWord1_dual_parts D.sub1.mask D.sub0.mask rfl
  have hres1 : (D.sub1.res ++ D.sub0.res).extractLsb' 16 16 = D.sub1.res := BitVec.extractLsb'_append_eq_left
  have hres0 : (D.sub1.res ++ D.sub0.res).extractLsb' 0 16 = D.sub0.res := BitVec.extractLsb'_append_eq_right
  simp only [specKind, commonReservedZero, readDualSpec, specAddr, writeDualSpec, specWord_joinWords, h18,
    hkind, haddr, h48, hmask1, hmask0, hres1, hres0, BEq.rfl, Bool.and_self, and_self]

end ReadWrite

/-! ## Which descriptor 160 bits are read as, by the tag -/

section Kinds

variable {raw : BitVec 160} (hc : commonReservedZero raw = true)
include hc

theorem decodeSpec_scalar (hk : specKind raw = 0) (hf : fieldReservedZero raw = true) :
    decodeSpec raw = .scalar (readFieldSpec raw) := by
  rw [decodeSpec, if_pos hc, hk]
  exact if_pos hf

theorem decodeSpec_dual (hk : specKind raw = 1) : decodeSpec raw = .dual (readDualSpec raw) := by
  rw [decodeSpec, if_pos hc, hk]
  rfl

theorem decodeSpec_bitfield (hk : specKind raw = 2) (hf : fieldReservedZero raw = true) :
    decodeSpec raw = .bitfield (readFieldSpec raw) := by
  rw [decodeSpec, if_pos hc, hk]
  exact if_pos hf

end Kinds

/-- A well-formed descriptor comes back from its bits. -/
theorem decodeSpec_encodeSpec {S : Spec} (h : S.wf = true) : decodeSpec (encodeSpec S) = S := by
  cases S with
  | scalar S =>
    obtain ⟨hk, hc, hf, hread⟩ := read_writeFieldSpec 0 S
    exact (decodeSpec_scalar hc hk hf).trans (congrArg _ hread)
  | dual D =>
    obtain ⟨hk, hc, hread⟩ := read_writeDualSpec D
    exact (decodeSpec_dual hc hk).trans (congrArg _ hread)
  | bitfield S =>
    obtain ⟨hk, hc, hf, hread⟩ := read_writeFieldSpec 2 S
    exact (decodeSpec_bitfield hc hk hf).trans (congrArg _ hread)
  | illegal raw => exact decodeSpec_illegal h

end Sys2Proof
end

section
/-!
SUPPORT. The request record as a number and as bytes, and the instruction of each operation code (rules R39, R41 and R57
of spec/30_encoding.md).
-/

namespace Sys2Proof

/-! ## The record as a number -/

/-- The record is the weighted sum of its fields (rule R39). -/
theorem Request.toNat_toBits (r : Request) : r.toBits.toNat = r.op.toNat * 2 ^ 209 + r.spec.toNat * 2 ^ 49 +
    r.physIn.toNat * 2 ^ 17 + r.wordIn.toNat * 2 + r.rdFail.toNat := by
  rw [Request.toBits, toNat_append_add, toNat_append_add, toNat_append_add, toNat_append_add, BitVec.toNat_ofBool]
  ring

open BitVec in
/-- A request comes back from its record. -/
theorem Request.ofBits_toBits (r : Request) : Request.ofBits r.toBits = r := by
  obtain ⟨op, spec, physIn, wordIn, rdFail⟩ := r
  rw [Request.ofBits, getLsbD_eq_extractLsb', Request.toBits]
  simp (disch := decide) only [extractLsb'_append_eq_of_le, extractLsb'_append_eq_of_add_le, Request.mk.injEq]
  refine ⟨extractLsb'_eq_self, extractLsb'_eq_self, extractLsb'_eq_self, extractLsb'_eq_self, ?_⟩
  cases rdFail <;> rfl

open BitVec in
/-- A record comes back from its request. -/
theorem Request.toBits_ofBits (b : BitVec recordBits) : (Request.ofBits b).toBits = b := by
  have hflag : BitVec.ofBool (b.getLsbD 0) = b.extractLsb' 0 1 := by
    ext i hi
    obtain rfl : i = 0 := by omega
    simp
  simp only [Request.toBits, Request.ofBits, hflag]
  iterate 4 rw [extractLsb'_append_extractLsb'_eq_extractLsb' (by rfl)]
  exact extractLsb'_eq_self

/-! ## The record as bytes -/

/-- A number is written in as many bytes as are asked for. -/
@[simp] theorem length_natToBytes (k n : Nat) : (natToBytes k n).length = k := by
  induction k with
  | zero => rfl
  | succ k ih => rw [natToBytes, List.length_cons, ih]

/-- The bytes of a number stand for the number, as far as they reach. -/
theorem bytesToNat_natToBytes (k n acc : Nat) :
    bytesToNat (natToBytes k n) acc = acc * 256 ^ k + n % 256 ^ k := by
  induction k generalizing acc with
  | zero => simp [natToBytes, bytesToNat, Nat.mod_one]
  | succ k ih =>
    have hn : n % 256 ^ (k + 1) = n % 256 ^ k + 256 ^ k * (n / 256 ^ k % 256) := Nat.mod_pow_succ
    rw [natToBytes, bytesToNat, ih, BitVec.toNat_ofNat, hn]
    ring

/-- A request comes back from its byte string. -/
theorem readRecord_writeRecord (r : Request) : readRecord (writeRecord r) = .ok r := by
  have hlt : r.toBits.toNat < 2 ^ recordBits := r.toBits.isLt
  have hpow : 2 ^ recordBits < 256 ^ recordBytes := by decide
  have hlen : (writeRecord r).length = recordBytes := length_natToBytes _ _
  have hnum : bytesToNat (writeRecord r) 0 = r.toBits.toNat := by
    rw [writeRecord, bytesToNat_natToBytes, Nat.zero_mul, Nat.zero_add, Nat.mod_eq_of_lt (hlt.trans hpow)]
  rw [readRecord, hnum, if_pos hlen, if_pos hlt, BitVec.ofNat_toNat, BitVec.setWidth_eq,
    Request.ofBits_toBits]

/-! ## The instruction of each operation code (rule R41) -/

section Op

variable {r : Request}

theorem decode_nop (h : r.op = 0x0) : decode r = .nop := by simp [decode, h]
theorem decode_enc (h : r.op = 0x1) : decode r = .enc r.physIn r.wordIn (decodeSpec r.spec) r.rdFail := by
  simp [decode, h]
theorem decode_dec (h : r.op = 0x2) : decode r = .dec r.wordIn (decodeSpec r.spec) r.rdFail := by simp [decode, h]
theorem decode_bfi (h : r.op = 0x3) : decode r = .bfi r.physIn r.wordIn (decodeSpec r.spec) r.rdFail := by
  simp [decode, h]
theorem decode_bfx (h : r.op = 0x4) : decode r = .bfx r.wordIn (decodeSpec r.spec) r.rdFail := by simp [decode, h]
theorem decode_dencl (h : r.op = 0x5) : decode r = .dencl r.physIn r.wordIn (decodeSpec r.spec) r.rdFail := by
  simp [decode, h]
theorem decode_dench (h : r.op = 0x6) : decode r = .dench r.physIn r.wordIn (decodeSpec r.spec) r.rdFail := by
  simp [decode, h]
theorem decode_ddecl (h : r.op = 0x7) : decode r = .ddecl r.wordIn (decodeSpec r.spec) r.rdFail := by
  simp [decode, h]
theorem decode_ddech (h : r.op = 0x8) : decode r = .ddech r.wordIn (decodeSpec r.spec) r.rdFail := by
  simp [decode, h]
theorem decode_rdst (h : r.op = 0x9) : decode r = .rdst := by simp [decode, h]
theorem decode_clrf (h : r.op = 0xA) : decode r = .clrf := by simp [decode, h]
theorem decode_reservedB (h : r.op = 0xB) : decode r = .reservedB := by simp [decode, h]

theorem decode_reservedCF (h : 0xC ≤ r.op) : decode r = .reservedCF (r.op.extractLsb' 0 2) := by
  have hop : 12 ≤ r.op.toNat := h
  unfold decode
  split
  case h_13 => rfl
  all_goals omega

end Op

/-- The two reserved rows together: the codes 0xB to 0xF (rule R52). -/
theorem decode_reserved {r : Request} (h : r.op ≥ 0xB) : decode r = .reservedB ∨ ∃ low, decode r = .reservedCF low := by
  rcases (by bv_omega : r.op = 0xB ∨ 0xC ≤ r.op) with hop | hop
  · exact .inl (decode_reservedB hop)
  · exact .inr ⟨_, decode_reservedCF hop⟩

/-- The operation code of a reserved row of four codes, from its low bits. -/
theorem reservedCF_op (low : BitVec 2) : (0xC : BitVec 4) ≤ 0b11#2 ++ low ∧ (0b11#2 ++ low).extractLsb' 0 2 = low := by
  revert low
  decide

/-- A well-formed instruction comes back from its request. -/
theorem decode_encode {i : Instr} (h : i.wf = true) : decode (encode i) = i := by
  cases i with
  | nop => exact decode_nop rfl
  | enc v w S f => exact (decode_enc rfl).trans (congrArg (Instr.enc v w · f) (decodeSpec_encodeSpec h))
  | dec w S f => exact (decode_dec rfl).trans (congrArg (Instr.dec w · f) (decodeSpec_encodeSpec h))
  | bfi v w S f => exact (decode_bfi rfl).trans (congrArg (Instr.bfi v w · f) (decodeSpec_encodeSpec h))
  | bfx w S f => exact (decode_bfx rfl).trans (congrArg (Instr.bfx w · f) (decodeSpec_encodeSpec h))
  | dencl v w S f => exact (decode_dencl rfl).trans (congrArg (Instr.dencl v w · f) (decodeSpec_encodeSpec h))
  | dench v w S f => exact (decode_dench rfl).trans (congrArg (Instr.dench v w · f) (decodeSpec_encodeSpec h))
  | ddecl w S f => exact (decode_ddecl rfl).trans (congrArg (Instr.ddecl w · f) (decodeSpec_encodeSpec h))
  | ddech w S f => exact (decode_ddech rfl).trans (congrArg (Instr.ddech w · f) (decodeSpec_encodeSpec h))
  | rdst => exact decode_rdst rfl
  | clrf => exact decode_clrf rfl
  | reservedB => exact decode_reservedB rfl
  | reservedCF low =>
    obtain ⟨hop, hlow⟩ := reservedCF_op low
    exact (decode_reservedCF hop).trans (congrArg Instr.reservedCF hlow)

end Sys2Proof
end

section
/-! PROOF. The record, the descriptor and the instruction determine each other (rules R39, R41, R46, R47 and R53). -/

namespace Sys2Proof

/-- Settles O2: the bytes give the request back, and the request the instruction. -/
theorem everyInstructionComesBackFromItsRecord : Obligations.EveryInstructionComesBackFromItsRecord := by
  unfold Obligations.EveryInstructionComesBackFromItsRecord
  intro i hi
  rw [decodeBytes, encodeBytes, readRecord_writeRecord]
  exact congrArg Except.ok (decode_encode hi)

/-- Settles O3: the record is its five fields laid end to end, and reading it takes them apart again. -/
theorem recordIsTheWeightedSumOfItsFields : Obligations.RecordIsTheWeightedSumOfItsFields := by
  unfold Obligations.RecordIsTheWeightedSumOfItsFields
  exact ⟨Request.toNat_toBits, Request.ofBits_toBits, Request.toBits_ofBits⟩

/-- Settles O4: each way a descriptor is read, with the tag and the reserved bits on which it is read so. -/
theorem descriptorFieldsStandWhereTheLayoutSays : Obligations.DescriptorFieldsStandWhereTheLayoutSays := by
  unfold Obligations.DescriptorFieldsStandWhereTheLayoutSays
  intro raw
  rcases decodeSpec_cases raw with ⟨hc, hk, hf, h⟩ | ⟨hc, hk, h⟩ | ⟨hc, hk, hf, h⟩ | ⟨hi, h⟩ <;> rw [h]
  case inl | inr.inr.inl =>
    rw [toNat_specKind] at hk
    obtain ⟨h18, h48⟩ := (commonReservedZero_iff raw).mp hc
    obtain ⟨h37, h45, h144⟩ := (fieldReservedZero_iff raw).mp hf
    exact ⟨hk, h18, h37, h45, h48, h144, readFieldSpec_fields raw⟩
  case inr.inl =>
    rw [toNat_specKind] at hk
    obtain ⟨h18, h48⟩ := (commonReservedZero_iff raw).mp hc
    exact ⟨hk, h18, h48, readDualSpec_fields raw⟩
  case inr.inr.inr => exact ⟨rfl, (rawIllegal_iff raw).mp hi⟩

/-- Settles O5: reading and writing a descriptor undo each other, kind by kind. -/
theorem descriptorAndItsBitsDetermineEachOther : Obligations.DescriptorAndItsBitsDetermineEachOther := by
  unfold Obligations.DescriptorAndItsBitsDetermineEachOther
  exact ⟨fun _ => decodeSpec_encodeSpec, fun raw => ⟨encodeSpec_decodeSpec raw, decodeSpec_wf raw⟩⟩

end Sys2Proof
end

section
/-!
SUPPORT and PROOF. `SpecOK` on the bits of a descriptor, and the descriptors of rule R53 (rules R49 and R53 of
spec/30_encoding.md).
-/

namespace Sys2Proof

/-! ## Which descriptors an operation accepts, from the tag -/

section Accepts

variable (raw : BitVec 160)

/-- `ENC` and `DEC` accept a legal descriptor of kind 0 whose fields are `SpecOK`. -/
theorem forScalar_decodeSpec_isSome_iff : (decodeSpec raw).forScalar.isSome = true ↔ commonReservedZero raw = true ∧
    specKind raw = 0 ∧ fieldReservedZero raw = true ∧ (readFieldSpec raw).scalarOk = true := by
  constructor
  · intro h
    rcases decodeSpec_cases raw with ⟨hc, hk, hf, hd⟩ | ⟨-, -, hd⟩ | ⟨-, -, -, hd⟩ | ⟨-, hd⟩ <;> rw [hd] at h
    · exact ⟨hc, BitVec.eq_of_toNat_eq hk, hf, by simpa [Descriptor.forScalar] using h⟩
    all_goals cases h
  · rintro ⟨hc, hk, hf, hok⟩
    rw [decodeSpec_scalar hc hk hf, Descriptor.forScalar, if_pos hok, Option.isSome_some]

/-- `BFI` and `BFX` accept a legal descriptor of kind 2 whose fields are `SpecOK`. -/
theorem forBitfield_decodeSpec_isSome_iff : (decodeSpec raw).forBitfield.isSome = true ↔
    commonReservedZero raw = true ∧ specKind raw = 2 ∧ fieldReservedZero raw = true ∧
      (readFieldSpec raw).bitfieldOk = true := by
  constructor
  · intro h
    rcases decodeSpec_cases raw with ⟨-, -, -, hd⟩ | ⟨-, -, hd⟩ | ⟨hc, hk, hf, hd⟩ | ⟨-, hd⟩ <;> rw [hd] at h
    case inr.inr.inl => exact ⟨hc, BitVec.eq_of_toNat_eq hk, hf, by simpa [Descriptor.forBitfield] using h⟩
    all_goals cases h
  · rintro ⟨hc, hk, hf, hok⟩
    rw [decodeSpec_bitfield hc hk hf, Descriptor.forBitfield, if_pos hok, Option.isSome_some]

/-- The dual-value operations accept a legal descriptor of kind 1 whose fields are `SpecOK`. -/
theorem forDual_decodeSpec_isSome_iff : (decodeSpec raw).forDual.isSome = true ↔ commonReservedZero raw = true ∧
    specKind raw = 1 ∧ (readDualSpec raw).ok = true := by
  constructor
  · intro h
    rcases decodeSpec_cases raw with ⟨-, -, -, hd⟩ | ⟨hc, hk, hd⟩ | ⟨-, -, -, hd⟩ | ⟨-, hd⟩ <;> rw [hd] at h
    case inr.inl => exact ⟨hc, BitVec.eq_of_toNat_eq hk, by simpa [Descriptor.forDual] using h⟩
    all_goals cases h
  · rintro ⟨hc, hk, hok⟩
    rw [decodeSpec_dual hc hk, Descriptor.forDual, if_pos hok, Option.isSome_some]

end Accepts

/-! ## `SpecOK` on the bits (rule R49) -/

section Bits

variable (raw : BitVec 160)

/-- A word of the descriptor as a two's complement number. -/
theorem toInt_specWord (k : Nat) : (specWord raw k).toInt = Claims.signed32 (Claims.bits raw (32 * k) 32) := by
  rw [toInt_eq_signed32, toNat_specWord]

/-- The bounds of a descriptor of kind 0 or 2 as two's complement numbers. -/
theorem toInt_readFieldSpec : (readFieldSpec raw).minVal.toInt = Claims.signed32 (Claims.bits raw 64 32) ∧
    (readFieldSpec raw).maxVal.toInt = Claims.signed32 (Claims.bits raw 96 32) :=
  ⟨toInt_specWord raw 2, toInt_specWord raw 3⟩

/-- A legal descriptor of kind 0 or 2: the tag and every reserved bit of the layout. -/
theorem legalField_iff (kind : BitVec 2) (P : Prop) :
    (commonReservedZero raw = true ∧ specKind raw = kind ∧ fieldReservedZero raw = true ∧ P) ↔
      Claims.bits raw 18 14 = 0 ∧ Claims.bits raw 37 3 = 0 ∧ Claims.bits raw 45 3 = 0 ∧ Claims.bits raw 48 16 = 0 ∧
        Claims.bits raw 144 16 = 0 ∧ Claims.bits raw 16 2 = kind.toNat ∧ P := by
  rw [commonReservedZero_iff, fieldReservedZero_iff, specKind_eq_iff]
  constructor
  · rintro ⟨⟨h18, h48⟩, hk, ⟨h37, h45, h144⟩, hP⟩
    exact ⟨h18, h37, h45, h48, h144, hk, hP⟩
  · rintro ⟨h18, h37, h45, h48, h144, hk, hP⟩
    exact ⟨⟨h18, h48⟩, hk, ⟨h37, h45, h144⟩, hP⟩

/-- What `ENC` and `DEC` accept is `SpecOK` as rule R49 writes it. -/
theorem scalarSpecOk_iff : (decodeSpec raw).forScalar.isSome = true ↔ Claims.scalarSpecOk raw := by
  obtain ⟨-, hwidth, hoffset, -, -, hres⟩ := readFieldSpec_fields raw
  obtain ⟨hmin, hmax⟩ := toInt_readFieldSpec raw
  rw [forScalar_decodeSpec_isSome_iff, legalField_iff, FieldSpec.scalarOk_iff, hwidth, hoffset, hmin, hmax, hres]
  rfl

/-- What `BFI` and `BFX` accept is `SpecOK` as rule R49 writes it. -/
theorem bitfieldSpecOk_iff : (decodeSpec raw).forBitfield.isSome = true ↔ Claims.bitfieldSpecOk raw := by
  obtain ⟨-, hwidth, hoffset, -, -, hres⟩ := readFieldSpec_fields raw
  obtain ⟨hmin, hmax⟩ := toInt_readFieldSpec raw
  rw [forBitfield_decodeSpec_isSome_iff, legalField_iff, FieldSpec.bitfieldOk_iff, hwidth, hoffset, hmin, hmax, hres]
  rfl

/-- What the dual-value operations accept is `SpecOK` as rule R49 writes it. -/
theorem dualSpecOk_iff : (decodeSpec raw).forDual.isSome = true ↔ Claims.dualSpecOk raw := by
  obtain ⟨-, hmask0, hmask1, -, -, hres0, hres1⟩ := readDualSpec_fields raw
  have hmin0 : (readDualSpec raw).sub0.minVal.toInt = Claims.signed32 (Claims.bits raw 64 32) := toInt_specWord raw 2
  have hmin1 : (readDualSpec raw).sub1.minVal.toInt = Claims.signed32 (Claims.bits raw 96 32) := toInt_specWord raw 3
  rw [forDual_decodeSpec_isSome_iff, commonReservedZero_iff, specKind_eq_iff, DualSpec.ok_iff, hmask0, hmask1, hmin0,
    hmin1, hres0, hres1, Claims.dualSpecOk]
  exact and_assoc

end Bits

/-- Settles O8: the operation accepts by the tag, the reserved bits and the fields, which are numbers in the layout's
bits; what it does not accept is `BAD_SPEC` by rule R111. -/
theorem specOkIsTheWrittenCondition : Obligations.SpecOkIsTheWrittenCondition := by
  unfold Obligations.SpecOkIsTheWrittenCondition
  refine ⟨fun r hop => ?scalar, fun r hop => ?bitfield, fun r hop => ?dual, fun r s _ _ hno =>
    ⟨_, _, Machine.exec_of_not_specOk hno s, rfl, rfl⟩⟩
  case scalar =>
    rw [← scalarSpecOk_iff]
    rcases hop with h | h
    · rw [decode_enc h, Instr.specOk]
    · rw [decode_dec h, Instr.specOk]
  case bitfield =>
    rw [← bitfieldSpecOk_iff]
    rcases hop with h | h
    · rw [decode_bfi h, Instr.specOk]
    · rw [decode_bfx h, Instr.specOk]
  case dual =>
    rw [← dualSpecOk_iff]
    rcases hop with h | h | h | h
    · rw [decode_dencl h, Instr.specOk]
    · rw [decode_dench h, Instr.specOk]
    · rw [decode_ddecl h, Instr.specOk]
    · rw [decode_ddech h, Instr.specOk]

end Sys2Proof
end

section
/-!
PROOF. The operation codes, the formats, the illegal descriptors and the pseudo-operations (rules R41, R42, R52, R53, R56
and R57 of spec/30_encoding.md).
-/

namespace Sys2Proof.Machine

open Sys2Proof

/-- A request of format N answers with status 0 and cause `NONE`, and never sets `FAIL` (rules R42 and R89). -/
theorem exec_formatN {r : Request} (hop : r.op ∈ [0x0#4, 0x9#4, 0xA#4]) (s : State) :
    ∃ t p, exec (decode r) s = .next t ∧ t.rsp = some p ∧ p.status = false ∧ p.cause = .none ∧
      (t.fail = true → s.fail = true) := by
  simp only [List.mem_cons, List.not_mem_nil, or_false] at hop
  rcases hop with h | h | h
  · rw [decode_nop h]
    exact ⟨_, _, rfl, rfl, rfl, rfl, id⟩
  · rw [decode_rdst h]
    exact ⟨_, _, rfl, rfl, rfl, rfl, id⟩
  · rw [decode_clrf h]
    exact ⟨_, _, rfl, rfl, rfl, rfl, Bool.noConfusion⟩

/-- No operation that reads a descriptor accepts an illegal one (rules R49 and R53). -/
theorem specOk_of_rawIllegal {r : Request} (h : rawIllegal r.spec = true) (h0 : r.op ≠ 0x0) (h9 : r.op < 0x9) :
    (decode r).specOk = false := by
  have hspec := decodeSpec_illegal h
  rcases (by bv_omega : r.op = 0x1 ∨ r.op = 0x2 ∨ r.op = 0x3 ∨ r.op = 0x4 ∨ r.op = 0x5 ∨ r.op = 0x6 ∨ r.op = 0x7 ∨
    r.op = 0x8) with hop | hop | hop | hop | hop | hop | hop | hop
  · rw [decode_enc hop, hspec]; rfl
  · rw [decode_dec hop, hspec]; rfl
  · rw [decode_bfi hop, hspec]; rfl
  · rw [decode_bfx hop, hspec]; rfl
  · rw [decode_dencl hop, hspec]; rfl
  · rw [decode_dench hop, hspec]; rfl
  · rw [decode_ddecl hop, hspec]; rfl
  · rw [decode_ddech hop, hspec]; rfl

/-- Settles O30: no conversion accepts the descriptor, and format N does not read it. -/
theorem illegalDescriptorIsBadSpec : Obligations.IllegalDescriptorIsBadSpec := by
  unfold Obligations.IllegalDescriptorIsBadSpec
  intro r s hbits
  have hillegal := (rawIllegal_iff r.spec).mpr hbits
  refine ⟨fun h0 h9 => exec_of_not_specOk (specOk_of_rawIllegal hillegal h0 h9) s, fun hop => ?_⟩
  obtain ⟨t, p, hexec, hrsp, hstatus, -⟩ := exec_formatN hop s
  exact ⟨t, p, hexec, hrsp, hstatus⟩

/-- Settles O6: the operation code decides which fields `decode` takes, and format W leaves `phys_in` out. -/
theorem unreadFieldsHaveNoEffect : Obligations.UnreadFieldsHaveNoEffect := by
  unfold Obligations.UnreadFieldsHaveNoEffect
  refine ⟨fun r r' heq hop hspec hword hfail => ?formatW, fun r r' heq hop => ?formatN, fun r s hop => exec_formatN hop s⟩
  case formatW =>
    simp only [List.mem_cons, List.not_mem_nil, or_false] at hop
    rcases hop with h | h | h | h
    · rw [decode_dec h, decode_dec (heq ▸ h), hspec, hword, hfail]
    · rw [decode_bfx h, decode_bfx (heq ▸ h), hspec, hword, hfail]
    · rw [decode_ddecl h, decode_ddecl (heq ▸ h), hspec, hword, hfail]
    · rw [decode_ddech h, decode_ddech (heq ▸ h), hspec, hword, hfail]
  case formatN =>
    simp only [List.mem_cons, List.not_mem_nil, or_false] at hop
    rcases hop with h | h | h
    · rw [decode_nop h, decode_nop (heq ▸ h)]
    · rw [decode_rdst h, decode_rdst (heq ▸ h)]
    · rw [decode_clrf h, decode_clrf (heq ▸ h)]

/-- Settles O27: a reserved code decodes to one of the two reserved rows, whose meaning is `rejectOp`. -/
theorem reservedCodesFailWithBadOp : Obligations.ReservedCodesFailWithBadOp := by
  unfold Obligations.ReservedCodesFailWithBadOp
  refine ⟨fun r s hop => ?_, fun s => rfl, fun low s => rfl⟩
  rcases decode_reserved hop with h | ⟨low, h⟩ <;> rw [h] <;> rfl

/-- The request of the instruction that a request decodes to has the same operation code (rule R41). -/
theorem encode_decode_op (r : Request) : (encode (decode r)).op = r.op := by
  rcases decode_cases r with h | h | h | h | h | h | h | h | h | h | h | h | ⟨hop, hd⟩
  on_goal 13 =>
    rw [hd]
    exact (by decide : ∀ op : BitVec 4, 12 ≤ op.toNat → (0b11#2 ++ op.extractLsb' 0 2 : BitVec 4) = op) r.op hop
  all_goals -- one code each, which `encode` writes back
    obtain ⟨hop, hd⟩ := h
    rw [hd]
    exact BitVec.eq_of_toNat_eq hop.symm

open Laws in
/-- The row of the table that an instruction's request matches is the instruction's own (rule R57). -/
theorem opcodeRow_statement (i : Instr) : OpcodeRow.Statement i := by
  cases i with
  | nop => exact OpcodeRow.nop
  | enc v w S f => exact OpcodeRow.enc v w S f
  | dec w S f => exact OpcodeRow.dec w S f
  | bfi v w S f => exact OpcodeRow.bfi v w S f
  | bfx w S f => exact OpcodeRow.bfx w S f
  | dencl v w S f => exact OpcodeRow.dencl v w S f
  | dench v w S f => exact OpcodeRow.dench v w S f
  | ddecl w S f => exact OpcodeRow.ddecl w S f
  | ddech w S f => exact OpcodeRow.ddech w S f
  | rdst => exact OpcodeRow.rdst
  | clrf => exact OpcodeRow.clrf
  | reservedB => exact OpcodeRow.reservedB
  | reservedCF low => exact OpcodeRow.reservedCF low

/-- Settles O7: the row is that of the decoded instruction, whose request has the same operation code. -/
theorem everyOperationCodeIsOneRow : Obligations.EveryOperationCodeIsOneRow := by
  unfold Obligations.EveryOperationCodeIsOneRow
  intro r
  rw [← encode_decode_op r]
  exact opcodeRow_statement (decode r)

/-- Settles O1: the model reads each printed record. -/
theorem printedRecordsDecodeToTheirRequests : Obligations.PrintedRecordsDecodeToTheirRequests := by
  unfold Obligations.PrintedRecordsDecodeToTheirRequests
  refine ⟨?enc, ?dec, ?bfi, ?bfx, ?dencl, ?ddech, ?rdst, ?clrf, ?reserved⟩ <;> decide

/-! ## The pseudo-operations (rule R56) -/

/-- `ENC` after a read that did not fail leaves the flag (rule R24). -/
theorem failAfter_enc_of_read (v : Phys) (w : RegWord) (S : Spec) (fail : Bool) :
    failAfter (.enc v w S false) fail = fail := by
  simp [failAfter, Instr.readFailed]

/-- `DEC` after a read that did not fail leaves the flag (rule R24). -/
theorem failAfter_dec_of_read (w : RegWord) (S : Spec) (fail : Bool) : failAfter (.dec w S false) fail = fail := by
  simp [failAfter, Instr.readFailed]

/-- Settles O60: each pseudo-operation is the request that its sequence presents, and `QNT` presents two, the second
with the word of the first. -/
theorem pseudoOperationsExpandAsWritten : Obligations.PseudoOperationsExpandAsWritten := by
  unfold Obligations.PseudoOperationsExpandAsWritten
  intro s k b w b' w' rest th js hth
  refine ⟨fun j i hj hjobs hin => ?request, fun v S hjobs hin => ?qnt⟩
  case request =>
    have hexpand : j.request? = some i ∧ ∀ r, j.answer r = .finished (.response r) := by
      rcases hj with ⟨v, S, rfl, rfl⟩ | ⟨x, S, rfl, rfl⟩ | ⟨x, S, rfl, rfl⟩ | ⟨r, rfl, rfl⟩ <;> exact ⟨rfl, fun _ => rfl⟩
    obtain ⟨hreq, hanswer⟩ := hexpand
    refine ⟨_, _, exec_eq_settle i s, rfl, ?_⟩
    rw [← Thread.advance_finished hjobs, ← hanswer]
    exact step_request hin hth hjobs hreq
  case qnt =>
    have hfirst := step_request hin hth hjobs rfl
    rw [effectOf_fail, failAfter_enc_of_read] at hfirst
    set e := effectOf (.enc v 0x0000 S false) s.fail
    have hsecond := step_request (s := { s with
      rsp := some e.rsp, inputs := .thread k b' w' :: rest,
      threads := s.threads.set k (th.advance (.more (.qnt v S (.second e.rsp.wordOut)))) })
      rfl (getElem?_set_thread hth _) rfl rfl
    rw [effectOf_fail, failAfter_dec_of_read, Thread.advance_more_advance, List.set_set,
      Job.answer, Thread.advance_finished hjobs] at hsecond
    exact ⟨_, _, _, _, exec_eq_settle _ s, rfl, exec_eq_settle _ s, rfl, (run_of_step hfirst).trans (run_one hsecond)⟩

end Sys2Proof.Machine
end

section
/-! SUPPORT and PROOF. The block does not read the field `ADDR` of a descriptor (rule R48 of spec/30_encoding.md). -/

namespace Sys2Proof

variable {pw rw : Nat}

/-! ## A descriptor without its address -/

/-- The fields of a descriptor of kind 0 or 2 but `ADDR`. -/
def FieldSpec.withoutAddr (S : FieldSpec pw rw) : FieldSpec pw rw := { S with addr := 0 }

/-- The fields of a descriptor of kind 1 but `ADDR`. -/
def DualSpec.withoutAddr (S : DualSpec pw rw) : DualSpec pw rw := { S with addr := 0 }

/-- What a descriptor is without `ADDR`: the kind and the other fields, or that it is illegal. -/
def Descriptor.withoutAddr : Descriptor pw rw → Descriptor pw rw
  | .scalar S => .scalar S.withoutAddr
  | .dual S => .dual S.withoutAddr
  | .bitfield S => .bitfield S.withoutAddr
  | .illegal _ => .illegal 0

section Accepts

variable (D : Descriptor pw rw)

@[simp] theorem Descriptor.forScalar_withoutAddr :
    D.withoutAddr.forScalar = D.forScalar.map FieldSpec.withoutAddr := by
  cases D with
  | scalar S => exact (apply_ite (Option.map FieldSpec.withoutAddr) (S.scalarOk = true) (some S) none).symm
  | dual | bitfield | illegal => rfl

@[simp] theorem Descriptor.forBitfield_withoutAddr :
    D.withoutAddr.forBitfield = D.forBitfield.map FieldSpec.withoutAddr := by
  cases D with
  | bitfield S => exact (apply_ite (Option.map FieldSpec.withoutAddr) (S.bitfieldOk = true) (some S) none).symm
  | scalar | dual | illegal => rfl

@[simp] theorem Descriptor.forDual_withoutAddr : D.withoutAddr.forDual = D.forDual.map DualSpec.withoutAddr := by
  cases D with
  | dual S => exact (apply_ite (Option.map DualSpec.withoutAddr) (S.ok = true) (some S) none).symm
  | scalar | bitfield | illegal => rfl

end Accepts

/-! ## Descriptors whose bits agree above `ADDR` -/

section Agree

variable {raw raw' : BitVec 160} (h : raw.toNat / 2 ^ 16 = raw'.toNat / 2 ^ 16)
include h

/-- A part of a word that stands above `ADDR` is the same in both. -/
theorem specWord_extractLsb'_eq_of_agree (k : Nat) {lo len : Nat} (hlen : lo + len ≤ 32) (hlo : 16 ≤ 32 * k + lo) :
    (specWord raw k).extractLsb' lo len = (specWord raw' k).extractLsb' lo len := by
  obtain ⟨n, hn⟩ := Nat.exists_eq_add_of_le hlo
  apply BitVec.eq_of_toNat_eq
  rw [toNat_specWord_extractLsb' raw k hlen, toNat_specWord_extractLsb' raw' k hlen, Claims.bits, Claims.bits, hn,
    Nat.pow_add, ← Nat.div_div_eq_div_mul, ← Nat.div_div_eq_div_mul, h]

/-- A word above W0 is the same in both. -/
theorem specWord_eq_of_agree {k : Nat} (hk : 1 ≤ k) : specWord raw k = specWord raw' k := by
  have hparts := specWord_extractLsb'_eq_of_agree h k (lo := 0) (len := 32) (by decide) (by omega)
  rwa [BitVec.extractLsb'_eq_self, BitVec.extractLsb'_eq_self] at hparts

/-- Descriptors whose bits agree above `ADDR` are read alike but for `ADDR`. -/
theorem withoutAddr_decodeSpec_eq_of_agree : (decodeSpec raw).withoutAddr = (decodeSpec raw').withoutAddr := by
  have hkind : specKind raw = specKind raw' := specWord_extractLsb'_eq_of_agree h 0 (by decide) (by decide)
  have h18 := specWord_extractLsb'_eq_of_agree h 0 (lo := 18) (len := 14) (by decide) (by decide)
  have h1 := specWord_eq_of_agree h (k := 1) (by decide)
  have h2 := specWord_eq_of_agree h (k := 2) (by decide)
  have h3 := specWord_eq_of_agree h (k := 3) (by decide)
  have h4 := specWord_eq_of_agree h (k := 4) (by decide)
  have hcommon : commonReservedZero raw = commonReservedZero raw' := by
    rw [commonReservedZero, commonReservedZero, h18, h1]
  have hfield : fieldReservedZero raw = fieldReservedZero raw' := by
    rw [fieldReservedZero, fieldReservedZero, h1, h4]
  have hreadField : (readFieldSpec raw).withoutAddr = (readFieldSpec raw').withoutAddr := by
    simp only [FieldSpec.withoutAddr, readFieldSpec, h1, h2, h3, h4]
  have hreadDual : (readDualSpec raw).withoutAddr = (readDualSpec raw').withoutAddr := by
    simp only [DualSpec.withoutAddr, readDualSpec, h1, h2, h3, h4]
  rcases decodeSpec_cases raw with ⟨hc, hk, hf, hd⟩ | ⟨hc, hk, hd⟩ | ⟨hc, hk, hf, hd⟩ | ⟨hi, hd⟩ <;>
    rw [hd, Descriptor.withoutAddr]
  · rw [decodeSpec_scalar (hcommon ▸ hc) (hkind ▸ BitVec.eq_of_toNat_eq hk) (hfield ▸ hf), Descriptor.withoutAddr,
      hreadField]
  · rw [decodeSpec_dual (hcommon ▸ hc) (hkind ▸ BitVec.eq_of_toNat_eq hk), Descriptor.withoutAddr, hreadDual]
  · rw [decodeSpec_bitfield (hcommon ▸ hc) (hkind ▸ BitVec.eq_of_toNat_eq hk) (hfield ▸ hf), Descriptor.withoutAddr,
      hreadField]
  · rw [rawIllegal, hkind, hcommon, hfield, ← rawIllegal] at hi
    rw [decodeSpec_illegal hi, Descriptor.withoutAddr]

end Agree

end Sys2Proof

namespace Sys2Proof.Machine

open Sys2Proof

/-! ## The block without the address -/

/-- An acceptance of fields rewritten by a map that the operation does not see. -/
theorem accept_map {C : Config.Params} {α β : Type} (g : α → β) (spec : Option α) (rdFail : Bool) (w : RegWord)
    (fail : Bool) (body : β → Accepted → PortResponse C) :
    accept (spec.map g) rdFail w fail body = accept spec rdFail w fail fun S => body (g S) := by
  cases spec <;> rfl

section WithoutAddr

variable {C : Config.Params} (v : BitVec C.PW) (w : RegWord) (D : Descriptor C.PW C.RW) (f fail : Bool)

theorem Block.enc_withoutAddr : Block.enc v w D.withoutAddr f fail = Block.enc v w D f fail := by
  rw [Block.enc, Descriptor.forScalar_withoutAddr, accept_map]
  rfl

theorem Block.dec_withoutAddr : Block.dec w D.withoutAddr f fail = Block.dec w D f fail := by
  rw [Block.dec, Descriptor.forScalar_withoutAddr, accept_map]
  rfl

theorem Block.bfi_withoutAddr : Block.bfi v w D.withoutAddr f fail = Block.bfi v w D f fail := by
  rw [Block.bfi, Descriptor.forBitfield_withoutAddr, accept_map]
  rfl

theorem Block.bfx_withoutAddr : Block.bfx w D.withoutAddr f fail = Block.bfx w D f fail := by
  rw [Block.bfx, Descriptor.forBitfield_withoutAddr, accept_map]
  rfl

theorem Block.dencl_withoutAddr : Block.dencl v w D.withoutAddr f fail = Block.dencl v w D f fail := by
  rw [Block.dencl, Descriptor.forDual_withoutAddr, accept_map]
  rfl

theorem Block.dench_withoutAddr : Block.dench v w D.withoutAddr f fail = Block.dench v w D f fail := by
  rw [Block.dench, Descriptor.forDual_withoutAddr, accept_map]
  rfl

theorem Block.ddecl_withoutAddr : Block.ddecl w D.withoutAddr f fail = Block.ddecl w D f fail := by
  rw [Block.ddecl, Descriptor.forDual_withoutAddr, accept_map]
  rfl

theorem Block.ddech_withoutAddr : Block.ddech w D.withoutAddr f fail = Block.ddech w D f fail := by
  rw [Block.ddech, Descriptor.forDual_withoutAddr, accept_map]
  rfl

/-- The block answers a request as it answers the request with `ADDR` taken out of its descriptor. -/
theorem Block.run_withoutAddr (r : PortRequest C) :
    Block.run { r with spec := r.spec.withoutAddr } fail = Block.run r fail := by
  simp only [Block.run, Block.enc_withoutAddr, Block.dec_withoutAddr, Block.bfi_withoutAddr, Block.bfx_withoutAddr,
    Block.dencl_withoutAddr, Block.dench_withoutAddr, Block.ddecl_withoutAddr, Block.ddech_withoutAddr]

end WithoutAddr

/-- Settles O34: the block reads a descriptor without its address, and both descriptors are one without theirs. -/
theorem addressFieldIsNotRead : Obligations.AddressFieldIsNotRead := by
  unfold Obligations.AddressFieldIsNotRead
  intro r spec' s h
  have hspec : (decodeSpec spec').withoutAddr = (decodeSpec r.spec).withoutAddr :=
    withoutAddr_decodeSpec_eq_of_agree h.symm
  rw [exec_decode, exec_decode, ← Block.run_withoutAddr, ← Block.run_withoutAddr _ r.record]
  simp only [Request.record, hspec]

end Sys2Proof.Machine
end

section
/-!
SUPPORT. The merge of rule R59 as a choice between two words, and the field of a word under it (rules R50, R59, R66).
-/

namespace Sys2Proof

/-! ## The merge -/

section Merge

variable {w m n p q : RegWord}

/-- A field that lies inside the mask has no bit outside it. -/
theorem getElem_of_inside (hp : p &&& m = p) {i : Nat} (hi : i < 16) (hm : m[i] = false) : p[i] = false := by
  rw [← hp, BitVec.getElem_and, hm, Bool.and_false]

/-- A merge chooses bit by bit: the new field inside the mask, the old word outside it. -/
theorem getElem_merge (hp : p &&& m = p) {i : Nat} (hi : i < 16) :
    (merge w m p)[i] = if m[i] then p[i] else w[i] := by
  cases hm : m[i] with
  | true => simp [merge, hm]
  | false => simp [merge, hm, getElem_of_inside hp hi hm]

/-- A merge keeps the old word outside the mask. -/
theorem merge_and_not (hp : p &&& m = p) : merge w m p &&& ~~~m = w &&& ~~~m := by
  ext i hi
  rw [BitVec.getElem_and, BitVec.getElem_and, BitVec.getElem_not, getElem_merge hp hi]
  cases m[i] <;> simp

/-- A merge is the new field inside the mask, whatever the old word was. -/
theorem merge_and_mask (hp : p &&& m = p) : merge w m p &&& m = p := by
  ext i hi
  rw [BitVec.getElem_and, getElem_merge hp hi]
  cases hm : m[i] with
  | true => simp
  | false => simp [getElem_of_inside hp hi hm]

/-- Merging in what the word already holds inside the mask changes nothing. -/
theorem merge_and_self : merge w m (w &&& m) = w := by
  ext i hi
  rw [getElem_merge (by rw [BitVec.and_assoc, BitVec.and_self]) hi]
  cases hm : m[i] <;> simp [hm]

/-- A merge under the empty mask changes nothing. -/
theorem merge_empty (hp : p &&& 0#16 = p) : merge w 0#16 p = w := by
  rw [merge, ← hp, BitVec.and_zero, BitVec.not_zero, BitVec.and_allOnes, BitVec.or_zero]

/-- A merge under the full mask is the new field. -/
theorem merge_full : merge w (BitVec.allOnes 16) p = p := by simp [merge]

/-- Of two merges under one mask the last one wins. -/
theorem merge_merge_same (hp : p &&& m = p) (hq : q &&& m = q) : merge (merge w m p) m q = merge w m q := by
  ext i hi
  rw [getElem_merge hq hi, getElem_merge hq hi, getElem_merge hp hi]
  cases m[i] <;> simp

/-- Disjoint masks have no bit in common. -/
theorem not_getElem_both (h : m &&& n = 0) {i : Nat} (hi : i < 16) : (m[i] && n[i]) = false := by
  rw [← BitVec.getElem_and, h]
  exact BitVec.getElem_zero hi

/-- A merge leaves alone what a disjoint mask selects. -/
theorem merge_and_disjoint (hp : p &&& m = p) (h : m &&& n = 0) : merge w m p &&& n = w &&& n := by
  ext i hi
  have hmn := not_getElem_both h hi
  rw [BitVec.getElem_and, BitVec.getElem_and, getElem_merge hp hi]
  cases hm : m[i] <;> simp_all

/-- Merges under disjoint masks commute. -/
theorem merge_comm (hp : p &&& m = p) (hq : q &&& n = q) (h : m &&& n = 0) :
    merge (merge w m p) n q = merge (merge w n q) m p := by
  ext i hi
  have hmn := not_getElem_both h hi
  rw [getElem_merge hq hi, getElem_merge hp hi, getElem_merge hp hi, getElem_merge hq hi]
  cases hm : m[i] <;> simp_all

end Merge

/-! ## The field of a word -/

section Field

variable {pw rw : Nat} (S : FieldSpec pw rw)

/-- A field value in its place lies inside the field mask. -/
theorem FieldSpec.place_and_fm {f : Nat} (hf : f < 2 ^ S.width.toNat) : S.place f &&& S.fm = S.place f := by
  apply BitVec.eq_of_getLsbD_eq
  intro i hi
  rw [BitVec.getLsbD_and, S.getLsbD_fm, S.getLsbD_place]
  by_cases hw : i < S.offset.toNat + S.width.toNat
  · by_cases ho : S.offset.toNat ≤ i <;> simp [hi, ho, hw]
  · have : f.testBit (i - S.offset.toNat) = false :=
      Nat.testBit_lt_two_pow (hf.trans_le (Nat.pow_le_pow_right (by omega) (by omega)))
    simp [this]

/-- The field of a word, put back in its place, is what the field mask selects. -/
theorem FieldSpec.place_fieldOf (w : RegWord) : S.place (S.fieldOf w) = w &&& S.fm := by
  apply BitVec.eq_of_getLsbD_eq
  intro i hi
  rw [BitVec.getLsbD_and, S.getLsbD_fm, S.getLsbD_place, S.testBit_fieldOf]
  by_cases ho : S.offset.toNat ≤ i
  · have hw : i - S.offset.toNat < S.width.toNat ↔ i < S.offset.toNat + S.width.toNat := by omega
    simp [hi, ho, hw, Bool.and_comm]
  · simp [ho]

/-- A field value in its place is read back as it is, if the field lies inside the word. -/
theorem FieldSpec.fieldOf_place (hplace : S.offset.toNat + S.width.toNat ≤ 16) {f : Nat}
    (hf : f < 2 ^ S.width.toNat) : S.fieldOf (S.place f) = f := by
  apply Nat.eq_of_testBit_eq
  intro j
  rw [S.testBit_fieldOf, S.getLsbD_place]
  by_cases hj : j < S.width.toNat
  · simp [hj, (by omega : S.offset.toNat + j < 16)]
  · have : f.testBit j = false :=
      Nat.testBit_lt_two_pow (hf.trans_le (Nat.pow_le_pow_right (by omega) (by omega)))
    simp [hj, this]

/-- The field depends on the word only through the field mask (rule R66). -/
theorem FieldSpec.fieldOf_congr {w w' : RegWord} (h : w &&& S.fm = w' &&& S.fm) : S.fieldOf w = S.fieldOf w' := by
  apply Nat.eq_of_testBit_eq
  intro j
  have hbit := congrArg (fun x : RegWord => x.getLsbD (S.offset.toNat + j)) h
  simp only [BitVec.getLsbD_and, S.getLsbD_fm] at hbit
  rw [S.testBit_fieldOf, S.testBit_fieldOf]
  by_cases hj : j < S.width.toNat
  · by_cases hi : S.offset.toNat + j < 16
    · simpa [hj, hi] using hbit
    · rw [BitVec.getLsbD_of_ge _ _ (by omega), BitVec.getLsbD_of_ge _ _ (by omega)]
  · simp [hj]

/-! ## The word that `ENC` produces (rule R59) -/

variable (v : Int) (w : RegWord)

theorem FieldSpec.fieldFor_lt : S.fieldFor v < 2 ^ S.width.toNat := by
  rw [FieldSpec.fieldFor, S.and_wm]
  exact Nat.mod_lt _ (by positivity)

theorem FieldSpec.fieldFor_congr {v v' : Int} (h : S.quantized v = S.quantized v') : S.fieldFor v = S.fieldFor v' := by
  rw [FieldSpec.fieldFor, h]
  rfl

/-- The field that `ENC` stores lies inside the field mask. -/
theorem FieldSpec.place_fieldFor_and_fm : S.place (S.fieldFor v) &&& S.fm = S.place (S.fieldFor v) :=
  S.place_and_fm (S.fieldFor_lt v)

/-- What is read from the field after an encode is what was stored, with or without `Fits`. -/
theorem FieldSpec.fieldOf_encodeWord_eq_fieldFor (hplace : S.offset.toNat + S.width.toNat ≤ 16) :
    S.fieldOf (S.encodeWord v w) = S.fieldFor v := by
  have hinside := S.place_fieldFor_and_fm v
  calc S.fieldOf (S.encodeWord v w)
      = S.fieldOf (S.place (S.fieldFor v)) := S.fieldOf_congr ((merge_and_mask hinside).trans hinside.symm)
    _ = S.fieldFor v := S.fieldOf_place hplace (S.fieldFor_lt v)

/-- An encode reads the value only through its quantized value. -/
theorem FieldSpec.encodeWord_congr {v v' : Int} (h : S.quantized v = S.quantized v') :
    S.encodeWord v w = S.encodeWord v' w := by
  rw [FieldSpec.encodeWord, S.fieldFor_congr h]
  rfl

/-- Encoding the quantized value of the field itself gives the word back (rule R67). -/
theorem FieldSpec.encodeWord_eq_self (h : S.quantized v = S.fieldOf w) : S.encodeWord v w = w := by
  have hfield : S.fieldFor v = S.fieldOf w := by
    rw [FieldSpec.fieldFor, h, Int.toNat_natCast, FieldSpec.fieldOf, Nat.and_assoc, Nat.and_self]
  rw [FieldSpec.encodeWord, hfield, S.place_fieldOf, merge_and_self]

/-- An encode of a value that is quantized to zero clears the field (rule R70). -/
theorem FieldSpec.encodeWord_of_quantized_zero (h : S.quantized v = 0) : S.encodeWord v w = w &&& ~~~S.fm := by
  simp [FieldSpec.encodeWord, FieldSpec.fieldFor, h, merge, FieldSpec.place]

end Field

/-! ## The quantized value of a decoded or clamped value -/

section Quantized

variable {pw rw : Nat} {S : FieldSpec pw rw} (h : S.scalarOk = true)
include h

/-- A value on the grid of `RES` from `MIN`, not above `MAX`, is quantized to its own number of steps. -/
theorem FieldSpec.quantized_of_grid {n : Int} (hn : 0 ≤ n) (hmax : S.minVal.toInt + n * S.res.toNat ≤ S.maxVal.toInt) :
    S.quantized (S.minVal.toInt + n * S.res.toNat) = n := by
  obtain ⟨-, -, hres, -⟩ := FieldSpec.of_scalarOk h
  have hsteps : 0 ≤ n * S.res.toNat := by positivity
  rw [FieldSpec.quantized, quantize, fdiv, clamp_of_mem (by omega) hmax, add_sub_cancel_left,
    Int.mul_ediv_cancel _ (by omega)]

/-- A decoded value that is not above `MAX` is quantized to the field it came from (rule R67). -/
theorem FieldSpec.quantized_decodeValue {w : RegWord} (hmax : S.decodeValue w ≤ S.maxVal.toInt) :
    S.quantized (S.decodeValue w) = S.fieldOf w := by
  rw [FieldSpec.decodeValue, add_comm] at hmax ⊢
  exact FieldSpec.quantized_of_grid h (by positivity) hmax

/-- Above `MAX` every value is quantized as `MAX` is. -/
theorem FieldSpec.quantized_of_max_le {v : Int} (hv : S.maxVal.toInt ≤ v) :
    S.quantized v = S.quantized S.maxVal.toInt := by
  obtain ⟨-, hle, -, -⟩ := FieldSpec.of_scalarOk h
  rw [FieldSpec.quantized, FieldSpec.quantized, quantize, quantize, clamp_eq_max_min hle, clamp_eq_max_min hle,
    min_eq_right hv, min_self]

/-- A range shorter than one step leaves the quantized value zero (rule R70). -/
theorem FieldSpec.quantized_of_short_range (hshort : S.maxVal.toInt - S.minVal.toInt < S.res.toNat) (v : Int) :
    S.quantized v = 0 := by
  obtain ⟨-, hle, hres, -⟩ := FieldSpec.of_scalarOk h
  apply le_antisymm _ (FieldSpec.quantized_nonneg h v)
  calc S.quantized v ≤ (S.maxVal.toInt - S.minVal.toInt) / S.res.toNat := quantize_le_top hle (by omega)
    _ = 0 := Int.ediv_eq_zero_of_lt (by omega) hshort

end Quantized

end Sys2Proof
end

section
/-!
SUPPORT. The vocabulary of section 3 of spec/40_scalar_codec.md, as the statements write it, in terms of the model's
definitions.
-/

namespace Sys2Proof.Claims

open Sys2Proof Sys2Proof.Machine

theorem mask_eq_fm (S : FieldSpec Config.PW Config.RW) : mask S = S.fm := by
  rw [mask, FieldSpec.fm, FieldSpec.wm, Nat.shiftLeft_eq]

theorem fieldOf_eq (w : RegWord) (S : FieldSpec Config.PW Config.RW) : fieldOf w S = S.fieldOf w :=
  (S.fieldOf_eq w).symm

/-- What quantizing takes away from the clamped value is the rest by `RES` (rule R64). -/
theorem clamped_sub_Q (v : Int) (S : FieldSpec Config.PW Config.RW) :
    clamped v S - Q v S = (clamped v S - S.minVal.toInt) % S.res.toNat := by
  have := Int.mul_ediv_add_emod (clamped v S - S.minVal.toInt) S.res.toNat
  rw [mul_comm] at this
  unfold Q
  omega

section Scalar

variable {S : FieldSpec Config.PW Config.RW} (h : S.scalarOk = true)
include h

/-- `field(v, S)` is the field that `ENC` stores. -/
theorem field_eq_fieldFor (v : Int) : field v S = S.fieldFor v := by
  have hq := FieldSpec.quantized_nonneg h v
  have hfield : field v S = S.quantized v % 2 ^ S.width.toNat := by rw [FieldSpec.quantized_eq_quotient h]; rfl
  rw [hfield, FieldSpec.fieldFor, S.and_wm]
  push_cast
  rw [Int.toNat_of_nonneg hq]

/-- `Q(v, S)` is the quantized value on the grid of `RES` from `MIN`. -/
theorem Q_eq (v : Int) : Q v S = S.minVal.toInt + S.quantized v * S.res.toNat := by
  rw [FieldSpec.quantized_eq_quotient h]
  rfl

/-- `Q(v, S)` is not above `MAX`. -/
theorem Q_le_max (v : Int) : Q v S ≤ S.maxVal.toInt := by
  obtain ⟨-, hle, hres, -⟩ := FieldSpec.of_scalarOk h
  have hrest := Int.emod_nonneg (clamped v S - S.minVal.toInt) (by omega : (S.res.toNat : Int) ≠ 0)
  have hsub := clamped_sub_Q v S
  unfold clamped at hrest hsub
  omega

/-- Quantizing does not change the quantized value (rule R69). -/
theorem quantized_Q (v : Int) : S.quantized (Q v S) = S.quantized v := by
  have hmax := Q_le_max h v
  rw [Q_eq h] at hmax ⊢
  exact FieldSpec.quantized_of_grid h (FieldSpec.quantized_nonneg h v) hmax

/-- The field is the quantized value if the descriptor `Fits` (rule R63). -/
theorem field_of_fits (hfits : Fits S) (v : Int) : field v S = S.quantized v := by
  obtain ⟨hplace, -⟩ := FieldSpec.of_scalarOk h
  rw [field_eq_fieldFor h, ← S.fieldOf_encodeWord_eq_fieldFor v 0 hplace,
    FieldSpec.fieldOf_encodeWord h (FieldSpec.quantized_le_wm h hfits v)]

/-- What `ENC` stores is `field(v, S)`. -/
theorem fieldOf_ENC (v : Phys) (w : RegWord) : (fieldOf (ENC v w S) S : Int) = field v.toInt S := by
  obtain ⟨hplace, -⟩ := FieldSpec.of_scalarOk h
  rw [fieldOf_eq, ENC_eq h, S.fieldOf_encodeWord_eq_fieldFor _ _ hplace, field_eq_fieldFor h]

/-- `ENC` is a merge under the field mask. -/
theorem ENC_eq_merge (v : Phys) (w : RegWord) : ENC v w S = merge w (mask S) (S.place (S.fieldFor v.toInt)) := by
  rw [ENC_eq h, mask_eq_fm]
  rfl

/-- `DEC` depends on the word only through the field (rule R66). -/
theorem DEC_congr {w w' : RegWord} (hw : w &&& mask S = w' &&& mask S) : DEC w S = DEC w' S := by
  rw [mask_eq_fm] at hw
  apply BitVec.eq_of_toInt_eq
  rw [toInt_DEC h, toInt_DEC h, FieldSpec.decodeValue, FieldSpec.decodeValue, S.fieldOf_congr hw]

end Scalar

/-- The field that `ENC` stores lies inside the mask as the statements write it. -/
theorem place_and_mask (S : FieldSpec Config.PW Config.RW) (v : Int) :
    S.place (S.fieldFor v) &&& mask S = S.place (S.fieldFor v) := by
  rw [mask_eq_fm, S.place_fieldFor_and_fm]

end Sys2Proof.Claims
end

section
/-! PROOF. `ENC` and `DEC` as instructions (rules R59 and R60). -/

namespace Sys2Proof.Machine

open Sys2Proof

/-- Settles O16: the bits of the word that `ENC` produces, on the word that acceptance takes. -/
theorem encMergesTheQuantizedValue : Obligations.EncMergesTheQuantizedValue := by
  unfold Obligations.EncMergesTheQuantizedValue
  refine ⟨fun r => decode_enc, fun v w S f s => (exec_of_not_specOk · s), fun v w S f s h => ?_⟩
  refine ⟨_, exec_enc v w f s h, fun i hi => ?_⟩
  rw [S.getLsbD_encodeWord _ _ hi, getLsbD_takenWord, FieldSpec.quantized_eq_quotient h]

/-- Settles O17: the value that `DEC` produces fits a physical value, so it is answered exactly. -/
theorem decScalesTheField : Obligations.DecScalesTheField := by
  unfold Obligations.DecScalesTheField
  refine ⟨fun r => decode_dec, fun w S f s => (exec_of_not_specOk · s), fun w S f s h => ?_⟩
  obtain ⟨-, -, hlo, hhi⟩ := FieldSpec.decodeValue_bounds h w
  refine ⟨_, exec_dec w f s h, ?_⟩
  rw [toInt_decoded, toInt_ofInt_phys (by decide) hlo hhi, FieldSpec.decodeValue, S.fieldOf_eq]

end Sys2Proof.Machine
end

section
/-! PROOF. The laws of the scalar codec (rules R64 to R70). -/

namespace Sys2Proof.Machine

open Sys2Proof Claims

/-- Settles O35: the decode of the encode gives `Q(v)`, and what it loses is the rest by `RES`. -/
theorem roundTripClampLaw : Obligations.RoundTripClampLaw := by
  unfold Obligations.RoundTripClampLaw
  intro v w S s h hfits
  obtain ⟨-, -, hres, -⟩ := FieldSpec.of_scalarOk h
  obtain ⟨-, -, hlo, hhi⟩ := FieldSpec.decodeValue_bounds h (S.encodeWord v.toInt w)
  have hQ : (BitVec.ofInt Config.PW (S.decodeValue (S.encodeWord v.toInt w))).toInt = Q v.toInt S := by
    rw [toInt_ofInt_phys (by decide) hlo hhi, FieldSpec.decodeValue_encodeWord h hfits]
  refine ⟨S.encodeWord v.toInt w, BitVec.ofInt Config.PW (S.decodeValue (S.encodeWord v.toInt w)), _, _,
    exec_enc v w false s h, rfl, exec_dec _ false _ h, rfl, hQ, ?_⟩
  have hrest := clamped_sub_Q v.toInt S
  have hnonneg := Int.emod_nonneg (clamped v.toInt S - S.minVal.toInt) (by omega : (S.res.toNat : Int) ≠ 0)
  have hlt := Int.emod_lt_of_pos (clamped v.toInt S - S.minVal.toInt) (by omega : (0 : Int) < S.res.toNat)
  rw [hQ]
  exact ⟨by omega, by omega, by omega⟩

/-- Settles O36: what the encode stored is read back, and it is the quotient's remainder by `2^WIDTH`. -/
theorem generalRoundTripWraps : Obligations.GeneralRoundTripWraps := by
  unfold Obligations.GeneralRoundTripWraps
  refine ⟨fun v w S h => ?law, by decide⟩
  obtain ⟨hplace, -⟩ := FieldSpec.of_scalarOk h
  rw [toInt_DEC h, FieldSpec.decodeValue, ← Claims.fieldOf_eq, fieldOf_ENC h, add_comm]
  rfl

/-- Settles O37: under `Fits` the field is the quantized value, which is monotonic. -/
theorem fieldIsMonotonicUnderFits : Obligations.FieldIsMonotonicUnderFits := by
  unfold Obligations.FieldIsMonotonicUnderFits
  refine ⟨fun S v1 v2 w h hfits hv => ?law, by decide⟩
  obtain ⟨-, hle, hres, -⟩ := FieldSpec.of_scalarOk h
  have hfield : field v1.toInt S ≤ field v2.toInt S := by
    rw [field_of_fits h hfits, field_of_fits h hfits]
    exact quantize_mono hle (by omega) hv
  refine ⟨hfield, ?_⟩
  zify
  rwa [fieldOf_ENC h, fieldOf_ENC h]

/-- Settles O38: `ENC` is a merge under the field mask, and `DEC` reads nothing outside the mask. -/
theorem encodePreservesAndIsIndependent : Obligations.EncodePreservesAndIsIndependent := by
  unfold Obligations.EncodePreservesAndIsIndependent
  intro S T v u w w' hS hT
  have hv := place_and_mask S v.toInt
  have hu := place_and_mask S u.toInt
  simp only [ENC_eq_merge hS, ENC_eq_merge hT]
  refine ⟨merge_and_not hv, ?stored, DEC_congr hS, fun hdisjoint => ⟨?decode, ?commute⟩, merge_merge_same hv hu⟩
  case stored =>
    rw [merge_and_mask hv, field_eq_fieldFor hS, Int.toNat_natCast, FieldSpec.place, Nat.shiftLeft_eq]
  case decode => exact DEC_congr hT (merge_and_disjoint hv hdisjoint)
  case commute => exact merge_comm hv (place_and_mask T u.toInt) hdisjoint

/-- Settles O39: a decoded value lies on the grid, and quantizing it gives its field or, above `MAX`, that of `MAX`. -/
theorem decodeRangeAndReencode : Obligations.DecodeRangeAndReencode := by
  unfold Obligations.DecodeRangeAndReencode
  refine ⟨fun S w h => ?law, by decide⟩
  obtain ⟨hlo, hhi, -, -⟩ := FieldSpec.decodeValue_bounds h w
  rw [fieldOf_ENC h, ENC_eq h, toInt_DEC h, ← S.wm_int]
  refine ⟨hlo, hhi, ?grid, fun hmax => ?back, fun hmax => ?top⟩
  case grid =>
    rw [FieldSpec.decodeValue, add_sub_cancel_right]
    exact dvd_mul_left _ _
  case back => exact S.encodeWord_eq_self _ w (FieldSpec.quantized_decodeValue h hmax)
  case top =>
    rw [field_eq_fieldFor h, field_eq_fieldFor h, S.fieldFor_congr (FieldSpec.quantized_of_max_le h hmax.le)]

/-- Settles O40: quantizing does not change the quantized value, on which both `Q` and `ENC` rest. -/
theorem quantizationIsIdempotentUnderFits : Obligations.QuantizationIsIdempotentUnderFits := by
  unfold Obligations.QuantizationIsIdempotentUnderFits
  intro S v q w h _ hq
  have hquantized := quantized_Q h v.toInt
  constructor
  · rw [Q_eq h (Q v.toInt S), hquantized, ← Q_eq h]
  · rw [ENC_eq h, ENC_eq h, hq]
    exact S.encodeWord_congr w hquantized

/-- Settles O41: an empty mask, a full mask, and the two ranges that hold less than one step. -/
theorem degenerateDescriptorsOfTheCornerTable : Obligations.DegenerateDescriptorsOfTheCornerTable := by
  unfold Obligations.DegenerateDescriptorsOfTheCornerTable
  intro S v w w' h
  obtain ⟨-, -, hres, -⟩ := FieldSpec.of_scalarOk h
  have hshort (hrange : S.maxVal.toInt - S.minVal.toInt < S.res.toNat) : ENC v w S = w &&& ~~~mask S := by
    rw [ENC_eq h, mask_eq_fm]
    exact S.encodeWord_of_quantized_zero _ w (FieldSpec.quantized_of_short_range h hrange _)
  refine ⟨fun hwidth => ⟨?keep, ?min⟩, fun hwidth hoffset => ⟨?overwrite, ?whole⟩, fun hpoint => ?point, hshort⟩
  case keep =>
    have hinside := place_and_mask S v.toInt
    have hmask : mask S = 0#16 := by simp [mask, hwidth]
    rw [hmask] at hinside
    rw [ENC_eq_merge h, hmask, merge_empty hinside]
  case min =>
    apply BitVec.eq_of_toInt_eq
    rw [toInt_DEC h, FieldSpec.decodeValue, S.fieldOf_eq, hwidth]
    simp [Nat.mod_one]
  case overwrite =>
    have hmask : mask S = BitVec.allOnes 16 := by simp [mask, hwidth, hoffset]
    rw [ENC_eq_merge h, ENC_eq_merge h, hmask, merge_full, merge_full]
  case whole =>
    have hw := w.isLt
    rw [toInt_DEC h, FieldSpec.decodeValue, S.fieldOf_eq, hwidth, hoffset]
    simp [Nat.mod_eq_of_lt hw]
  case point =>
    apply hshort
    rw [hpoint]
    omega

end Sys2Proof.Machine
end

section
/-!
SUPPORT. A half of a word: the byte that an encode of a dual-value descriptor merges and a decode reads (rules R27, R51
and R73 to R79 of spec/41_dual_codec.md), the same for the low and the high byte.
-/

namespace Sys2Proof

/-! ## The halves of a word -/

/-- `place` puts a byte into one half of a word, and `byte` reads that half. -/
structure IsHalf (place : Byte → RegWord) (byte : RegWord → Byte) : Prop where
  byte_place : ∀ b, byte (place b) = b
  byte_and : ∀ w w', byte (w &&& w') = byte w &&& byte w'
  place_and : ∀ a b, place a &&& place b = place (a &&& b)
  place_mono : ∀ {a b : Byte}, a.toNat ≤ b.toNat → (place a).toNat ≤ (place b).toNat

/-- The number of a byte in the low half (rule R51). -/
theorem toNat_zeroExtend_byte (b : Byte) : (b.zeroExtend 16 : RegWord).toNat = b.toNat :=
  BitVec.toNat_setWidth_of_le (by decide)

/-- The number of a byte in the high half (rule R51). -/
theorem toNat_zeroExtend_shiftLeft (b : Byte) : (b.zeroExtend 16 <<< 8 : RegWord).toNat = b.toNat * 256 := by
  have hb := b.isLt
  rw [BitVec.toNat_shiftLeft, toNat_zeroExtend_byte, Nat.shiftLeft_eq, Nat.mod_eq_of_lt (by omega)]

/-- The low byte of a word is a half of it (rules R27 and R51). -/
theorem isHalf_low : IsHalf (fun b => b.zeroExtend 16) lowByte where
  byte_place b := by
    apply BitVec.eq_of_toNat_eq
    rw [toNat_lowByte, toNat_zeroExtend_byte, Nat.mod_eq_of_lt b.isLt]
  byte_and w w' := BitVec.extractLsb'_and
  place_and a b := BitVec.setWidth_and.symm
  place_mono h := by rwa [toNat_zeroExtend_byte, toNat_zeroExtend_byte]

/-- The high byte of a word is a half of it (rules R27 and R51). -/
theorem isHalf_high : IsHalf (fun b => b.zeroExtend 16 <<< 8) highByte where
  byte_place b := by
    apply BitVec.eq_of_toNat_eq
    rw [toNat_highByte, toNat_zeroExtend_shiftLeft, Nat.mul_div_cancel _ (by decide)]
  byte_and w w' := BitVec.extractLsb'_and
  place_and a b := by simp [BitVec.shiftLeft_and_distrib]
  place_mono h := by
    rw [toNat_zeroExtend_shiftLeft, toNat_zeroExtend_shiftLeft]
    exact Nat.mul_le_mul_right 256 h

/-- The two halves have no bit in common (rule R51). -/
theorem lowHalf_and_highHalf (a b : Byte) : (a.zeroExtend 16 : RegWord) &&& (b.zeroExtend 16 <<< 8) = 0 := by
  apply BitVec.eq_of_getLsbD_eq
  intro i hi
  by_cases h : i < 8
  · simp [h]
  · simp [BitVec.getLsbD_of_ge a i (by omega)]

/-! ## The field of a sub-field -/

section SubField

variable {pw rw : Nat} (F : SubField pw rw)

/-- The field that an encode stores lies inside the mask. -/
theorem SubField.fieldFor_and_mask (v : Int) : F.fieldFor v &&& F.mask = F.fieldFor v := by
  rw [SubField.fieldFor, BitVec.and_assoc, BitVec.and_self]

variable {F} (h : F.ok = true)
include h

/-- The field that an encode stores is the quantized value under the mask (rules R73 and R78). -/
theorem SubField.toNat_fieldFor (v : Int) : (F.fieldFor v).toNat = (F.quantized v).toNat &&& F.mask.toNat := by
  apply Nat.eq_of_testBit_eq
  intro i
  rw [BitVec.testBit_toNat, SubField.getLsbD_fieldFor h, Nat.testBit_and, BitVec.testBit_toNat]

/-- Under a contiguous mask the field is the quantized value itself (rule R79). -/
theorem SubField.toNat_fieldFor_of_contiguous {k : Nat} (hk : F.mask.toNat = 2 ^ k - 1) (v : Int) :
    ((F.fieldFor v).toNat : Int) = F.quantized v := by
  obtain ⟨-, hnonneg, hle⟩ := SubField.quantized_bounds h v
  have hpow := Nat.one_le_two_pow (n := k)
  rw [SubField.toNat_fieldFor h, hk, Nat.and_two_pow_sub_one_of_lt_two_pow (by omega), Int.toNat_of_nonneg hnonneg]

/-- What quantizing takes away from the clamped value is the rest by `RES` (rule R79). -/
theorem SubField.clamp_sub_quantized (v : Int) :
    max F.minVal.toInt (min v F.impliedMax) - (F.minVal.toInt + F.quantized v * F.res.toNat) =
      (clamp v F.minVal.toInt F.impliedMax - F.minVal.toInt) % F.res.toNat := by
  obtain ⟨hle, -⟩ := SubField.quantized_bounds h v
  have hrest := quantize_mul_add (lo := F.minVal.toInt) (hi := F.impliedMax) (res := F.res.toNat) (v := v)
  rw [← clamp_eq_max_min hle, SubField.quantized]
  omega

end SubField

/-! ## A byte merged into a half -/

section Half

variable {place : Byte → RegWord} {byte : RegWord → Byte} (hhalf : IsHalf place byte)
include hhalf

variable {pw rw : Nat} (F : SubField pw rw) (v : Int) (w : RegWord)

/-- The field in its place lies inside the mask in its place. -/
theorem IsHalf.place_fieldFor_and_mask : place (F.fieldFor v) &&& place F.mask = place (F.fieldFor v) := by
  rw [hhalf.place_and, F.fieldFor_and_mask]

/-- The decode of a half reads the field that was merged into it (rule R79). -/
theorem IsHalf.decodeByte_merge : F.decodeByte (byte (merge w (place F.mask) (place (F.fieldFor v)))) =
    F.minVal.toInt + (F.fieldFor v).toNat * F.res.toNat := by
  have hfield : byte (merge w (place F.mask) (place (F.fieldFor v))) &&& F.mask = F.fieldFor v := by
    calc byte (merge w (place F.mask) (place (F.fieldFor v))) &&& F.mask
        = byte (merge w (place F.mask) (place (F.fieldFor v)) &&& place F.mask) := by
          rw [hhalf.byte_and, hhalf.byte_place]
      _ = byte (place (F.fieldFor v)) := by rw [merge_and_mask (hhalf.place_fieldFor_and_mask F v)]
      _ = F.fieldFor v := hhalf.byte_place _
  rw [SubField.decodeByte, hfield, add_comm]

end Half

end Sys2Proof

namespace Sys2Proof.Claims

open Sys2Proof Sys2Proof.Machine

/-! ## The value of a decode -/

section Decode

variable {S : DualSpec Config.PW Config.RW} (h : S.ok = true) (w : RegWord)
include h

/-- `DDECL` of the machine reads the low byte alone (rule R75). -/
theorem DDECL_eq : DDECL w S = BitVec.ofInt Config.PW (S.sub0.decodeByte (lowByte w)) := by
  simp [DDECL, physOut, response, exec_ddecl _ _ _ h]

/-- `DDECH` of the machine reads the high byte alone (rule R76). -/
theorem DDECH_eq : DDECH w S = BitVec.ofInt Config.PW (S.sub1.decodeByte (highByte w)) := by
  simp [DDECH, physOut, response, exec_ddech _ _ _ h]

end Decode

/-! ## The laws of one half (rule R79) -/

/-- An encode that merges the field into its half and a decode that reads that half obey the laws of rule R79. -/
theorem halfLaws_of_isHalf {F : SubField Config.PW Config.RW} (h : F.ok = true) {place : Byte → RegWord}
    {byte : RegWord → Byte} (hhalf : IsHalf place byte) {enc : Phys → RegWord → RegWord} {dec : RegWord → Phys}
    (henc : ∀ v w, enc v w = merge w (place F.mask) (place (F.fieldFor v.toInt)))
    (hdec : ∀ w, (dec w).toInt = F.decodeByte (byte w)) : halfLaws F enc dec place := by
  obtain ⟨hres, -⟩ := SubField.of_ok h
  have hround (v : Phys) (w : RegWord) :
      (dec (enc v w)).toInt = F.minVal.toInt + (F.fieldFor v.toInt).toNat * F.res.toNat := by
    rw [hdec, henc, hhalf.decodeByte_merge]
  refine ⟨fun v w => ?masked, fun ⟨k, _, hk⟩ v w => ?exact, fun ⟨k, _, hk⟩ v1 v2 hv => ?mono, fun v w => ?outside,
    fun w => ?range⟩
  case masked =>
    rw [hround, SubField.toNat_fieldFor h, SubField.quantized_eq_quotient h]
    rfl
  case exact =>
    have hexact : (dec (enc v w)).toInt = F.minVal.toInt + F.quantized v.toInt * F.res.toNat := by
      rw [hround, SubField.toNat_fieldFor_of_contiguous h hk]
    have hrest : max F.minVal.toInt (min v.toInt (impliedMax F)) - (dec (enc v w)).toInt =
        (clamp v.toInt F.minVal.toInt F.impliedMax - F.minVal.toInt) % F.res.toNat := by
      rw [hexact, ← SubField.clamp_sub_quantized h]
      rfl
    rw [hrest]
    refine ⟨?_, Int.emod_nonneg _ (by omega), Int.le_sub_one_of_lt (Int.emod_lt_of_pos _ (by omega))⟩
    rw [hexact, SubField.quantized_eq_quotient h]
    rfl
  case mono =>
    obtain ⟨hle, -⟩ := SubField.quantized_bounds h v1.toInt
    have hq : F.quantized v1.toInt ≤ F.quantized v2.toInt := quantize_mono hle (by omega) hv
    rw [← SubField.toNat_fieldFor_of_contiguous h hk, ← SubField.toNat_fieldFor_of_contiguous h hk] at hq
    have hzero (v : Phys) : enc v 0 = place (F.fieldFor v.toInt) := by simp [henc, merge]
    rw [hzero, hzero]
    exact hhalf.place_mono (by omega)
  case outside => rw [henc, merge_and_not (hhalf.place_fieldFor_and_mask F v.toInt)]
  case range =>
    obtain ⟨hlo, hhi, -⟩ := SubField.decodeByte_bounds h (byte w)
    rw [hdec]
    exact ⟨hlo, hhi⟩

end Sys2Proof.Claims
end

section
/-! PROOF. The dual-value operations as instructions, and their laws (rules R73 to R79). -/

namespace Sys2Proof.Machine

open Sys2Proof Claims

/-- Settles O20: the bits of the word that `DENCL` produces, on the word that acceptance takes. -/
theorem denclMergesIntoTheLowByte : Obligations.DenclMergesIntoTheLowByte := by
  unfold Obligations.DenclMergesIntoTheLowByte
  refine ⟨fun r => decode_dencl, fun v w S f s => (exec_of_not_specOk · s), fun v w S f s h => ?_⟩
  obtain ⟨h0, -⟩ := DualSpec.of_ok h
  refine ⟨_, exec_dencl v w f s h, fun i hi => ?_⟩
  rw [SubField.getLsbD_encodeLow h0 _ _ hi, getLsbD_takenWord, SubField.quantized_eq_quotient h0]

/-- Settles O21: the bits of the word that `DENCH` produces, on the word that acceptance takes. -/
theorem denchMergesIntoTheHighByte : Obligations.DenchMergesIntoTheHighByte := by
  unfold Obligations.DenchMergesIntoTheHighByte
  refine ⟨fun r => decode_dench, fun v w S f s => (exec_of_not_specOk · s), fun v w S f s h => ?_⟩
  obtain ⟨-, h1⟩ := DualSpec.of_ok h
  refine ⟨_, exec_dench v w f s h, fun i hi => ?_⟩
  rw [SubField.getLsbD_encodeHigh h1 _ _ hi, getLsbD_takenWord, SubField.quantized_eq_quotient h1]

/-- Settles O22: the value of the low byte fits a physical value, so it is answered exactly. -/
theorem ddeclScalesTheLowByte : Obligations.DdeclScalesTheLowByte := by
  unfold Obligations.DdeclScalesTheLowByte
  refine ⟨fun r => decode_ddecl, fun w S f s => (exec_of_not_specOk · s), fun w S f s h => ?_⟩
  obtain ⟨h0, -⟩ := DualSpec.of_ok h
  obtain ⟨-, -, hlo, hhi⟩ := SubField.decodeByte_bounds h0 (lowByte w)
  refine ⟨_, exec_ddecl w f s h, ?_⟩
  rw [toInt_decoded, toInt_ofInt_phys (by decide) hlo hhi, SubField.decodeByte, BitVec.toNat_and, toNat_lowByte]

/-- Settles O23: the value of the high byte fits a physical value, so it is answered exactly. -/
theorem ddechScalesTheHighByte : Obligations.DdechScalesTheHighByte := by
  unfold Obligations.DdechScalesTheHighByte
  refine ⟨fun r => decode_ddech, fun w S f s => (exec_of_not_specOk · s), fun w S f s h => ?_⟩
  obtain ⟨-, h1⟩ := DualSpec.of_ok h
  obtain ⟨-, -, hlo, hhi⟩ := SubField.decodeByte_bounds h1 (highByte w)
  refine ⟨_, exec_ddech w f s h, ?_⟩
  rw [toInt_decoded, toInt_ofInt_phys (by decide) hlo hhi, SubField.decodeByte, BitVec.toNat_and, toNat_highByte]

/-- Settles O43: each half obeys the laws of a half, and the two encodes merge under masks with no bit in common. -/
theorem dualValueLaws : Obligations.DualValueLaws := by
  unfold Obligations.DualValueLaws
  intro S h
  obtain ⟨h0, h1⟩ := DualSpec.of_ok h
  refine ⟨halfLaws_of_isHalf h0 isHalf_low (fun v w => DENCL_eq h w v) (toInt_DDECL h),
    halfLaws_of_isHalf h1 isHalf_high (fun v w => DENCH_eq h w v) (toInt_DDECH h), fun v u w => ?commute,
    fun w w' hw => ?low, fun w w' hw => ?high⟩
  case commute =>
    simp only [DENCL_eq h, DENCH_eq h]
    exact (merge_comm (isHalf_low.place_fieldFor_and_mask S.sub0 u.toInt)
      (isHalf_high.place_fieldFor_and_mask S.sub1 v.toInt) (lowHalf_and_highHalf _ _)).symm
  case low =>
    have hbyte : lowByte w = lowByte w' := BitVec.eq_of_toNat_eq (by rw [toNat_lowByte, toNat_lowByte, hw])
    rw [DDECL_eq h, DDECL_eq h, hbyte]
  case high =>
    have hbyte : highByte w = highByte w' := BitVec.eq_of_toNat_eq (by rw [toNat_highByte, toNat_highByte, hw])
    rw [DDECH_eq h, DDECH_eq h, hbyte]

end Sys2Proof.Machine
end

section
/-! SUPPORT and PROOF. `ADCGET` (rules R33 and R80). -/

namespace Sys2Proof.Machine

open Sys2Proof Claims

/-! ## The effect of the dual-value operations after a good read -/

section Effects

variable {S : DualSpec Config.PW Config.RW} (h : S.ok = true) (v : Phys) (w : RegWord) (fail : Bool)
include h

theorem effectOf_dencl : effectOf (.dencl v w (.dual S) false) fail = ⟨fail, ⟨false, .none, DENCL v w S, 0⟩⟩ := by
  rw [DENCL_eq h, effectOf, Block.dencl_of_ok v w false fail h, Bool.or_false]
  rfl

theorem effectOf_dench : effectOf (.dench v w (.dual S) false) fail = ⟨fail, ⟨false, .none, DENCH v w S, 0⟩⟩ := by
  rw [DENCH_eq h, effectOf, Block.dench_of_ok v w false fail h, Bool.or_false]
  rfl

theorem effectOf_ddecl : effectOf (.ddecl w (.dual S) false) fail = ⟨fail, ⟨false, .none, 0, DDECL w S⟩⟩ := by
  rw [DDECL_eq h, effectOf, Block.ddecl_of_ok w false fail h, Bool.or_false]
  rfl

theorem effectOf_ddech : effectOf (.ddech w (.dual S) false) fail = ⟨fail, ⟨false, .none, 0, DDECH w S⟩⟩ := by
  rw [DDECH_eq h, effectOf, Block.ddech_of_ok w false fail h, Bool.or_false]
  rfl

end Effects

/-- The decode of the half that `ADCGET` asks for (rule R33). -/
def adcDecode (S : DualSpec Config.PW Config.RW) (sel : Bool) (w : RegWord) : Phys :=
  if sel then DDECH w S else DDECL w S

/-- The last request of an `ADCGET` decodes the half asked for. -/
theorem effectOf_adcDecode {S : DualSpec Config.PW Config.RW} (h : S.ok = true) (sel : Bool) (w : RegWord)
    (fail : Bool) : effectOf (if sel then .ddech w (.dual S) false else .ddecl w (.dual S) false) fail =
      ⟨fail, ⟨false, .none, 0, adcDecode S sel w⟩⟩ := by
  cases sel with
  | false => exact effectOf_ddecl h w fail
  | true => exact effectOf_ddech h w fail

/-- The three requests of an undisturbed `ADCGET`: both encodes into a zero word, then the decode of the half asked
for (rule R33). -/
theorem adcget_run {s : State} {k : Nat} {b1 w1 b2 w2 b3 w3 sel : Bool} {rest : List Event} {th : Thread}
    {S : DualSpec Config.PW Config.RW} {v0 v1 : Phys} {js : List Job} (h : S.ok = true) (hth : s.threads[k]? = some th)
    (hjobs : th.jobs = .adcget (.dual S) sel v0 v1 .first :: js)
    (hin : s.inputs = .thread k b1 w1 :: .thread k b2 w2 :: .thread k b3 w3 :: rest) :
    Sys2Proof.core.run 3 s = .next { s with
      rsp := some ⟨false, .none, 0, adcDecode S sel (DENCH v1 (DENCL v0 0 S) S)⟩, inputs := rest,
      threads := s.threads.set k
        { jobs := js, done := .value (adcDecode S sel (DENCH v1 (DENCL v0 0 S) S)) false :: th.done } } := by
  have hfirst := step_request hin hth hjobs rfl
  simp only [effectOf_dencl h, Job.answer] at hfirst
  have hsecond := step_request (s := { s with
    rsp := some ⟨false, .none, DENCL v0 0 S, 0⟩, inputs := .thread k b2 w2 :: .thread k b3 w3 :: rest,
    threads := s.threads.set k (th.advance (.more (.adcget (.dual S) sel v0 v1 (.second (DENCL v0 0 S))))) })
    rfl (getElem?_set_thread hth _) rfl rfl
  simp only [effectOf_dench h, Job.answer, Thread.advance_more_advance, List.set_set] at hsecond
  have hthird := step_request (s := { s with
    rsp := some ⟨false, .none, DENCH v1 (DENCL v0 0 S) S, 0⟩, inputs := .thread k b3 w3 :: rest,
    threads := s.threads.set k
      (th.advance (.more (.adcget (.dual S) sel v0 v1 (.third (DENCH v1 (DENCL v0 0 S) S))))) })
    rfl (getElem?_set_thread hth _) rfl rfl
  simp only [effectOf_adcDecode h, Job.answer, Thread.advance_more_advance, List.set_set,
    Thread.advance_finished hjobs] at hthird
  exact (run_of_step hfirst).trans ((run_of_step hsecond).trans (run_one hthird))

/-- Settles O52: the encode of the half asked for can stand last, as the two encodes commute, so its decode is the round
trip of that half. -/
theorem adcGetQuantizesTheLiveValue : Obligations.AdcGetQuantizesTheLiveValue := by
  unfold Obligations.AdcGetQuantizesTheLiveValue
  intro s k b1 w1 b2 w2 b3 w3 sel rest th S v0 v1 js h hc0 hc1 hth hjobs hin
  obtain ⟨⟨-, hlow, -⟩, ⟨-, hhigh, -⟩, hcommute, -⟩ := dualValueLaws S h
  refine ⟨_, _, adcget_run h hth hjobs hin, ?_⟩
  cases sel with
  | false =>
    rw [← hcommute]
    exact (hlow hc0 v0 _).1
  | true => exact (hhigh hc1 v1 _).1

end Sys2Proof.Machine
end

section
/-!
SUPPORT. The field of a bitfield-only descriptor: what `BFI` stores, and the same fields read as a scalar descriptor
(rules R45, R49 and R83 to R86 of spec/42_bitfield.md).
-/

namespace Sys2Proof

variable {pw rw : Nat}

/-! ## The word that `BFI` produces (rule R84) -/

section Insert

variable (S : FieldSpec pw rw) (v : Int) (w : RegWord)

theorem FieldSpec.truncated_int : (S.truncated v : Int) = v % 2 ^ S.width.toNat :=
  Int.toNat_of_nonneg (Int.emod_nonneg v (by positivity))

theorem FieldSpec.truncated_lt : S.truncated v < 2 ^ S.width.toNat := by
  zify
  rw [S.truncated_int]
  exact Int.emod_lt_of_pos v (by positivity)

/-- What is read from the field after a merge is the field value that was merged in. -/
theorem FieldSpec.fieldOf_merge_place (hplace : S.offset.toNat + S.width.toNat ≤ 16) {f : Nat}
    (hf : f < 2 ^ S.width.toNat) : S.fieldOf (merge w S.fm (S.place f)) = f := by
  have hinside := S.place_and_fm hf
  calc S.fieldOf (merge w S.fm (S.place f))
      = S.fieldOf (S.place f) := S.fieldOf_congr ((merge_and_mask hinside).trans hinside.symm)
    _ = f := S.fieldOf_place hplace hf

end Insert

/-! ## A bitfield-only descriptor as a scalar one -/

/-- The fields of a bitfield-only descriptor that is `SpecOK` are `SpecOK` under the scalar tag too: the range of a
physical value holds every 16-bit field (rule R6). -/
theorem FieldSpec.scalarOk_of_bitfieldOk {S : FieldSpec pw rw} (hpw : 17 ≤ pw) (h : S.bitfieldOk = true) :
    S.scalarOk = true := by
  obtain ⟨hplace, hmin, hres, hmax⟩ := FieldSpec.of_bitfieldOk h
  have hrange : (2 : Int) ^ S.width.toNat ≤ 2 ^ (pw - 1) := pow_le_pow_right₀ (by omega) (by omega)
  have hwm := S.wm_int
  rw [FieldSpec.scalarOk_iff, hmin, hmax, hres]
  exact ⟨hplace, by omega, le_refl 1, by omega⟩

end Sys2Proof

namespace Sys2Proof.Claims

open Sys2Proof Sys2Proof.Machine

/-! ## `BFI` and `BFX` as rule R86 writes them -/

/-- The field that `BFI` stores lies inside the mask as the statements write it. -/
theorem place_truncated_and_mask (S : FieldSpec Config.PW Config.RW) (v : Int) :
    S.place (S.truncated v) &&& mask S = S.place (S.truncated v) := by
  rw [mask_eq_fm, S.place_and_fm (S.truncated_lt v)]

section Bitfield

variable {S : FieldSpec Config.PW Config.RW} (h : S.bitfieldOk = true)
include h

/-- `BFI` of the machine is the model's word (rule R84). -/
theorem BFI_eq (v : Phys) (w : RegWord) : BFI v w S = S.insertWord v.toInt w := by
  simp [BFI, wordOut, response, exec_bfi _ _ _ _ h]

/-- `BFI` is a merge under the field mask. -/
theorem BFI_eq_merge (v : Phys) (w : RegWord) : BFI v w S = merge w (mask S) (S.place (S.truncated v.toInt)) := by
  rw [BFI_eq h, mask_eq_fm]
  rfl

/-- `BFX` of the machine is the field, which fits a physical value (rule R85). -/
theorem toInt_BFX (w : RegWord) : (BFX w S).toInt = S.fieldOf w := by
  obtain ⟨hplace, -⟩ := FieldSpec.of_bitfieldOk h
  simp [BFX, physOut, response, exec_bfx _ _ _ h, S.toInt_ofNat_fieldOf (by decide) hplace]

/-- With `MIN = 0` and `RES = 1` the value of a decode is the field itself (rule R86 a). -/
theorem BFX_eq_DEC (w : RegWord) : BFX w S = DEC w S := by
  obtain ⟨-, hmin, hres, -⟩ := FieldSpec.of_bitfieldOk h
  apply BitVec.eq_of_toInt_eq
  rw [toInt_BFX h, toInt_DEC (FieldSpec.scalarOk_of_bitfieldOk (by decide) h), FieldSpec.decodeValue, hmin, hres,
    Nat.cast_one, mul_one, add_zero]

/-- `BFI` stores the value modulo `2^WIDTH` (rule R83). -/
theorem fieldOf_BFI (v : Phys) (w : RegWord) : (fieldOf (BFI v w S) S : Int) = v.toInt % 2 ^ S.width.toNat := by
  obtain ⟨hplace, -⟩ := FieldSpec.of_bitfieldOk h
  rw [fieldOf_eq, BFI_eq h, FieldSpec.insertWord, S.fieldOf_merge_place w hplace (S.truncated_lt _), S.truncated_int]

/-- `ENC` of the same fields stores the value clamped to the field (rule R86 b). -/
theorem field_of_bitfieldOk (v : Int) : field v S = max 0 (min v (2 ^ S.width.toNat - 1)) := by
  obtain ⟨-, hmin, hres, hmax⟩ := FieldSpec.of_bitfieldOk h
  have hpos : (0 : Int) < 2 ^ S.width.toNat := by positivity
  rw [field, clamped, hmin, hres, hmax, S.wm_int, sub_zero, Nat.cast_one, Int.ediv_one]
  exact Int.emod_eq_of_lt (by omega) (by omega)

/-- A value in the range of the field is stored alike by `BFI` and by `ENC` (rule R86 b). -/
theorem truncated_eq_fieldFor {v : Int} (hlo : 0 ≤ v) (hhi : v ≤ 2 ^ S.width.toNat - 1) :
    S.truncated v = S.fieldFor v := by
  zify
  rw [S.truncated_int, ← field_eq_fieldFor (FieldSpec.scalarOk_of_bitfieldOk (by decide) h), field_of_bitfieldOk h,
    min_eq_left hhi, max_eq_right hlo]
  exact Int.emod_eq_of_lt hlo (by omega)

end Bitfield

end Sys2Proof.Claims
end

section
/-! PROOF. `BFI` and `BFX` as instructions, and their laws (rules R84 to R86). -/

namespace Sys2Proof.Machine

open Sys2Proof Claims

/-- Settles O18: the bits of the word that `BFI` produces, on the word that acceptance takes. -/
theorem bfiInsertsTheLowBits : Obligations.BfiInsertsTheLowBits := by
  unfold Obligations.BfiInsertsTheLowBits
  refine ⟨fun r => decode_bfi, fun v w S f s => (exec_of_not_specOk · s), fun v w S f s h => ?_⟩
  obtain ⟨hplace, -⟩ := FieldSpec.of_bitfieldOk h
  refine ⟨_, exec_bfi v w f s h, fun i hi => ?_⟩
  rw [S.getLsbD_insertWord (by decide) hplace _ _ hi, getLsbD_takenWord]

/-- Settles O19: the field fits a physical value as a number that is not negative, so it is answered exactly. -/
theorem bfxExtractsTheField : Obligations.BfxExtractsTheField := by
  unfold Obligations.BfxExtractsTheField
  refine ⟨fun r => decode_bfx, fun w S f s => (exec_of_not_specOk · s), fun w S f s h => ?_⟩
  obtain ⟨hplace, -⟩ := FieldSpec.of_bitfieldOk h
  refine ⟨_, exec_bfx w f s h, ?_⟩
  rw [toInt_decoded, S.toInt_ofNat_fieldOf (by decide) hplace, S.fieldOf_eq]

/-- Settles O42: `BFX` is `DEC` of the same fields, `BFI` is a merge under the field mask, and it stores what `ENC`
stores unless `ENC` clamps. -/
theorem bitfieldLaws : Obligations.BitfieldLaws := by
  unfold Obligations.BitfieldLaws
  intro S T U v u w w' hS hT hU
  have hS' := FieldSpec.scalarOk_of_bitfieldOk (by decide) hS
  have hT' := FieldSpec.scalarOk_of_bitfieldOk (by decide) hT
  have hv := place_truncated_and_mask S v.toInt
  have hclamped := (fieldOf_ENC hS' v w).trans (field_of_bitfieldOk hS v.toInt)
  refine ⟨BFX_eq_DEC hS w, fun hlo hhi => ?inRange, fieldOf_BFI hS v w, fun hneg => ?negative, fun htop => ?above,
    ?roundTrip, ?preserved, fun hw => ?independent, fun hST => ⟨?otherBitfield, ?commute⟩,
    fun hSU => ⟨?otherScalar, ?afterScalar, ?commuteScalar⟩, ?lastWins⟩
  case inRange => rw [BFI_eq_merge hS, ENC_eq_merge hS', truncated_eq_fieldFor hS hlo hhi]
  case negative =>
    rw [max_eq_left ((min_le_left _ _).trans hneg.le)] at hclamped
    exact Int.natCast_eq_zero.mp hclamped
  case above =>
    rw [min_eq_right htop.le, ← S.wm_int, max_eq_right (by positivity)] at hclamped
    exact Int.natCast_inj.mp hclamped
  case roundTrip => rw [toInt_BFX hS, ← Claims.fieldOf_eq, fieldOf_BFI hS]
  case preserved => rw [BFI_eq_merge hS, merge_and_not hv]
  case independent => rw [BFX_eq_DEC hS, BFX_eq_DEC hS, DEC_congr hS' hw]
  case otherBitfield =>
    rw [BFX_eq_DEC hT, BFX_eq_DEC hT, BFI_eq_merge hS]
    exact DEC_congr hT' (merge_and_disjoint hv hST)
  case commute =>
    simp only [BFI_eq_merge hS, BFI_eq_merge hT]
    exact merge_comm hv (place_truncated_and_mask T u.toInt) hST
  case otherScalar =>
    rw [BFI_eq_merge hS]
    exact DEC_congr hU (merge_and_disjoint hv hSU)
  case afterScalar =>
    rw [BFX_eq_DEC hS, BFX_eq_DEC hS, ENC_eq_merge hU]
    exact DEC_congr hS' (merge_and_disjoint (place_and_mask U u.toInt) ((BitVec.and_comm _ _).trans hSU))
  case commuteScalar =>
    simp only [BFI_eq_merge hS, ENC_eq_merge hU]
    exact merge_comm hv (place_and_mask U u.toInt) hSU
  case lastWins =>
    simp only [BFI_eq_merge hS]
    exact merge_merge_same hv (place_truncated_and_mask S u.toInt)

end Sys2Proof.Machine
end

section
/-!
SUPPORT. A status operation is an answer with no word (rules R90 to R92 of spec/43_status_ops.md), and what a sequence
of presented requests does to the flag (rule R93).
-/

namespace Sys2Proof.Machine

open Sys2Proof

/-! ## The answer of a status operation -/

/-- Settling an answer: the flag it gives, and a success with no word on the port. -/
theorem State.settle_answer (s : State) (phys : Phys) (fail : Bool) :
    s.settle (answer phys fail) = { s with fail := fail, rsp := some ⟨false, .none, 0, phys⟩ } := rfl

/-- `NOP` answers 0 and keeps the flag (rule R90). -/
theorem effectOf_nop (fail : Bool) : effectOf .nop fail = answer 0 fail := rfl

/-- `RDST` answers `STATUS` and keeps the flag (rule R91). -/
theorem effectOf_rdst (s : State) : effectOf .rdst s.fail = answer (s.statusReg.zeroExtend Config.PW) s.fail := rfl

/-- `CLRF` answers `STATUS` and clears the flag (rule R92). -/
theorem effectOf_clrf (s : State) : effectOf .clrf s.fail = answer (s.statusReg.zeroExtend Config.PW) false := rfl

/-! ## The flag over a sequence of requests -/

/-- `CLRF` has no operation code but 0xA (rule R41). -/
theorem op_of_decode_clrf {r : Request} (h : decode r = .clrf) : r.op = 0xA := by
  rw [← encode_decode_op r, h]
  rfl

/-- A sequence without `CLRF` sets the flag if one of its instructions is an accepted failed read, and never clears it
(rules R93 and R109). -/
theorem failAfterAll_of_no_clrf {is : List Instr} (h : ∀ i ∈ is, i ≠ .clrf) (fail : Bool) :
    failAfterAll is fail = (fail || is.any fun i => i.specOk && i.readFailed) := by
  induction is generalizing fail with
  | nil => exact (Bool.or_false fail).symm
  | cons i is ih =>
    obtain ⟨hi, his⟩ := List.forall_mem_cons.mp h
    rw [failAfterAll, ih his, failAfter_eq_ite, if_neg hi, List.any_cons, Bool.or_assoc]

/-- Any sequence of presented requests completes, each taking its own input and changing the flag by rule R24; the
memory and the threads stay. -/
theorem run_requests (rs : List Request) {s : State} {rest : List Event} (hin : s.inputs = rs.map .request ++ rest) :
    ∃ t : State, Sys2Proof.core.run rs.length s = .next t ∧ t.fail = failAfterAll (rs.map decode) s.fail ∧
      t.mem = s.mem ∧ t.threads = s.threads ∧ t.inputs = rest := by
  induction rs generalizing s with
  | nil => exact ⟨s, run_zero s, rfl, rfl, rfl, hin⟩
  | cons r rs ih =>
    have hstep : step s =
        .next (State.settle { s with inputs := rs.map .request ++ rest } (effectOf (decode r) s.fail)) :=
      (step_cons hin).trans (exec_eq_settle (decode r) _)
    obtain ⟨t, hrun, hfail, hframe⟩ := ih (State.settle_inputs { s with inputs := rs.map .request ++ rest } _)
    rw [State.settle_fail, effectOf_fail] at hfail
    exact ⟨t, (run_of_step hstep).trans hrun, hfail, hframe⟩

end Sys2Proof.Machine
end

section
/-! PROOF. The status operations and the cumulative flag (rules R90 to R93 of spec/43_status_ops.md). -/

namespace Sys2Proof.Machine

open Sys2Proof

/-- Settles O32: the requests run as their instructions do, none of which is `CLRF`. -/
theorem flagIsCumulative : Obligations.FlagIsCumulative := by
  unfold Obligations.FlagIsCumulative
  intro rs s rest hin hop
  have hclrf : ∀ i ∈ rs.map decode, i ≠ .clrf :=
    List.forall_mem_map.mpr fun r hr hd => hop r hr (op_of_decode_clrf hd)
  obtain ⟨t, hrun, hfail, hframe⟩ := run_requests rs hin
  rw [failAfterAll_of_no_clrf hclrf, List.any_map] at hfail
  exact ⟨t, hrun, hfail, hframe⟩

/-- Settles O24: code 0x0 is `NOP`, which answers 0 and gives the flag as it was. -/
theorem nopDoesNothing : Obligations.NopDoesNothing := by
  unfold Obligations.NopDoesNothing
  refine ⟨fun r => decode_nop, fun s => ?_⟩
  rw [exec_eq_settle, effectOf_nop, State.settle_answer]

/-- Settles O25: code 0x9 is `RDST`, which answers `STATUS` and gives the flag as it was. -/
theorem rdstReadsWithoutClearing : Obligations.RdstReadsWithoutClearing := by
  unfold Obligations.RdstReadsWithoutClearing
  refine ⟨fun r => decode_rdst, fun s => ⟨?_, s.statusReg_phys⟩⟩
  rw [exec_eq_settle, effectOf_rdst, State.settle_answer, State.statusReg_phys]

/-- Settles O26: code 0xA is `CLRF`, which answers `STATUS` of the old state and gives a clear flag. -/
theorem clrfReturnsTheOldStatusAndClears : Obligations.ClrfReturnsTheOldStatusAndClears := by
  unfold Obligations.ClrfReturnsTheOldStatusAndClears
  refine ⟨fun r => decode_clrf, fun s => ⟨?_, s.statusReg_phys⟩⟩
  rw [exec_eq_settle, effectOf_clrf, State.settle_answer, State.statusReg_phys]

end Sys2Proof.Machine
end

section
/-! SUPPORT and PROOF. The register map's descriptors, and the OTG voltage row whose `MIN` depends on the "low range"
bit (rules R95 to R101 of spec/44_register_map_instances.md, rule R131). -/

namespace Sys2Proof

/-! ## Decoding under another `MIN` (rules R60 and R131) -/

/-- A word holds no trace of the `MIN` it was encoded under, so another `MIN` shifts the decoded value by the
difference. -/
theorem FieldSpec.decodeValue_withMin {pw rw : Nat} (S : FieldSpec pw rw) (m : BitVec pw) (w : RegWord) :
    { S with minVal := m }.decodeValue w = S.decodeValue w + (m.toInt - S.minVal.toInt) := by
  have hfield : { S with minVal := m }.fieldOf w = S.fieldOf w := rfl
  simp only [FieldSpec.decodeValue, hfield]
  omega

/-- The two forms of the OTG voltage row differ in `MIN` only (rule R98). -/
theorem OTGV_HI_eq_withMin : OTGV_HI = { OTGV_LO with minVal := 1280 } := rfl

theorem OTGV_LO_scalarOk : OTGV_LO.scalarOk = true := by decide

theorem OTGV_HI_scalarOk : OTGV_HI.scalarOk = true := by decide

end Sys2Proof

namespace Sys2Proof.Machine

open Sys2Proof

/-- Settles O47: the seven words are what the encoder computes; the bounds of `SpecOK` and `Fits` are evaluated on the
numbers of each row. -/
theorem registerMapDescriptors : Obligations.RegisterMapDescriptors := by
  unfold Obligations.RegisterMapDescriptors
  refine ⟨rfl, rfl, rfl, rfl, rfl, rfl, rfl, ?specOk, ?fits, ?repairedCurrent, ?repairedVoltage⟩
  case specOk => decide
  case fits => decide
  case repairedCurrent => decide
  case repairedVoltage => decide

/-- Settles O59: both forms of the row read the same field, so their values differ as their `MIN` does. -/
theorem otgVoltageDependsOnTheRangeBit : Obligations.OtgVoltageDependsOnTheRangeBit := by
  unfold Obligations.OtgVoltageDependsOnTheRangeBit
  refine ⟨fun w => ?shift, ?encodeHigh, ?readLow, ?encodeLow, ?readHigh⟩
  case shift =>
    calc (Claims.DEC w OTGV_HI).toInt
        = OTGV_HI.decodeValue w := Claims.toInt_DEC OTGV_HI_scalarOk w
      _ = OTGV_LO.decodeValue w + 1280 := by
        rw [OTGV_HI_eq_withMin]
        exact OTGV_LO.decodeValue_withMin 1280 w
      _ = (Claims.DEC w OTGV_LO).toInt + 1280 := by rw [Claims.toInt_DEC OTGV_LO_scalarOk w]
  case encodeHigh => decide
  case readLow => decide
  case encodeLow => decide
  case readHigh => decide

end Sys2Proof.Machine
end

section
/-!
SUPPORT and PROOF. The order of the acceptance tests (rules R109 to R112 of spec/60_exceptions.md): the cause of every
instruction, the cause of a request by its operation code, and what a failed read gives.
-/

namespace Sys2Proof

/-- The instructions of the reserved operation codes (rule R52). -/
def Instr.isReserved : Instr → Bool
  | .reservedB => true
  | .reservedCF _ => true
  | _ => false

/-- A reserved code reads no word (rule R52). -/
theorem Instr.readFailed_of_isReserved {i : Instr} (h : i.isReserved = true) : i.readFailed = false := by
  cases i with
  | reservedB | reservedCF => rfl
  | _ => cases h

/-- The codes of rule R41's table: reserved, of format N, an encode, or a decode. -/
theorem op_cases (op : BitVec 4) :
    op ≥ 0xB ∨ ¬ op ≥ 0xB ∧
      ((op = 0x0 ∨ op = 0x9 ∨ op = 0xA) ∨
        ¬ (op = 0x0 ∨ op = 0x9 ∨ op = 0xA) ∧
          (op ∈ [0x1#4, 0x3#4, 0x5#4, 0x6#4] ∨ op ∈ [0x2#4, 0x4#4, 0x7#4, 0x8#4])) := by
  revert op
  decide

end Sys2Proof

namespace Sys2Proof.Machine

open Sys2Proof

/-! ## The cause of an instruction -/

/-- The cause of an acceptance, in the order of its two tests (rule R112). -/
theorem accept_rsp_cause {C : Config.Params} {α : Type} (spec : Option α) (rdFail : Bool) (w : RegWord) (fail : Bool)
    {body : α → Accepted → PortResponse C} (hbody : ∀ S a, (body S a).cause = if a.rf then .readFail else .none) :
    (accept spec rdFail w fail body).rsp.cause =
      if spec.isSome = false then .badSpec else if rdFail then .readFail else .none := by
  cases spec with
  | none => rfl
  | some S => rw [accept_some]; exact hbody S _

/-- The cause of a decode is that of the read alone. -/
theorem Accepted.decoded_cause {C : Config.Params} (a : Accepted) (phys : BitVec C.PW) :
    (a.decoded phys : PortResponse C).cause = if a.rf then .readFail else .none := by
  rw [Accepted.decoded_eq]

/-- The cause of every instruction: `BAD_OP`, then `BAD_SPEC`, then `READ_FAIL` (rule R112). -/
theorem effectOf_rsp_cause (i : Instr) (fail : Bool) :
    (effectOf i fail).rsp.cause =
      if i.isReserved then .badOp
      else if i.specOk = false then .badSpec
      else if i.readFailed then .readFail
      else .none := by
  cases i with
  | nop | rdst | clrf | reservedB | reservedCF => rfl
  | enc | bfi | dencl | dench => exact accept_rsp_cause _ _ _ _ fun _ _ => rfl
  | dec | bfx | ddecl | ddech => exact accept_rsp_cause _ _ _ _ fun _ a => a.decoded_cause _

/-- `READ_FAIL` is the cause exactly of an accepted operation whose read failed (rule R109). -/
theorem rsp_cause_eq_readFail_iff {i : Instr} {fail : Bool} :
    (effectOf i fail).rsp.cause = .readFail ↔ i.specOk = true ∧ i.readFailed = true := by
  rw [effectOf_rsp_cause]
  cases hreserved : i.isReserved with
  | true => simp [Instr.readFailed_of_isReserved hreserved]
  | false => cases i.specOk <;> cases i.readFailed <;> simp

/-- `READ_FAIL` sets the flag, `CLRF` clears it, and everything else keeps it (rules R24 and R109). -/
theorem effectOf_fail_eq_ite (i : Instr) (fail : Bool) :
    (effectOf i fail).fail =
      if (effectOf i fail).rsp.cause = .readFail then true else if i = .clrf then false else fail := by
  rw [effectOf_fail, failAfter_eq_ite]
  by_cases hcause : (effectOf i fail).rsp.cause = .readFail
  · obtain ⟨hspec, hread⟩ := rsp_cause_eq_readFail_iff.mp hcause
    have hclrf : i ≠ .clrf := by
      rintro rfl
      cases hread
    rw [if_neg hclrf, if_pos hcause, hspec, hread, Bool.and_self, Bool.or_true]
  · have hkept : (i.specOk && i.readFailed) = false := by
      simpa [rsp_cause_eq_readFail_iff] using hcause
    rw [if_neg hcause, hkept, Bool.or_false]

/-- What a legal response says (rules R40, R107 and R110). -/
theorem PortResponse.cause_laws_of_wf {C : Config.Params} {p : PortResponse C} (h : p.wf = true) :
    (p.status = true ↔ p.cause ≠ .none) ∧ (p.cause = .badSpec ∨ p.cause = .badOp → p.wordOut = 0 ∧ p.physOut = 0) ∧
      (p.cause = .readFail → p.physOut = 0) := by
  obtain ⟨status, cause, wordOut, physOut⟩ := p
  cases cause <;> simp_all [PortResponse.wf]

/-! ## The cause of a request -/

/-- An encode code is the encode of an accessor pair, on whatever word and read status (rules R41 and R42). -/
theorem decode_eq_encodeInstr {r : Request} (hop : r.op ∈ [0x1#4, 0x3#4, 0x5#4, 0x6#4]) :
    ∃ a : Access, ∀ w f,
      decode { r with wordIn := w, rdFail := f } = a.encodeInstr r.physIn w (decodeSpec r.spec) f := by
  simp only [List.mem_cons, List.not_mem_nil, or_false] at hop
  rcases hop with h | h | h | h
  · exact ⟨.scalar, fun _ _ => decode_enc h⟩
  · exact ⟨.bitfield, fun _ _ => decode_bfi h⟩
  · exact ⟨.dualLow, fun _ _ => decode_dencl h⟩
  · exact ⟨.dualHigh, fun _ _ => decode_dench h⟩

/-- A decode code is the decode of an accessor pair (rules R41 and R42). -/
theorem decode_eq_decodeInstr {r : Request} (hop : r.op ∈ [0x2#4, 0x4#4, 0x7#4, 0x8#4]) :
    ∃ a : Access, decode r = a.decodeInstr r.wordIn (decodeSpec r.spec) r.rdFail := by
  simp only [List.mem_cons, List.not_mem_nil, or_false] at hop
  rcases hop with h | h | h | h
  · exact ⟨.scalar, decode_dec h⟩
  · exact ⟨.bitfield, decode_bfx h⟩
  · exact ⟨.dualLow, decode_ddecl h⟩
  · exact ⟨.dualHigh, decode_ddech h⟩

/-- A conversion is no reserved code, and takes the read status of its request (rules R42 and R52). -/
theorem conversion_reads {r : Request}
    (hop : r.op ∈ [0x1#4, 0x3#4, 0x5#4, 0x6#4] ∨ r.op ∈ [0x2#4, 0x4#4, 0x7#4, 0x8#4]) :
    (decode r).isReserved = false ∧ (decode r).readFailed = r.rdFail := by
  rcases hop with hop | hop
  · obtain ⟨a, hd⟩ := decode_eq_encodeInstr hop
    rw [hd r.wordIn r.rdFail]
    cases a <;> exact ⟨rfl, rfl⟩
  · obtain ⟨a, hd⟩ := decode_eq_decodeInstr hop
    rw [hd]
    cases a <;> exact ⟨rfl, rfl⟩

/-- The order of the tests on a request is that on its instruction (rule R112). -/
theorem effectOf_decode_cause (r : Request) (fail : Bool) :
    (effectOf (decode r) fail).rsp.cause = Claims.causeOf r := by
  rw [effectOf_rsp_cause, Claims.causeOf]
  rcases op_cases r.op with hB | ⟨hB, hN | ⟨hN, hop⟩⟩
  · rw [if_pos hB]
    rcases decode_reserved hB with hd | ⟨low, hd⟩ <;> rw [hd] <;> rfl
  · rw [if_neg hB, if_pos hN]
    rcases hN with h | h | h
    · rw [decode_nop h]; rfl
    · rw [decode_rdst h]; rfl
    · rw [decode_clrf h]; rfl
  · obtain ⟨hreserved, hread⟩ := conversion_reads hop
    rw [if_neg hB, if_neg hN, hreserved, hread]
    rfl

/-! ## What a failed read gives (rule R110) -/

/-- An accepted encode takes the word as `0x0000` after a failed read, as after a good read of it. -/
theorem accept_encoded_zero {C : Config.Params} {α : Type} {spec : Option α} (h : spec.isSome = true) (w : RegWord)
    (fail : Bool) (word : α → RegWord → RegWord) :
    (accept spec false 0 fail fun S a => a.encoded (word S a.w) : Effect C) =
      ⟨fail, ⟨false, .none,
        (accept spec true w fail fun S a => a.encoded (word S a.w) : Effect C).rsp.wordOut, 0⟩⟩ := by
  obtain ⟨S, rfl⟩ := Option.isSome_iff_exists.mp h
  rfl

/-- Each encode of an accessor pair gives after a failed read the word that it gives of `0x0000` after a good one. -/
theorem encode_zero_of_readFailed {a : Access} {v : Phys} {w : RegWord} {S : Spec}
    (h : (a.encodeInstr v w S true).specOk = true) (fail : Bool) :
    effectOf (a.encodeInstr v 0 S false) fail =
      ⟨fail, ⟨false, .none, (effectOf (a.encodeInstr v w S true) fail).rsp.wordOut, 0⟩⟩ := by
  cases a with
  | scalar => exact accept_encoded_zero h w fail fun F => F.encodeWord v.toInt
  | bitfield => exact accept_encoded_zero h w fail fun F => F.insertWord v.toInt
  | dualLow => exact accept_encoded_zero h w fail fun D => D.sub0.encodeLow v.toInt
  | dualHigh => exact accept_encoded_zero h w fail fun D => D.sub1.encodeHigh v.toInt

/-- A decode drives no word after a failed read. -/
theorem decode_wordOut_readFailed (a : Access) (w : RegWord) (S : Spec) (fail : Bool) :
    (effectOf (a.decodeInstr w S true) fail).rsp.wordOut = 0 := by
  cases a <;> exact accept_rsp_of_readFailed (P := fun p => p.wordOut = 0) rfl fun _ => rfl

/-- Settles O28: the response is that of the instruction's effect; its cause follows the order of the tests, its status
and data are those of a legal response, and the flag and the word after a failed read come from acceptance. -/
theorem causeFollowsTheFixedOrder : Obligations.CauseFollowsTheFixedOrder := by
  unfold Obligations.CauseFollowsTheFixedOrder
  intro r s
  obtain ⟨hstatus, hnodata, hphys⟩ := PortResponse.cause_laws_of_wf (effectOf_rsp_wf (decode r) s.fail)
  refine ⟨_, ?frame, effectOf_decode_cause r s.fail, hstatus, hnodata, hphys, fun hcause hop => ?decoded,
    fun hcause hop => ?encoded⟩
  case frame =>
    have hclrf : decode r = .clrf ↔ r.op = 0xA := ⟨op_of_decode_clrf, decode_clrf⟩
    have hfail := effectOf_fail_eq_ite (decode r) s.fail
    simp only [hclrf] at hfail
    rw [exec_eq_settle, ← hfail]
    rfl
  case decoded =>
    have hread := (rsp_cause_eq_readFail_iff.mp hcause).2
    rw [(conversion_reads (.inr hop)).2] at hread
    obtain ⟨a, hd⟩ := decode_eq_decodeInstr hop
    rw [hd, hread]
    exact decode_wordOut_readFailed a ..
  case encoded =>
    obtain ⟨hspec, hread⟩ := rsp_cause_eq_readFail_iff.mp hcause
    rw [(conversion_reads (.inl hop)).2] at hread
    obtain ⟨a, hd⟩ := decode_eq_encodeInstr hop
    have hfailed : decode r = a.encodeInstr r.physIn r.wordIn (decodeSpec r.spec) true := hread ▸ hd r.wordIn r.rdFail
    rw [hfailed] at hspec ⊢
    rw [hd, exec_eq_settle, encode_zero_of_readFailed hspec]
    rfl

end Sys2Proof.Machine
end

section
/-!
SUPPORT. A run of resets; one step of one thread among others, which leaves the other threads and the flag alone; and a
read whose two bytes travel apart (rules R122, R127, R128 and R130 of spec/70_reset_and_hazards.md).
-/

namespace Sys2Proof.Machine

open Sys2Proof Claims

/-! ## Resets in a row -/

/-- Resets in a row leave what the first one leaves, each taking its own input (rule R122). -/
theorem run_resets (n : Nat) {s : State} {rest : List Event} (hin : s.inputs = List.replicate (n + 1) .reset ++ rest) :
    Sys2Proof.core.run (n + 1) s = .next { s.resetBlock with inputs := rest } := by
  induction n generalizing s with
  | zero => exact run_one (step_cons hin)
  | succ n ih =>
    have hstep : step s = .next { s.resetBlock with inputs := List.replicate (n + 1) .reset ++ rest } := step_cons hin
    exact (run_of_step hstep).trans (ih rfl)

/-! ## A step of one thread among others -/

/-- A step takes `s` to `t`, with `rest` to come: thread `k` is now `th` and the memory `m`, while the flag and the other
threads are as they were. -/
structure ThreadMoves (s t : State) (k : Nat) (th : Thread) (m : Memory) (rest : List Event) : Prop where
  step : step s = .next t
  thread : t.threads[k]? = some th
  others : ∀ l, l ≠ k → t.threads[l]? = s.threads[l]?
  mem : t.mem = m
  fail : t.fail = s.fail
  inputs : t.inputs = rest

section Set

variable {s : State} {k : Nat} {rest : List Event} {th : Thread} {S : FieldSpec Config.PW Config.RW} {v : Phys}
  {w : RegWord} {js : List Job}

/-- The read of a `SETB`, both its bytes in one step: the word goes to the request. -/
theorem setb_read_moves (haddr : busAddr (.bitfield S) ≠ 0xFF) (hin : s.inputs = .thread k false true :: rest)
    (hth : s.threads[k]? = some th) (hjobs : th.jobs = .set .bitfield .two (.bitfield S) v .start :: js) :
    ∃ t, ThreadMoves s t k
      { jobs := .set .bitfield .two (.bitfield S) v
          (.request false (wordRead s.mem (busAddr (.bitfield S)) .two false)) :: js, done := th.done }
      s.mem rest := by
  have hstep := step_bus hin hth hjobs rfl (offEnd_eq_false fun _ => haddr)
  rw [(Job.set_transfers (fun _ => haddr) v s.mem).whole false true fun _ _ => rfl, Thread.advance_more hjobs] at hstep
  exact ⟨_, hstep, getElem?_set_thread hth _, fun l hl => List.getElem?_set_ne hl.symm, rfl, rfl, rfl⟩

/-- An accepted `BFI` after a good read keeps the flag and succeeds with its word. -/
theorem effectOf_bfi (hS : S.bitfieldOk = true) (v : Phys) (w : RegWord) (fail : Bool) :
    effectOf (.bfi v w (.bitfield S) false) fail = ⟨fail, ⟨false, .none, BFI v w S, 0⟩⟩ := by
  rw [BFI_eq hS, effectOf, Block.bfi_of_ok v w false fail hS, Bool.or_false]
  rfl

/-- The request of a `SETB` that is accepted: the word of `BFI` goes to the write-back. -/
theorem setb_request_moves {b c : Bool} (hS : S.bitfieldOk = true) (hin : s.inputs = .thread k b c :: rest)
    (hth : s.threads[k]? = some th)
    (hjobs : th.jobs = .set .bitfield .two (.bitfield S) v (.request false w) :: js) :
    ∃ t, ThreadMoves s t k
      { jobs := .set .bitfield .two (.bitfield S) v (.write (BFI v w S)) :: js, done := th.done } s.mem rest := by
  have hstep := step_request hin hth hjobs rfl
  simp only [Access.encodeInstr, effectOf_bfi hS] at hstep
  refine ⟨_, hstep, ?_, fun l hl => List.getElem?_set_ne hl.symm, rfl, rfl, rfl⟩
  rw [getElem?_set_thread hth, ← Thread.advance_more hjobs]
  rfl

/-- The write-back of a `SETB`, both its bytes in one step: the sequence ends with status 0, and the register holds the
word. -/
theorem setb_write_moves (haddr : busAddr (.bitfield S) ≠ 0xFF) (hin : s.inputs = .thread k false true :: rest)
    (hth : s.threads[k]? = some th) (hjobs : th.jobs = .set .bitfield .two (.bitfield S) v (.write w) :: js) :
    ∃ t m, ThreadMoves s t k { jobs := js, done := .status false :: th.done } m rest ∧
      wordRead m (busAddr (.bitfield S)) .two false = w := by
  have hstep := step_bus hin hth hjobs rfl (offEnd_eq_false fun _ => haddr)
  rw [(Job.set_write_transfers (fun _ => haddr) v w s.mem).whole false true fun _ _ => rfl,
    Thread.advance_finished hjobs] at hstep
  have hbytes := readByte_storeBytes_word s.mem (busAddr (.bitfield S)) w .two
  refine ⟨_, _, ⟨hstep, getElem?_set_thread hth _, fun l hl => List.getElem?_set_ne hl.symm, rfl, rfl, rfl⟩,
    wordRead_two_of_bytes ?low ?high⟩
  case low => exact (hbytes _).trans (if_pos rfl)
  case high => exact (hbytes _).trans (by simp)

end Set

/-! ## A read whose second byte is still to travel -/

/-- A run that starts with another agent's store (rule R36). -/
theorem run_agentWrite {n : Nat} {s : State} {addr b : Byte} {rest : List Event}
    (hin : s.inputs = .agentWrite addr b :: rest) :
    Sys2Proof.core.run (n + 1) s = Sys2Proof.core.run n { s with mem := s.mem.writeByte addr b, inputs := rest } :=
  run_of_step (step_cons hin)

section Get

variable {s : State} {k : Nat} {rest : List Event} {th : Thread} {a : Access} {S : Spec} {b0 b1 : Byte} {js : List Job}
  (haddr : busAddr S ≠ 0xFF)
include haddr

/-- The low byte of a `GET`'s read travels alone. -/
theorem get_firstByte_moves (hin : s.inputs = .thread k false false :: rest) (hth : s.threads[k]? = some th)
    (hjobs : th.jobs = .get a .two S .start :: js) :
    ∃ t, ThreadMoves s t k
      { jobs := .get a .two S (.secondByte (s.mem.readByte (busAddr S))) :: js, done := th.done } s.mem rest := by
  rw [← Thread.advance_more hjobs]
  exact ⟨_, step_bus hin hth hjobs rfl (offEnd_eq_false fun _ => haddr), getElem?_set_thread hth _,
    fun l hl => List.getElem?_set_ne hl.symm, rfl, rfl, rfl⟩

/-- What is left of a `GET`'s read is a transfer of one byte: the request takes the byte found now with the first one as
it came (rule R130). -/
theorem Job.get_secondByte_transfers {m : Memory} (hb1 : m.readByte (busAddr S + 1) = b1) :
    (Job.get a .two S (.secondByte b0)).Transfers .one m fun _ =>
      (m, .more (.get a .two S (.request false (pack16 b0 b1)))) where
  request := rfl
  offEnd := offEnd_eq_false fun _ => haddr
  whole _ _ _ := by rw [← hb1]; rfl
  apart hn := nomatch hn

/-- A `GET` ends, from its second byte on: the decode of both bytes, whose response the thread gets. -/
theorem get_secondByte_run {b w b' w' : Bool} (hin : s.inputs = .thread k b w :: .thread k b' w' :: rest)
    (hth : s.threads[k]? = some th) (hjobs : th.jobs = .get a .two S (.secondByte b0) :: js)
    (hb1 : s.mem.readByte (busAddr S + 1) = b1) {e : Effect Config.standard}
    (he : effectOf (a.decodeInstr (pack16 b0 b1) S false) s.fail = e) :
    ∃ t, Sys2Proof.core.run 2 s = (.next t : Host.Outcome State Fault Refusal) ∧
      t.threads[k]? = some { jobs := js, done := .value e.rsp.physOut e.rsp.status :: th.done } ∧
      t.fail = e.fail := by
  have htransfer : transfer k .one b [.thread k b w] := .inl ⟨w, rfl, nofun⟩
  rw [← Thread.advance_finished hjobs, ← he]
  exact ⟨_, run_transfer_request htransfer hin hth hjobs (Job.get_secondByte_transfers haddr hb1) rfl rfl,
    getElem?_set_thread hth _, rfl⟩

end Get

/-! ## The field that a lost update leaves -/

/-- `BFI` leaves the field of a disjoint descriptor alone (rule R86). -/
theorem fieldOf_BFI_disjoint {S T : FieldSpec Config.PW Config.RW} (hT : T.bitfieldOk = true)
    (hST : mask S &&& mask T = 0) (v : Phys) (w : RegWord) : fieldOf (BFI v w T) S = fieldOf w S := by
  have hTS : mask T &&& mask S = 0 := (BitVec.and_comm _ _).trans hST
  rw [fieldOf_eq, fieldOf_eq, BFI_eq_merge hT]
  apply S.fieldOf_congr
  rw [← mask_eq_fm]
  exact merge_and_disjoint (place_truncated_and_mask T v.toInt) hTS

end Sys2Proof.Machine
end

section
/-! PROOF. Reset, and the hazards of several agents (rules R122, R127 and R130 of spec/70_reset_and_hazards.md). -/

namespace Sys2Proof.Machine

open Sys2Proof Claims

/-- Settles O10: a run of resets ends as one reset does, with the flag and the port of `State.reset`. -/
theorem resetIsIdempotentAndTotal : Obligations.ResetIsIdempotentAndTotal := by
  unfold Obligations.ResetIsIdempotentAndTotal
  intro n s rest hin
  exact ⟨run_resets n hin, rfl, rfl⟩

/-- Settles O57: both threads read the old word, so the word written last holds the old field of the other thread. -/
theorem interleavedSetsLoseAnUpdate : Obligations.InterleavedSetsLoseAnUpdate := by
  unfold Obligations.InterleavedSetsLoseAnUpdate
  intro s k l rest th tl S T v u js ls hkl hS hT hST hsame haddr hk hl hkjobs hljobs hin
  have haddr' : busAddr (.bitfield T) ≠ 0xFF := hsame ▸ haddr
  obtain ⟨s₁, kread⟩ := setb_read_moves haddr hin hk hkjobs
  obtain ⟨s₂, lread⟩ := setb_read_moves haddr' kread.inputs ((kread.others l hkl.symm).trans hl) hljobs
  obtain ⟨s₃, krequest⟩ := setb_request_moves hS lread.inputs ((lread.others k hkl).trans kread.thread) rfl
  obtain ⟨s₄, lrequest⟩ :=
    setb_request_moves hT krequest.inputs ((krequest.others l hkl.symm).trans lread.thread) rfl
  obtain ⟨s₅, _, kwrite, -⟩ :=
    setb_write_moves haddr lrequest.inputs ((lrequest.others k hkl).trans krequest.thread) rfl
  obtain ⟨s₆, _, lwrite, hword⟩ :=
    setb_write_moves haddr' kwrite.inputs ((kwrite.others l hkl.symm).trans lrequest.thread) rfl
  have hnew : wordRead s₆.mem (busAddr (.bitfield S)) .two false =
      BFI u (wordRead s.mem (busAddr (.bitfield S)) .two false) T := by
    rw [lwrite.mem, hsame, hword, kread.mem]
  refine ⟨s₆, ?run, ⟨?lost, ?kept⟩, ?flag, (lwrite.others k hkl).trans kwrite.thread, lwrite.thread⟩
  case run =>
    exact (run_of_step kread.step).trans <| (run_of_step lread.step).trans <| (run_of_step krequest.step).trans <|
      (run_of_step lrequest.step).trans <| (run_of_step kwrite.step).trans <| run_one lwrite.step
  case lost => rw [hnew, fieldOf_BFI_disjoint hT hST]
  case kept => rw [hnew, fieldOf_BFI hT]
  case flag => rw [lwrite.fail, kwrite.fail, lrequest.fail, krequest.fail, lread.fail, kread.fail]

/-- Settles O58: the second byte that travels is the one the other agent stored, and the request takes both bytes as
they came. -/
theorem tornWordReachesTheBlock : Obligations.TornWordReachesTheBlock := by
  unfold Obligations.TornWordReachesTheBlock
  intro s k b2 w2 b3 w3 new rest th a S js haddr hth hjobs hin
  obtain ⟨s₁, hfirst⟩ := get_firstByte_moves haddr hin hth hjobs
  obtain ⟨t, hrun, hthread, hflag⟩ := get_secondByte_run (s := { s₁ with
    mem := s₁.mem.writeByte (busAddr S + 1) new, inputs := .thread k b2 w2 :: .thread k b3 w3 :: rest })
    haddr rfl hfirst.thread rfl (Memory.readByte_writeByte_same ..) (congrArg _ hfirst.fail)
  exact ⟨t, _, _, exec_eq_settle _ s, rfl,
    (run_of_step hfirst.step).trans <| (run_agentWrite hfirst.inputs).trans hrun, hthread, hflag⟩

end Sys2Proof.Machine
end
